-- ==== Sys2Proof/Word.lean ====
section
/-! DEFINITION. The byte and word types of the core (rules R13, R15 of spec/00_scope.md): bytes are `u8`, the varint
value and accumulator are `u64`, the hash word and the literal length field are `u32`. Cursors, lengths and indices are
natural numbers, because rule R13 makes their arithmetic exact. -/

namespace Sys2Proof

/-- A byte, `u8` (R13, R15). -/
abbrev Byte := BitVec 8

/-- A `u32` word: literal length field, hash word (R15). -/
abbrev Word32 := BitVec 32

/-- A `u64` word: varint value, accumulator, host registers (R15, R21). -/
abbrev Word64 := BitVec 64

/-- Zero-extension of a byte to 32 bits, `zext_32` (R13). -/
abbrev Byte.zext32 (b : Byte) : Word32 := b.setWidth 32

/-- Zero-extension of a byte to 64 bits, `zext_64` (R13). -/
abbrev Byte.zext64 (b : Byte) : Word64 := b.setWidth 64

end Sys2Proof
end

