-- ==== Sys2Proof/Config.lean ====
section
/-! DEFINITION. What is fixed for the machine and is not state: the constants of rule R11 (spec/00_scope.md), the decided
limit of rule R12, the shape of the two OPEN capacities of rule R12, and the free values the spec leaves without a value
(rules R28, R163, R40; log entries 1 and 2). -/

namespace Sys2Proof

/-- `MAX_DECODED_LEN` (R11). -/
def Config.maxDecodedLen : Nat := 0x7fffffff

/-- `MAX_INPUT_LEN` (R12): the largest input length `COMPRESS` accepts. -/
def Config.maxInputLen : Nat := 0xffffffff

/-- `MAX_VARINT_BYTES` (R11). -/
def Config.maxVarintBytes : Nat := 10

/-- `SHORT_INPUT_MAX` (R11): inputs of this length or less are one literal. -/
def Config.shortInputMax : Nat := 4

/-- `MIN_MATCH` (R11): bytes compared to accept a match. -/
def Config.minMatch : Nat := 4

/-- `TABLE_MIN` (R11). -/
def Config.tableMin : Nat := 256

/-- `TABLE_MAX` (R11). -/
def Config.tableMax : Nat := 16384

/-- `HASH_MUL` (R11): the fixed odd constant of the hash. -/
def Config.hashMul : Word32 := 0x1e35a7bd#32

/-- `MAX_MATCH_DISTANCE` (R11): a candidate at this distance or more is a miss. -/
def Config.maxMatchDistance : Nat := 32768

/-- `draw()` (R14, R28, R163): the byte the `k`-th read of an undefined `OUT` cell returns. It has no body: no statement can
rest on its value. Log entry 1, DESIGN CHOICE (the form of the free value; the spec gives no value). -/
opaque Config.freeByte : Nat → Byte

/-- What `IN[a]` holds when nothing has been written there since the `e`-th RESET (R27, R40, R282: "any value"). It has no
body. Log entry 2, DESIGN CHOICE. -/
opaque Config.unwrittenIn : Nat → Nat → Byte

/-- The values R12 allows for `IN_CAP`: unbounded, or `1 <= IN_CAP <= 2^64 − 1`. -/
def Config.inCapAllowed : Option Nat → Bool
  | none => true
  | some c => decide (1 ≤ c ∧ c ≤ 2 ^ 64 - 1)

/-- The OPEN capacities `IN_CAP` and `OUT_CAP` (R12, R31). `none` is the reference model's "unbounded". The range R12 gives
`IN_CAP` is part of the type: no machine has another one (log entry 5). -/
structure Capacity where
  /-- `IN_CAP`, in bytes. -/
  inCap   : Option Nat
  /-- `OUT_CAP`, in cells: a natural number (R12). -/
  outCap  : Option Nat
  /-- `IN_CAP` is in the range of R12. -/
  inRange : Config.inCapAllowed inCap = true := by rfl
  deriving DecidableEq, Repr

end Sys2Proof
end

