-- ==== Sys2Proof/Syntax.lean ====
section
/-! DEFINITION. The instruction set: one constructor per row of spec/opcode_table.json. The eight chunk kinds are the
instructions of a block (rules R4, R95 of the spec), the four host operations are selected by the register `OP`
(rules R22, R111). A chunk constructor holds the bits of the chunk's fixed part only: the payload of a literal is data in
`IN`, reached at the read cursor when the chunk executes (R61). -/

namespace Sys2Proof

/-- The instructions of the core. -/
inductive Instr where
  /-- `LIT`, format L0 (R96): `m` = length − 1, 0 to 59. -/
  | lit (m : BitVec 6)
  /-- `LIT1`, format L1 (R97): tag byte `F0`, length field `x` of one byte. -/
  | lit1 (x : BitVec 8)
  /-- `LIT2`, format L2 (R97): tag byte `F4`, length field of two bytes, little-endian. -/
  | lit2 (x : BitVec 16)
  /-- `LIT3`, format L3 (R97): tag byte `F8`, length field of three bytes, little-endian. -/
  | lit3 (x : BitVec 24)
  /-- `LIT4`, format L4 (R97): tag byte `FC`, length field of four bytes, little-endian. -/
  | lit4 (x : BitVec 32)
  /-- `COPY1`, format C1 (R99): `l` = `LEN` − 4, `off` = the 11-bit offset. -/
  | copy1 (l : BitVec 3) (off : BitVec 11)
  /-- `COPY2`, format C2 (R101): `m` = `LEN` − 1, `off` = the 16-bit offset. -/
  | copy2 (m : BitVec 6) (off : BitVec 16)
  /-- `COPY4`, format C4 (R103): `m` = the six bits of the tag byte that are not examined. -/
  | copy4 (m : BitVec 6)
  /-- Host operation `DECOMPRESS`, `OP` = 0 (R22, R150). -/
  | decompress
  /-- Host operation `COMPRESS`, `OP` = 1 (R22, R190). -/
  | compress
  /-- Host operation `UVARINT`, `OP` = 2 (R22, R131). -/
  | uvarint
  /-- Host operation `PUTUVARINT`, `OP` = 3 (R22, R136). -/
  | putuvarint
  deriving DecidableEq, Repr

end Sys2Proof
end

