-- ==== Sys2Proof/Machine/State.lean ====
section
/-! DEFINITION. The state of one core (rule R20 of spec/10_state.md): the host-interface registers of R21, the arrays `IN`,
`OUT` and `TABLE` (R27 to R29), the working registers of R32, R33 and R34, each under the spec's own name; then the model's
own fields (lower-case names): where the engine stands inside an operation, the counters of the free values, the capacities,
and the host's pending moves with the value its last read returned. -/

namespace Sys2Proof.Machine

/-! ## Register values -/

/-- `PHASE` (R21, R25); the value 3 is never taken (R21), so the type does not contain it (U11). -/
inductive Phase where
  | idle
  | run
  | done
  deriving DecidableEq, Repr

/-- `STATUS` (R23); the values 5, 6, 7 are never produced, so the type does not contain them (U11). -/
inductive Status where
  | ok
  | corrupt
  | tooLarge
  | unsupported
  | invalidInput
  deriving DecidableEq, Repr

/-- `VSTAT` (R23); the value 3 is never produced (U11). -/
inductive VStat where
  | ok
  | trunc
  | ovf
  deriving DecidableEq, Repr

/-- The four error kinds (R240). -/
inductive ErrKind where
  /-- Structurally invalid header or chunk stream (R241). -/
  | corrupt
  /-- `decoded_length` above `0x7fffffff` (R242). -/
  | tooLarge
  /-- A tag-3 chunk, or a `LIT4` length that is not positive (R243). -/
  | unsupported
  /-- `COMPRESS` only: the input length does not fit 32 bits (R244). -/
  | invalidInput
  deriving DecidableEq, Repr

/-- Where the engine stands inside the running operation: the step structure of R150 and R196 (log entry 4). -/
inductive Stage where
  /-- The operation's first step comes next. -/
  | begin
  /-- `DECOMPRESS` after its header step: chunk steps, then the end step. -/
  | chunks
  /-- `COMPRESS` after its table is set up: scan steps, then the final flush. -/
  | scan
  deriving DecidableEq, Repr

/-- A move of the host (R10, R25, R26, R283, R284). -/
inductive HostMove where
  /-- The host makes no move in this step. -/
  | wait
  /-- The host polls `PHASE` until it is not RUN (R255, R283 step 1). -/
  | awaitDone
  /-- RESET (R25, R280). -/
  | reset
  /-- START (R25). -/
  | start
  | writeOp (v : BitVec 2)
  | writeArg (v : Word64)
  | writeInLen (v : Word64)
  | writeIn (i : Nat) (b : Byte)
  | readPhase
  | readOp
  | readArg
  | readInLen
  | readIn (i : Nat)
  | readOutLen
  | readStatus
  | readVstat
  | readValue
  | readNbytes
  | readOut (i : Nat)
  deriving DecidableEq, Repr

/-! ## Arrays -/

/-- A sparse array: (index, entry) pairs with strictly rising indices. An unlisted index holds no entry. -/
abbrev Store (α : Type) := List (Nat × α)

/-- A byte array. For `IN` an unlisted index was never written since RESET (R27, R40); for `OUT` it is a cell marked
**undefined** (R28). -/
abbrev Memory := List Host.Cell

/-- The canonical form: indices strictly rising. An unlisted index holds no value, so no entry can equal it. -/
abbrev Memory.wf {α : Type} (m : Store α) : Prop := (m.map Prod.fst).Pairwise (· < ·)

/-! ## The state -/

/-- The state of one core (R20). -/
structure State where
  /-- `OP`, 2 bits: which operation START begins (R21, R22). -/
  OP      : BitVec 2
  /-- `ARG`, 64 bits: the value `PUTUVARINT` encodes (R21). -/
  ARG     : Word64
  /-- `IN_LEN`, 64 bits: number of valid bytes in `IN` (R21). -/
  IN_LEN  : Word64
  /-- `OUT_LEN`, 64 bits: number of valid bytes in `OUT` (R21). -/
  OUT_LEN : Word64
  /-- `STATUS`, 3 bits (R21, R23). -/
  STATUS  : Status
  /-- `VSTAT`, 2 bits (R21, R23). -/
  VSTAT   : VStat
  /-- `VALUE`, 64 bits: the value `UVARINT` decoded (R21). -/
  VALUE   : Word64
  /-- `NBYTES`, 4 bits: bytes `UVARINT` consumed (R21). -/
  NBYTES  : BitVec 4
  /-- `PHASE`, 2 bits (R21, R25). -/
  PHASE   : Phase
  /-- The input buffer (R27). -/
  IN      : Memory
  /-- The output buffer (R28). -/
  OUT     : Memory
  /-- The hash table (R29): a listed entry is present(p), an unlisted one is absent. -/
  TABLE   : Store Word32
  /-- Decompressor read cursor, the program counter; 64 bits (R30, R32). -/
  S       : Nat
  /-- Decompressor write cursor; 32 bits (R32). -/
  D       : Nat
  /-- `decoded_length`; 32 bits (R32). -/
  DLEN    : Word32
  /-- Transient: the tag byte; 8 bits (R32). -/
  B       : Byte
  /-- Transient: `B[1:0]` (R32). -/
  TAG     : BitVec 2
  /-- Transient: `B[7:2]` (R32). -/
  M       : BitVec 6
  /-- Transient: literal length field; 32 bits (R32). -/
  X       : Word32
  /-- Transient: number of bytes the chunk produces; 32 bits (R32). -/
  LEN     : Word32
  /-- Transient: copy offset; 16 bits (R32). -/
  OFF     : BitVec 16
  /-- Compressor input length; 64 bits (R33). -/
  N       : Nat
  /-- Write cursor of the emitting operations; 64 bits (R33). -/
  W       : Nat
  /-- Hash-table size in use; 15 bits (R33). -/
  TSIZE   : Nat
  /-- `32 − log2(TSIZE)`; 5 bits (R33). -/
  SHIFT   : Nat
  /-- Scan cursor; 64 bits (R33). -/
  CS      : Nat
  /-- Candidate position; 64 bits (R33). -/
  CT      : Nat
  /-- Start of the pending literal; 64 bits (R33, R36). -/
  LIT     : Nat
  /-- Transient: `CS` at the start of a match; 64 bits (R33). -/
  S0      : Nat
  /-- Transient: the 4-byte word at `CS`; 32 bits (R33). -/
  H       : Word32
  /-- Transient: bucket index; 14 bits (R33). -/
  IDX     : BitVec 14
  /-- Transient: the entry looked up, absent or present(p); 1 + 32 bits (R33). -/
  CAND    : Option Word32
  /-- Transient in `EMIT_COPY`: remaining length; 64 bits (R33). -/
  REM     : Nat
  /-- Varint accumulator; 64 bits (R34). -/
  ACC     : Word64
  /-- Shift of the next varint group; 7 bits (R34). -/
  SH      : Nat
  /-- Index of the varint byte being read; 4 bits (R34). -/
  VI      : Nat
  /-- The value `PUTUVARINT` has still to emit; 64 bits (R34). -/
  PV      : Word64
  /-- Model's own: where the engine stands inside the operation (log entry 4). -/
  stage   : Stage
  /-- Model's own: how many bytes `draw()` has returned so far (log entry 1). -/
  draws   : Nat
  /-- Model's own: how many RESETs there have been, the key of the unspecified content of `IN` (log entry 2). -/
  epoch   : Nat
  /-- Model's own: the OPEN capacities (R12, R31), which no step changes (log entry 5). -/
  caps    : Capacity
  /-- Model's own: the host's coming moves, the first one next (log entry 6). -/
  host    : List HostMove
  /-- Model's own: the value the host's last read returned (log entry 6). -/
  rdata   : Word64
  deriving DecidableEq, Repr

/-- The state right after RESET (R40, R280). `PHASE` is IDLE, the nine host registers are 0, every `OUT` cell is undefined,
no `IN` byte has been written. R40 leaves `TABLE` and the working registers unspecified: absent and 0 here (log entry 7,
DESIGN CHOICE). Capacities are the reference model's, unbounded (R12), and the host has no move pending. -/
def State.reset : State where
  OP      := 0
  ARG     := 0
  IN_LEN  := 0
  OUT_LEN := 0
  STATUS  := .ok
  VSTAT   := .ok
  VALUE   := 0
  NBYTES  := 0
  PHASE   := .idle
  IN      := []
  OUT     := []
  TABLE   := []
  S       := 0
  D       := 0
  DLEN    := 0
  B       := 0
  TAG     := 0
  M       := 0
  X       := 0
  LEN     := 0
  OFF     := 0
  N       := 0
  W       := 0
  TSIZE   := 0
  SHIFT   := 0
  CS      := 0
  CT      := 0
  LIT     := 0
  S0      := 0
  H       := 0
  IDX     := 0
  CAND    := none
  REM     := 0
  ACC     := 0
  SH      := 0
  VI      := 0
  PV      := 0
  stage   := .begin
  draws   := 0
  epoch   := 0
  caps    := { inCap := none, outCap := none }
  host    := []
  rdata   := 0

/-! ## How a step can stop -/

/-- Faults: accesses to an index the spec says does not exist. The error kinds of the spec are not faults of the model:
they end the operation in a next state (R250). -/
inductive Fault where
  /-- Raised by a host read or write of `IN[i]` with `i >= IN_CAP` (R27, R60). Safe: the model stops. -/
  | noSuchInByte
  /-- Raised by a host read of `OUT[i]` with `i >= OUT_CAP` (R28, R60). Safe: the model stops. -/
  | noSuchOutCell
  deriving DecidableEq, Repr

/-- Refusals: situations the spec gives no meaning. -/
inductive Refusal where
  /-- Raised by an arm of `exec` that has no meaning yet. Safe: the model stops. -/
  | notModelled (mnemonic : String)
  /-- Raised by START when `IN_LEN > IN_CAP` (R31, U6). Safe: the model stops. -/
  | inCapacity
  /-- Raised by the header step when `DLEN > OUT_CAP` and by an `emit` at `W >= OUT_CAP` (R31, U6). Safe: the model stops. -/
  | outCapacity
  /-- Raised by a host access while `PHASE` = RUN, but for reading `PHASE` (R26, R286, U9). Safe: the model stops. -/
  | hostAccessDuringRun
  /-- Raised by a START while `PHASE` = RUN (R25, U9). Safe: the model stops. -/
  | startDuringRun
  /-- Raised by `EMIT_COPY` for an offset of 65536 or more, which has no encoding (R228). Safe: the model stops; the
  Compressor never asks for it (R206). -/
  | copyOffsetUnencodable
  deriving DecidableEq, Repr

end Sys2Proof.Machine
end

