-- ==== Sys2Proof/Machine/Flags.lean ====
section
/-! DEFINITION. The status state. The core has no condition codes (R35): the only status registers are `STATUS` and
`VSTAT`, written at the last step of an operation or by START. Here are their codes as the host reads them (R23, R245),
the code of each error kind, and the writes of the varint decoder's outputs (R134). -/

namespace Sys2Proof.Machine

/-- The 3-bit code of `STATUS` (R23, R245). -/
def Status.code : Status → BitVec 3
  | .ok           => 0
  | .corrupt      => 1
  | .tooLarge     => 2
  | .unsupported  => 3
  | .invalidInput => 4

/-- The 2-bit code of `VSTAT` (R23). -/
def VStat.code : VStat → BitVec 2
  | .ok    => 0
  | .trunc => 1
  | .ovf   => 2

/-- The 2-bit code of `PHASE` (R21). -/
def Phase.code : Phase → BitVec 2
  | .idle => 0
  | .run  => 1
  | .done => 2

/-- The `STATUS` value of an error kind (R245). -/
def ErrKind.status : ErrKind → Status
  | .corrupt      => .corrupt
  | .tooLarge     => .tooLarge
  | .unsupported  => .unsupported
  | .invalidInput => .invalidInput

/-- The result of the varint decoder (R130). -/
inductive VarintResult where
  /-- `OK(value, n)`. -/
  | ok (value : Word64) (n : Nat)
  /-- "too small": the input ends before a terminating byte (R132). -/
  | trunc
  /-- Overflow (R133). -/
  | ovf
  deriving DecidableEq, Repr

/-- The `VSTAT` value of a varint result (R134). -/
def VarintResult.vstat : VarintResult → VStat
  | .ok _ _ => .ok
  | .trunc  => .trunc
  | .ovf    => .ovf

/-- `VALUE` after a `UVARINT` (R134). -/
def VarintResult.value : VarintResult → Word64
  | .ok v _ => v
  | .trunc  => 0
  | .ovf    => 0

/-- `NBYTES` after a `UVARINT` (R134). -/
def VarintResult.nbytes : VarintResult → BitVec 4
  | .ok _ n => BitVec.ofNat 4 n
  | .trunc  => 0
  | .ovf    => 0

/-- The host-visible writes of `UVARINT` (R134): `VALUE`, `NBYTES`, `VSTAT`. -/
def setVarintOutputs (r : VarintResult) (s : State) : State :=
  { s with VALUE := r.value, NBYTES := r.nbytes, VSTAT := r.vstat }

end Sys2Proof.Machine
end

