-- ==== Sys2Proof/WellFormed.lean ====
section
/-! DEFINITION. Which instruction terms have an encoding. Every field of the syntax has the width of its bits, so one check
is left: rule R96 gives `LIT` the values `m` = 0 to 59 only (60 to 63 in those bits are `LIT1` to `LIT4`, R97). -/

namespace Sys2Proof

/-- An instruction that has an encoding (R96, R105). -/
def Instr.wellFormed : Instr → Bool
  | .lit m        => decide (m.toNat < 60)
  | .lit1 _       => true
  | .lit2 _       => true
  | .lit3 _       => true
  | .lit4 _       => true
  | .copy1 _ _    => true
  | .copy2 _ _    => true
  | .copy4 _      => true
  | .decompress   => true
  | .compress     => true
  | .uvarint      => true
  | .putuvarint   => true

end Sys2Proof
end

