-- ==== Sys2Proof/Decode.lean ====
section
/-! DEFINITION. Decoding and encoding (spec/30_encoding.md). There are two encoding spaces: the bytes of the chunk stream
(R94 to R105) and the two bits of the register `OP` (R111). `Code` says which one a code lies in. -/

namespace Sys2Proof

/-! ## Bit fields and byte order -/

/-- The tag, bits 1 and 0 of the tag byte (R66, R94). -/
def tagBits (b : Byte) : BitVec 2 := b.extractLsb' 0 2

/-- `m`, bits 7 to 2 of the tag byte (R66, R94). -/
def mBits (b : Byte) : BitVec 6 := b.extractLsb' 2 6

/-- The little-endian 16-bit value of two bytes, the first at the lower index (R64). -/
def le16 (b0 b1 : Byte) : BitVec 16 := b1 ++ b0

/-- The little-endian 24-bit value of three bytes (R64). -/
def le24 (b0 b1 b2 : Byte) : BitVec 24 := b2 ++ b1 ++ b0

/-- The little-endian 32-bit value of four bytes (R64). -/
def le32 (b0 b1 b2 b3 : Byte) : BitVec 32 := b3 ++ b2 ++ b1 ++ b0

/-- Byte `k` of a value, counted from its least significant end (R13, R64). -/
def byteOf {w : Nat} (v : BitVec w) (k : Nat) : Byte := v.extractLsb' (8 * k) 8

/-! ## The chunk decoder -/

/-- How many bytes the fixed part of an instruction has: the tag byte and the length or offset bytes (R95, column "bytes
before any payload"; R103 for `COPY4`). A host operation has no bytes in the chunk stream (R111). -/
def Instr.fixedBytes : Instr → Nat
  | .lit _        => 1
  | .lit1 _       => 2
  | .lit2 _       => 3
  | .lit3 _       => 4
  | .lit4 _       => 5
  | .copy1 _ _    => 2
  | .copy2 _ _    => 3
  | .copy4 _      => 1
  | .decompress   => 0
  | .compress     => 0
  | .uvarint      => 0
  | .putuvarint   => 0

/-- The mnemonic of spec/opcode_table.json. -/
def Instr.mnemonic : Instr → String
  | .lit _        => "LIT"
  | .lit1 _       => "LIT1"
  | .lit2 _       => "LIT2"
  | .lit3 _       => "LIT3"
  | .lit4 _       => "LIT4"
  | .copy1 _ _    => "COPY1"
  | .copy2 _ _    => "COPY2"
  | .copy4 _      => "COPY4"
  | .decompress   => "DECOMPRESS"
  | .compress     => "COMPRESS"
  | .uvarint      => "UVARINT"
  | .putuvarint   => "PUTUVARINT"

/-- The chunk a tag byte `b` and the four bytes after it stand for (R105: every value of the tag byte selects exactly one
mnemonic; R97, R100, R102 for the operands). The tag byte alone says how many of the other bytes count. -/
def decodeWindow (b b1 b2 b3 b4 : Byte) : Instr :=
  if tagBits b = 1#2 then .copy1 (b.extractLsb' 2 3) (b.extractLsb' 5 3 ++ b1)
  else if tagBits b = 2#2 then .copy2 (mBits b) (le16 b1 b2)
  else if tagBits b = 3#2 then .copy4 (mBits b)
  else if b = 0xf0#8 then .lit1 b1
  else if b = 0xf4#8 then .lit2 (le16 b1 b2)
  else if b = 0xf8#8 then .lit3 (le24 b1 b2 b3)
  else if b = 0xfc#8 then .lit4 (le32 b1 b2 b3 b4)
  else .lit (mBits b)

/-- Why bytes are not a chunk. -/
inductive DecodeError where
  /-- There is no tag byte. -/
  | noTagByte
  /-- The tag byte selects this mnemonic and bytes of its length or offset field are missing (R154 to R157, R160, R161). -/
  | truncated (mnemonic : String)
  deriving DecidableEq, Repr

/-- What the decoder answers: an instruction and the bytes after its fixed part, or a rejection by name. -/
inductive Decoded where
  | ok (i : Instr) (rest : List Byte)
  | reject (e : DecodeError)
  deriving DecidableEq, Repr

/-- Decode one chunk from the bytes at the read cursor (R94 to R105). Total on any bytes. -/
def decodeChunk : List Byte → Decoded
  | [] => .reject .noTagByte
  | b :: rest =>
    let i := decodeWindow b (rest.getD 0 0) (rest.getD 1 0) (rest.getD 2 0) (rest.getD 3 0)
    if i.fixedBytes ≤ rest.length + 1 then .ok i (rest.drop (i.fixedBytes - 1))
    else .reject (.truncated i.mnemonic)

/-- The host operation the register `OP` selects (R22, R111). -/
def decodeOp (op : BitVec 2) : Instr :=
  if op = 0#2 then .decompress
  else if op = 1#2 then .compress
  else if op = 2#2 then .uvarint
  else .putuvarint

/-- A code of the machine: bytes of the chunk stream, or a value of the register `OP`. -/
inductive Code where
  | chunk (bytes : List Byte)
  | opcode (v : BitVec 2)
  deriving DecidableEq, Repr

/-- Decode either kind of code. -/
def decodeCode : Code → Decoded
  | .chunk bs => decodeChunk bs
  | .opcode v => .ok (decodeOp v) []

/-! ## The encoder -/

/-- The fixed-part bytes of a chunk (R96, R97, R99, R101, R103); a host operation has none. -/
def Instr.chunkBytes : Instr → List Byte
  | .lit m        => [m ++ 0#2]
  | .lit1 x       => [0xf0#8, x]
  | .lit2 x       => [0xf4#8, byteOf x 0, byteOf x 1]
  | .lit3 x       => [0xf8#8, byteOf x 0, byteOf x 1, byteOf x 2]
  | .lit4 x       => [0xfc#8, byteOf x 0, byteOf x 1, byteOf x 2, byteOf x 3]
  | .copy1 l off  => [off.extractLsb' 8 3 ++ l ++ 1#2, off.extractLsb' 0 8]
  | .copy2 m off  => [m ++ 2#2, byteOf off 0, byteOf off 1]
  | .copy4 m      => [m ++ 3#2]
  | .decompress   => []
  | .compress     => []
  | .uvarint      => []
  | .putuvarint   => []

/-- The code of an instruction, written from the formats of spec/30_encoding.md and the `OP` codes of R111. -/
def encode : Instr → Code
  | .decompress   => .opcode 0#2
  | .compress     => .opcode 1#2
  | .uvarint      => .opcode 2#2
  | .putuvarint   => .opcode 3#2
  | .lit m        => .chunk (Instr.lit m).chunkBytes
  | .lit1 x       => .chunk (Instr.lit1 x).chunkBytes
  | .lit2 x       => .chunk (Instr.lit2 x).chunkBytes
  | .lit3 x       => .chunk (Instr.lit3 x).chunkBytes
  | .lit4 x       => .chunk (Instr.lit4 x).chunkBytes
  | .copy1 l off  => .chunk (Instr.copy1 l off).chunkBytes
  | .copy2 m off  => .chunk (Instr.copy2 m off).chunkBytes
  | .copy4 m      => .chunk (Instr.copy4 m).chunkBytes

/-! ## The opcode table's numbering -/

/-- The first `n` bytes of a number, least significant first: the bytes of a table word as the chunk stream holds them. -/
def leBytesOfNat : Nat → Nat → List Byte
  | 0, _ => []
  | n + 1, v => BitVec.ofNat 8 v :: leBytesOfNat n (v / 256)

/-- The length of the longest fixed part of a chunk (`LIT4`, R97). -/
def maxFixedBytes : Nat := 5

/-- The five bytes of a table word: bit 0 is the least significant bit of the first byte, every bit above `nbits` is 0. -/
def tableWordBytes (nbits w : Nat) : List Byte := leBytesOfNat maxFixedBytes (w % 2 ^ nbits)

/-- Whether a table word is a code of the register `OP` and not of the chunk stream (log entry 3, DESIGN CHOICE). The
table's host-operation rows have 2 bits, so a word of fewer than 8 bits is an `OP` code. In whole bytes such a row has 8
bits, so an 8-bit word below 4 is an `OP` code too; 1 and 2 can be no chunk row's (`COPY1` has 16 bits and `COPY2` 24), and
0 and 3 are also the tag bytes of a `LIT` and a `COPY4` whose other six bits are 0. -/
def tableWordIsOp (nbits w : Nat) : Bool :=
  decide (nbits < 8) || (decide (nbits = 8) && decide (w < 4))

/-- The instruction the decoder reads from a word of spec/opcode_table.json. -/
def decodeTableWord (nbits w : Nat) : Option Instr :=
  let code : Code := if tableWordIsOp nbits w then .opcode (BitVec.ofNat 2 w) else .chunk (tableWordBytes nbits w)
  match decodeCode code with
  | .ok i _ => some i
  | .reject _ => none

end Sys2Proof
end

