-- ==== Sys2Proof/Machine/Operands.lean ====
section
/-! DEFINITION. The operand forms of the chunks: the literal length (R98, R158), the length and offset of a copy (R100,
R102), and the presence of a chunk's length or offset bytes (R154 to R157, R160, R161). -/

namespace Sys2Proof.Machine

/-- `LEN = trunc_32(X + 1)` (R98, R158). -/
def literalLen (x : Word32) : Word32 := x + 1

/-- `signed_32(LEN) <= 0`, the test of R158. -/
def literalLenIllegal (len : Word32) : Bool := decide (len.toInt ≤ 0)

/-- `X` of a `LIT` (R153). -/
def litField (m : BitVec 6) : Word32 := m.setWidth 32

/-- `X` of a `LIT1` (R154). -/
def lit1Field (x : BitVec 8) : Word32 := x.setWidth 32

/-- `X` of a `LIT2` (R155). -/
def lit2Field (x : BitVec 16) : Word32 := x.setWidth 32

/-- `X` of a `LIT3` (R156). -/
def lit3Field (x : BitVec 24) : Word32 := x.setWidth 32

/-- `LEN` of a `COPY1`: `4 + m[2:0]` (R100, R160). -/
def copy1Len (l : BitVec 3) : Word32 := 4 + l.setWidth 32

/-- `OFF` of a `COPY1`: 11 bits, zero-extended (R100, R160). -/
def copy1Off (off : BitVec 11) : BitVec 16 := off.setWidth 16

/-- `LEN` of a `COPY2`: `1 + m` (R102, R161). -/
def copy2Len (m : BitVec 6) : Word32 := 1 + m.setWidth 32

/-- The first `n` bytes of the chunk at `S` lie inside the block: not (`S + n > IN_LEN`) (R154 to R157, R160, R161). -/
def fixedPartPresent (n : Nat) (s : State) : Bool := decide (s.S + n ≤ s.IN_LEN.toNat)

end Sys2Proof.Machine
end

