-- ==== Sys2Proof/Machine/Ops.lean ====
section
/-! DEFINITION. The named operations over the arrays and registers (R14, R60, R64, R68), taking an error (R250) and the
successful end of an operation, and the control of a meaning that can end early. -/

namespace Sys2Proof.Machine

/-! ## Sparse arrays -/

/-- The entry at an index, if there is one. -/
def Store.read {α : Type} : Store α → Nat → Option α
  | [], _ => none
  | (k, v) :: m, a => if a = k then some v else Store.read m a

/-- Put an entry at an index, keeping the indices rising. -/
def Store.write {α : Type} : Store α → Nat → α → Store α
  | [], a, v => [(a, v)]
  | (k, w) :: m, a, v =>
    if a < k then (a, v) :: (k, w) :: m
    else if a = k then (a, v) :: m
    else (k, w) :: Store.write m a v

/-- Make every index below `n` hold no entry. -/
def Store.clearBelow {α : Type} (n : Nat) (m : Store α) : Store α := m.filter fun e => decide (n ≤ e.1)

/-- Put a list of entries at consecutive indices from `a` on, in rising order (R73, R78). -/
def Store.writeList {α : Type} : Store α → Nat → List α → Store α
  | m, _, [] => m
  | m, a, v :: vs => Store.writeList (Store.write m a v) (a + 1) vs

/-- The entries listed are exactly those at indices 0 to `n − 1`. -/
abbrev Store.dense {α : Type} (m : Store α) (n : Nat) : Prop := m.map Prod.fst = List.range n

/-! ## The three address spaces (R60) -/

/-- Whether `n` bytes fit a capacity (R31). -/
def Capacity.fits (cap : Option Nat) (n : Nat) : Bool :=
  match cap with
  | none => true
  | some c => decide (n ≤ c)

/-- `IN[i]` (R14, R27). A byte nothing has written since RESET is unspecified, the same one at each read (R69). -/
def State.readIn (s : State) (i : Nat) : Byte :=
  match Store.read s.IN i with
  | some b => b
  | none => Config.unwrittenIn s.epoch i

/-- `n` consecutive bytes of `IN` from index `a` (R68). -/
def State.inBytes (s : State) : Nat → Nat → List Byte
  | _, 0 => []
  | a, n + 1 => s.readIn a :: s.inBytes (a + 1) n

/-- `MemRead(IN, a, 4)` (R14, R64). -/
def State.readIn32 (s : State) (a : Nat) : Word32 :=
  le32 (s.readIn a) (s.readIn (a + 1)) (s.readIn (a + 2)) (s.readIn (a + 3))

/-- `IN[i]` of the valid part, and 0 outside it: what the fetch puts in place of bytes the block does not have. The engine
reads no byte at or above `IN_LEN` (R27). -/
def State.blockByte (s : State) (i : Nat) : Byte :=
  if i < s.IN_LEN.toNat then s.readIn i else 0

/-- `draw()` (R14): the next free byte. -/
def State.draw (s : State) : Byte × State :=
  (Config.freeByte s.draws, { s with draws := s.draws + 1 })

/-- `OUT[a]` read by the engine (R28, R69): a defined cell gives its byte, an undefined one a draw. -/
def State.readOut (s : State) (a : Nat) : Byte × State :=
  match Store.read s.OUT a with
  | some b => (b, s)
  | none => s.draw

/-- `OUT[D] <- b; D <- D + 1`, one step of the copy engine's write side (R162). -/
def State.pushOut (s : State) (b : Byte) : State :=
  { s with OUT := Store.write s.OUT s.D b, D := s.D + 1 }

/-- `TABLE[i]` (R29): absent or present(p). -/
def State.readTable (s : State) (i : Nat) : Option Word32 := Store.read s.TABLE i

/-! ## Taking an error, and ending an operation -/

/-- `raise K`, the error entry (R250): as one transition `STATUS` gets the kind's code, `OUT_LEN` is 0, every `OUT` cell is
undefined and `PHASE` is DONE. Nothing is saved (R247) and there is no handler. There is no return from an error (R252):
the host's next START is `hostStart` in Machine/HostPort.lean. -/
def raise (k : ErrKind) (s : State) : State :=
  { s with STATUS := k.status, OUT_LEN := 0, OUT := [], PHASE := .done }

/-- The successful last step of an operation: `OUT_LEN <- n; STATUS <- 0; PHASE <- DONE` (R165, R193, R204, R139). -/
def succeed (n : Word64) (s : State) : State :=
  { s with OUT_LEN := n, STATUS := .ok, PHASE := .done }

/-! ## Meanings that can end early -/

/-- Where a part of a meaning leaves off: it goes on, it has raised an error (no statement after a `raise` executes, R14),
or the model refuses. -/
inductive Flow where
  | go (s : State)
  | raised (k : ErrKind) (s : State)
  | refuse (r : Refusal)
  deriving DecidableEq, Repr

/-- Go on with the next part, unless the first ended (R14, R248). -/
def Flow.andThen (f : Flow) (g : State → Flow) : Flow :=
  match f with
  | .go s => g s
  | .raised k s => .raised k s
  | .refuse r => .refuse r

/-- The outcome of a whole meaning. -/
def Flow.outcome (f : Flow) : Host.Outcome State Fault Refusal :=
  match f with
  | .go s => .next s
  | .raised k s => .next (raise k s)
  | .refuse r => .refused r

/-! ## Emission -/

/-- `emit(b)`: `OUT[W] <- b; W <- W + 1` (R14, R78), refused where the cell does not exist (R31). -/
def emit (b : Byte) (s : State) : Flow :=
  if Capacity.fits s.caps.outCap (s.W + 1) then
    .go { s with OUT := Store.write s.OUT s.W b, W := s.W + 1 }
  else .refuse .outCapacity

/-- Emit bytes one after another (R78). -/
def emitAll : List Byte → State → Flow
  | [], s => .go s
  | b :: bs, s => (emit b s).andThen (emitAll bs)

end Sys2Proof.Machine
end

