-- ==== Sys2Proof/Machine/EmitHelpers.lean ====
section
/-! DEFINITION. The emission helpers of the Compressor (spec/43_emit_helpers.md): `EMIT_COPY` and `EMIT_LITERAL`. -/

namespace Sys2Proof.Machine

/-! ## EMIT_COPY -/

/-- `emit_copy1(offset, len)` (R221). -/
def copy1Bytes (off len : Nat) : List Byte :=
  [BitVec.ofNat 8 (((off / 256 % 8) <<< 5) ||| ((len - 4) <<< 2) ||| 1), BitVec.ofNat 8 off]

/-- `emit_copy2(offset, len)` (R222). -/
def copy2Bytes (off len : Nat) : List Byte :=
  [BitVec.ofNat 8 (((len - 1) <<< 2) ||| 2), BitVec.ofNat 8 off, BitVec.ofNat 8 (off / 256)]

/-- The bytes the loop of R220 emits for a remaining length `rem`; each round takes at least 1 from it, so `rem` rounds are
enough. -/
def copyBytesLoop (off : Nat) : Nat → Nat → List Byte
  | 0, _ => []
  | fuel + 1, rem =>
    if rem = 0 then []
    else if 4 ≤ rem ∧ rem ≤ 11 ∧ off < 2048 then copy1Bytes off rem
    else copy2Bytes off (min rem 64) ++ copyBytesLoop off fuel (rem - min rem 64)

/-- The bytes of `EMIT_COPY(offset, length)` (R220). -/
def copyBytes (off len : Nat) : List Byte := copyBytesLoop off len len

/-- `EMIT_COPY(offset, length)` (R220): `REM` runs from `length` down to 0. An offset of 65536 or more has no encoding and
the model refuses it (R228). -/
def emitCopy (off len : Nat) (s : State) : Flow :=
  if off < 65536 then
    (emitAll (copyBytes off len) { s with REM := len }).andThen fun s1 => .go { s1 with REM := 0 }
  else .refuse .copyOffsetUnencodable

/-! ## EMIT_LITERAL -/

/-- The tag byte and length bytes of a literal of `n + 1` bytes, the shortest form (R224); `n < 2^32`. -/
def literalHead (n : Nat) : List Byte :=
  if n < 60 then [BitVec.ofNat 8 (n <<< 2)]
  else if n < 2 ^ 8 then [0xf0#8, BitVec.ofNat 8 n]
  else if n < 2 ^ 16 then [0xf4#8, BitVec.ofNat 8 n, BitVec.ofNat 8 (n / 2 ^ 8)]
  else if n < 2 ^ 24 then [0xf8#8, BitVec.ofNat 8 n, BitVec.ofNat 8 (n / 2 ^ 8), BitVec.ofNat 8 (n / 2 ^ 16)]
  else [0xfc#8, BitVec.ofNat 8 n, BitVec.ofNat 8 (n / 2 ^ 8), BitVec.ofNat 8 (n / 2 ^ 16), BitVec.ofNat 8 (n / 2 ^ 24)]

/-- `EMIT_LITERAL(start, count)` (R224) with its capacity guard (R226). -/
def emitLiteral (start count : Nat) (s : State) : Flow :=
  if count - 1 < 2 ^ 32 then emitAll (literalHead (count - 1) ++ s.inBytes start count) s
  else .raised .invalidInput s

end Sys2Proof.Machine
end

