-- ==== Sys2Proof/Machine/Varint.lean ====
section
/-! DEFINITION. The Varint Codec (spec/40_varint.md): the decoder and the encoder, and the two host operations `UVARINT`
and `PUTUVARINT`. -/

namespace Sys2Proof.Machine

/-! ## Decode -/

/-- The decoder's registers when it leaves off, and its result (R34, R131). -/
structure VarintRun where
  acc    : Word64
  sh     : Nat
  vi     : Nat
  result : VarintResult
  deriving DecidableEq, Repr

/-- The loop of R131 over `len` bytes read by `rd`, with `ACC`, `SH`, `VI` as they stand. At `VI` = 10 it always ends, so
eleven rounds are enough (R133, R295). -/
def uvarintLoop (rd : Nat → Byte) (len : Nat) : Nat → Word64 → Nat → Nat → VarintRun
  | 0, acc, sh, vi => ⟨acc, sh, vi, .ovf⟩
  | fuel + 1, acc, sh, vi =>
    if vi = len then ⟨acc, sh, vi, .trunc⟩
    else if vi = Config.maxVarintBytes then ⟨acc, sh, vi, .ovf⟩
    else if (rd vi).toNat < 0x80 then
      if vi = 9 ∧ 1 < (rd vi).toNat then ⟨acc, sh, vi, .ovf⟩
      else ⟨acc, sh, vi, .ok (acc ||| ((rd vi).zext64 <<< sh)) (vi + 1)⟩
    else uvarintLoop rd len fuel (acc ||| (((rd vi) &&& 0x7f#8).zext64 <<< sh)) (sh + 7) (vi + 1)

/-- `uvarint(IN, IN_LEN)` (R131), from `ACC` = `SH` = `VI` = 0 (R43). -/
def uvarintRun (s : State) : VarintRun :=
  uvarintLoop s.readIn s.IN_LEN.toNat 11 0 0 0

/-- The working registers after the decoder has run (R34). -/
def setVarintRegs (r : VarintRun) (s : State) : State :=
  { s with ACC := r.acc, SH := r.sh, VI := r.vi }

/-- `UVARINT` (R131, R134, R139): the outputs, then `STATUS` = OK with `OUT_LEN` = 0, or Corrupt. -/
def execUvarint (s : State) : Host.Outcome State Fault Refusal :=
  let r := uvarintRun s
  let s1 := setVarintOutputs r.result (setVarintRegs r s)
  match r.result with
  | .ok _ _ => .next (succeed 0 s1)
  | .trunc  => .next (raise .corrupt s1)
  | .ovf    => .next (raise .corrupt s1)

/-! ## Encode -/

/-- The bytes `putuvarint` emits for the value still to emit, and `PV` when it stops (R136). Nine rounds of `PV >> 7`
leave less than `0x80` of any 64-bit value. -/
def putuvarintLoop : Nat → Word64 → List Byte × Word64
  | 0, pv => ([pv.setWidth 8], pv)
  | fuel + 1, pv =>
    if pv.toNat < 0x80 then ([pv.setWidth 8], pv)
    else
      let r := putuvarintLoop fuel (pv >>> 7)
      ((0x80#8 ||| (pv.setWidth 7).setWidth 8) :: r.1, r.2)

/-- The varint of a value: the shortest one (R93, R136). -/
def putuvarintBytes (v : Word64) : List Byte := (putuvarintLoop 9 v).1

/-- `putuvarint(v)` (R136): `PV <- v`, then the emits, `PV` running down. -/
def putuvarint (v : Word64) (s : State) : Flow :=
  (emitAll (putuvarintBytes v) { s with PV := v }).andThen fun s1 => .go { s1 with PV := (putuvarintLoop 9 v).2 }

/-- `PUTUVARINT` (R136, R139): `W <- 0`, encode `ARG`, `OUT_LEN <- W`, `STATUS` = OK. -/
def execPutuvarint (s : State) : Host.Outcome State Fault Refusal :=
  ((putuvarint s.ARG { s with W := 0 }).andThen fun s1 => .go (succeed (BitVec.ofNat 64 s1.W) s1)).outcome

end Sys2Proof.Machine
end

