-- ==== Sys2Proof/Machine/Compressor.lean ====
section
/-! DEFINITION. The Compressor (spec/42_compressor.md): the length check, the header, the short-input path, the hash table,
one scan step per position, the final flush, and the host operation `COMPRESS`. -/

namespace Sys2Proof.Machine

/-! ## The hash table -/

/-- The loop of R194: double `TSIZE` and lower `SHIFT` while `TSIZE` is below 16384 and below `N`. Six doublings lead from
256 to 16384. -/
def tableSizeLoop (n : Nat) : Nat → Nat → Nat → Nat × Nat
  | 0, tsize, shift => (tsize, shift)
  | fuel + 1, tsize, shift =>
    if tsize < Config.tableMax ∧ tsize < n then tableSizeLoop n fuel (tsize * 2) (shift - 1) else (tsize, shift)

/-- `TSIZE` and `SHIFT` for an input of `n` bytes (R194). -/
def tableSize (n : Nat) : Nat × Nat := tableSizeLoop n 6 Config.tableMin 24

/-- The table's start (R194, R195) and the scan's (R196). -/
def startScan (s : State) : State :=
  { s with
    TSIZE := (tableSize s.N).1
    SHIFT := (tableSize s.N).2
    TABLE := Store.clearBelow (tableSize s.N).1 s.TABLE
    CS := 0
    LIT := 0
    stage := .scan }

/-- The bucket of a hash word: `trunc_32(H * 0x1e35a7bd) >> SHIFT` (R197), held in 14 bits (R33). -/
def hashBucket (h : Word32) (shift : Nat) : BitVec 14 := ((h * Config.hashMul) >>> shift).setWidth 14

/-- Hash, look up, then overwrite (R197, R198, R289). -/
def lookup (s : State) : State :=
  let h := s.readIn32 s.CS
  let idx := hashBucket h s.SHIFT
  { s with
    H := h
    IDX := idx
    CAND := s.readTable idx.toNat
    TABLE := Store.write s.TABLE idx.toNat (BitVec.ofNat 32 s.CS) }

/-- The hit test on `CAND` (R199): the candidate position of a hit, nothing for a miss. -/
def hitCandidate (s : State) : Option Nat :=
  match s.CAND with
  | none => none
  | some p =>
    if s.CS - p.toNat ≥ Config.maxMatchDistance then none
    else if s.readIn32 p.toNat ≠ s.H then none
    else some p.toNat

/-! ## A match -/

/-- The extension loop of R202 over the bytes `rd`, below `n`: `fuel` = `n − cs` rounds are enough. -/
def extendLoop (rd : Nat → Byte) (n : Nat) : Nat → Nat → Nat → Nat × Nat
  | 0, cs, ct => (cs, ct)
  | fuel + 1, cs, ct =>
    if cs < n ∧ rd cs = rd ct then extendLoop rd n fuel (cs + 1) (ct + 1) else (cs, ct)

/-- Extend the match forward past its first four bytes (R202): `S0`, `CS`, `CT`. -/
def extendMatch (s : State) : State :=
  let e := extendLoop s.readIn s.N (s.N - (s.CS + Config.minMatch)) (s.CS + Config.minMatch) (s.CT + Config.minMatch)
  { s with S0 := s.CS, CS := e.1, CT := e.2 }

/-- Emit the pending literal `IN[LIT .. upTo)` if there is one (R201, R204). -/
def flushLiteral (upTo : Nat) (s : State) : Flow :=
  if s.LIT ≠ upTo then emitLiteral s.LIT (upTo - s.LIT) s else .go s

/-- Extend the match, emit its copy and move on (R202, R203). -/
def matchCopy (s : State) : Flow :=
  let s1 := extendMatch s
  (emitCopy (s1.CS - s1.CT) (s1.CS - s1.S0) s1).andThen fun s2 => .go { s2 with LIT := s2.CS }

/-- A hit (R201, R202, R203). -/
def matchStep (s : State) : Flow := (flushLiteral s.CS s).andThen matchCopy

/-- One scan step (R196 to R203): a miss advances `CS` by 1 (R200), a hit is `matchStep`. -/
def scanStep (s : State) : Flow :=
  let s1 := lookup s
  match hitCandidate s1 with
  | none => .go { s1 with CS := s1.CS + 1 }
  | some t => matchStep { s1 with CT := t }

/-- The end of `COMPRESS`: `OUT_LEN <- W; STATUS <- 0; PHASE <- DONE` (R193, R204). -/
def compressDone (s : State) : Flow := .go (succeed (BitVec.ofNat 64 s.W) s)

/-- The end of the scan (R204). -/
def finishScan (s : State) : Flow := (flushLiteral s.N s).andThen compressDone

/-! ## The operation -/

/-- An input of at most four bytes: one literal, or nothing if it is empty, and the end (R193). -/
def shortInput (s : State) : Flow := (if s.N ≠ 0 then emitLiteral 0 s.N s else .go s).andThen compressDone

/-- After the header: short input (R193), or the table and the scan's start (R194 to R196). -/
def afterHeader (s : State) : Flow := if s.N ≤ Config.shortInputMax then shortInput s else .go (startScan s)

/-- The first step of `COMPRESS`: length check (R191), header (R192), and what follows it. -/
def compressBegin (s : State) : Flow :=
  let s0 := { s with N := s.IN_LEN.toNat }
  if s0.N > Config.maxInputLen then .raised .invalidInput s0
  else (putuvarint (BitVec.ofNat 64 s0.N) { s0 with W := 0 }).andThen afterHeader

/-- `COMPRESS` (R190), one step of it at a time: the first step; then one step per scan position while `CS + 3 < N`, and
the final flush (R196, R204). -/
def execCompress (s : State) : Host.Outcome State Fault Refusal :=
  match s.stage with
  | .scan   => (if s.CS + 3 < s.N then scanStep s else finishScan s).outcome
  | .begin  => (compressBegin s).outcome
  | .chunks => (compressBegin s).outcome

end Sys2Proof.Machine
end

