-- ==== Sys2Proof/Machine/Decompressor.lean ====
section
/-! DEFINITION. The Decompressor (spec/41_decompressor.md): the header step, the tag parser's fetch, the eight chunk kinds
with the literal and copy tails, the end step, and the host operation `DECOMPRESS`. -/

namespace Sys2Proof.Machine

/-! ## The tag parser -/

/-- The fetch of a chunk step (R152): `B <- IN[S]; TAG <- B[1:0]; M <- B[7:2]`. -/
def fetchChunk (s : State) : State :=
  let b := s.readIn s.S
  { s with B := b, TAG := tagBits b, M := mBits b }

/-- The chunk at `S` (R152, R105). The decoder is given the tag byte and the four bytes after it; the bytes the block does
not have read as 0 there, and the chunk's own presence test looks at none of them (R154 to R157, R160, R161). -/
def chunkAt (s : State) : Instr :=
  decodeWindow (s.blockByte s.S) (s.blockByte (s.S + 1)) (s.blockByte (s.S + 2)) (s.blockByte (s.S + 3))
    (s.blockByte (s.S + 4))

/-! ## Literal chunks -/

/-- The literal tail, part 2 (R159): the two bounds tests, then the move of `LEN` bytes from `IN[S ..]` to `OUT[D ..]`. -/
def literalMove (s : State) : Host.Outcome State Fault Refusal :=
  if s.LEN.toNat > s.DLEN.toNat - s.D then .next (raise .corrupt s)
  else if s.LEN.toNat > s.IN_LEN.toNat - s.S then .next (raise .corrupt s)
  else .next { s with
    OUT := Store.writeList s.OUT s.D (s.inBytes s.S s.LEN.toNat)
    D := s.D + s.LEN.toNat
    S := s.S + s.LEN.toNat }

/-- The literal tail (R158, R159) after `X` is known and `S` has passed the `k` bytes before the payload. -/
def literalTail (k : Nat) (x : Word32) (s : State) : Host.Outcome State Fault Refusal :=
  let s1 := { s with X := x, S := s.S + k, LEN := literalLen x }
  if literalLenIllegal s1.LEN then .next (raise .unsupported s1) else literalMove s1

/-- `LIT` (R153). -/
def execLit (m : BitVec 6) (s : State) : Host.Outcome State Fault Refusal := literalTail 1 (litField m) s

/-- `LIT1` (R154). -/
def execLit1 (x : BitVec 8) (s : State) : Host.Outcome State Fault Refusal :=
  if fixedPartPresent 2 s then literalTail 2 (lit1Field x) s else .next (raise .corrupt s)

/-- `LIT2` (R155). -/
def execLit2 (x : BitVec 16) (s : State) : Host.Outcome State Fault Refusal :=
  if fixedPartPresent 3 s then literalTail 3 (lit2Field x) s else .next (raise .corrupt s)

/-- `LIT3` (R156). -/
def execLit3 (x : BitVec 24) (s : State) : Host.Outcome State Fault Refusal :=
  if fixedPartPresent 4 s then literalTail 4 (lit3Field x) s else .next (raise .corrupt s)

/-- `LIT4` (R157). -/
def execLit4 (x : BitVec 32) (s : State) : Host.Outcome State Fault Refusal :=
  if fixedPartPresent 5 s then literalTail 5 x s else .next (raise .corrupt s)

/-! ## Copy chunks -/

/-- The copy engine (R73, R162): `n` times `OUT[D] <- OUT[D − OFF]; D <- D + 1`, in this order. With `OFF` = 0 each read
finds an undefined cell and draws (R163). -/
def copyLoop (off : Nat) : Nat → State → State
  | 0, s => s
  | n + 1, s =>
    let r := s.readOut (s.D - off)
    copyLoop off n (r.2.pushOut r.1)

/-- The copy tail (R162) after `LEN` and `OFF` are known and `S` has passed the chunk's `k` bytes. -/
def copyTail (k : Nat) (len : Word32) (off : BitVec 16) (s : State) : Host.Outcome State Fault Refusal :=
  let s1 := { s with LEN := len, OFF := off, S := s.S + k }
  if off.toNat > s1.D then .next (raise .corrupt s1)
  else if s1.D + len.toNat > s1.DLEN.toNat then .next (raise .corrupt s1)
  else .next (copyLoop off.toNat len.toNat s1)

/-- `COPY1` (R160). -/
def execCopy1 (l : BitVec 3) (off : BitVec 11) (s : State) : Host.Outcome State Fault Refusal :=
  if fixedPartPresent 2 s then copyTail 2 (copy1Len l) (copy1Off off) s else .next (raise .corrupt s)

/-- `COPY2` (R161). -/
def execCopy2 (m : BitVec 6) (off : BitVec 16) (s : State) : Host.Outcome State Fault Refusal :=
  if fixedPartPresent 3 s then copyTail 3 (copy2Len m) off s else .next (raise .corrupt s)

/-- `COPY4` (R164): Unsupported at once; none of its other bits is examined. -/
def execCopy4 (_m : BitVec 6) (s : State) : Host.Outcome State Fault Refusal := .next (raise .unsupported s)

/-! ## The operation -/

/-- The header step (R151): decode the varint, reject it or set `DLEN`, `D`, `S` with all of `OUT` undefined. The varint's
result goes to `VSTAT`; `VALUE` and `NBYTES` are left (R140). -/
def headerStep (s : State) : Host.Outcome State Fault Refusal :=
  let r := uvarintRun s
  let s1 := { setVarintRegs r s with VSTAT := r.result.vstat }
  match r.result with
  | .trunc => .next (raise .corrupt s1)
  | .ovf   => .next (raise .corrupt s1)
  | .ok v n =>
    if v.toNat > Config.maxDecodedLen then .next (raise .tooLarge s1)
    else if Capacity.fits s1.caps.outCap v.toNat then
      .next { s1 with DLEN := v.setWidth 32, D := 0, S := n, OUT := [], stage := .chunks }
    else .refused .outCapacity

/-- The end step (R165). -/
def endStep (s : State) : Host.Outcome State Fault Refusal :=
  if s.D ≠ s.DLEN.toNat then .next (raise .corrupt s) else .next (succeed (s.DLEN.setWidth 64) s)

/-- A chunk step (R152): the fetch, then the chunk at `S` with the registers the fetch wrote. The decoder gives one of the
eight chunk kinds; the last four lines are never taken. -/
def chunkStep (s : State) : Host.Outcome State Fault Refusal :=
  match chunkAt s with
  | .lit m       => execLit m (fetchChunk s)
  | .lit1 x      => execLit1 x (fetchChunk s)
  | .lit2 x      => execLit2 x (fetchChunk s)
  | .lit3 x      => execLit3 x (fetchChunk s)
  | .lit4 x      => execLit4 x (fetchChunk s)
  | .copy1 l off => execCopy1 l off (fetchChunk s)
  | .copy2 m off => execCopy2 m off (fetchChunk s)
  | .copy4 m     => execCopy4 m (fetchChunk s)
  | .decompress  => .next (fetchChunk s)
  | .compress    => .next (fetchChunk s)
  | .uvarint     => .next (fetchChunk s)
  | .putuvarint  => .next (fetchChunk s)

/-- `DECOMPRESS` (R150), one step of it at a time (log entry 4): the header step first; then a chunk step while
`S < IN_LEN`, and the end step at `S` = `IN_LEN`. -/
def execDecompress (s : State) : Host.Outcome State Fault Refusal :=
  match s.stage with
  | .chunks => if s.S < s.IN_LEN.toNat then chunkStep s else endStep s
  | .begin  => headerStep s
  | .scan   => headerStep s

end Sys2Proof.Machine
end

