-- ==== Sys2Proof/Machine/Dispatch.lean ====
section
/-! DEFINITION. The dispatch: one arm per constructor of Instr, each one call of the instruction's meaning. -/

namespace Sys2Proof.Machine

def exec (i : Instr) (s : State) : Host.Outcome State Fault Refusal :=
  match i with
  | .lit m => Sys2Proof.Machine.execLit m s
  | .lit1 x => Sys2Proof.Machine.execLit1 x s
  | .lit2 x => Sys2Proof.Machine.execLit2 x s
  | .lit3 x => Sys2Proof.Machine.execLit3 x s
  | .lit4 x => Sys2Proof.Machine.execLit4 x s
  | .copy1 l off => Sys2Proof.Machine.execCopy1 l off s
  | .copy2 m off => Sys2Proof.Machine.execCopy2 m off s
  | .copy4 m => Sys2Proof.Machine.execCopy4 m s
  | .decompress => Sys2Proof.Machine.execDecompress s
  | .compress => Sys2Proof.Machine.execCompress s
  | .uvarint => Sys2Proof.Machine.execUvarint s
  | .putuvarint => Sys2Proof.Machine.execPutuvarint s

end Sys2Proof.Machine
end

