-- ==== Sys2Proof/Machine/HostPort.lean ====
section
/-! DEFINITION. The host's side (R10, R25, R26, R280 to R286): RESET, START, and the host's reads and writes by phase. The
host's moves stand in the state's list `host`; one step takes at most one of them (log entry 6). -/

namespace Sys2Proof.Machine

/-- RESET (R25, R280): the state of R40; the host's coming moves, its read value, the capacities and the counters of the
free values are not part of the core's registers and stay, and the unspecified content of `IN` is a new one (R40). -/
def hostReset (s : State) : State :=
  { State.reset with
    caps := s.caps, host := s.host, rdata := s.rdata, draws := s.draws, epoch := s.epoch + 1 }

/-- The working registers START initialises for the selected unit (R25, R41 to R43). -/
def startUnit (s : State) : State :=
  if s.OP = 0#2 then { s with D := 0, ACC := 0, SH := 0, VI := 0 }
  else if s.OP = 1#2 then { s with W := 0, N := s.IN_LEN.toNat }
  else if s.OP = 2#2 then { s with ACC := 0, SH := 0, VI := 0 }
  else { s with W := 0, PV := s.ARG }

/-- What START clears (R25): the result registers, and every `OUT` cell becomes undefined. -/
def clearResults (s : State) : State :=
  { s with
    PHASE := .run, STATUS := .ok, VSTAT := .ok, VALUE := 0, NBYTES := 0, OUT_LEN := 0, OUT := [], stage := .begin }

/-- START (R25, R31), given that `PHASE` is not RUN. -/
def hostStart (s : State) : Host.Outcome State Fault Refusal :=
  if Capacity.fits s.caps.inCap s.IN_LEN.toNat then .next (startUnit (clearResults s)) else .refused .inCapacity

/-- The host reads a value: it stands in `rdata`. -/
def hostGet {w : Nat} (v : BitVec w) (s : State) : Host.Outcome State Fault Refusal :=
  .next { s with rdata := v.setWidth 64 }

/-- The host writes `IN[i]` (R26, R27). -/
def hostWriteIn (i : Nat) (b : Byte) (s : State) : Host.Outcome State Fault Refusal :=
  if Capacity.fits s.caps.inCap (i + 1) then .next { s with IN := Store.write s.IN i b } else .fault .noSuchInByte

/-- The host reads `IN[i]` (R26, R27). -/
def hostReadIn (i : Nat) (s : State) : Host.Outcome State Fault Refusal :=
  if Capacity.fits s.caps.inCap (i + 1) then hostGet (s.readIn i) s else .fault .noSuchInByte

/-- The host reads `OUT[i]` (R26, R28): a byte of the result below `OUT_LEN`, a draw elsewhere. -/
def hostReadOut (i : Nat) (s : State) : Host.Outcome State Fault Refusal :=
  if Capacity.fits s.caps.outCap (i + 1) then
    let r := if i < s.OUT_LEN.toNat then s.readOut i else s.draw
    hostGet r.1 r.2
  else .fault .noSuchOutCell

/-- A move of the host while `PHASE` is IDLE or DONE (R26). -/
def hostMoveIdle (m : HostMove) (s : State) : Host.Outcome State Fault Refusal :=
  match m with
  | .wait         => .next s
  | .awaitDone    => .next s
  | .reset        => .next (hostReset s)
  | .start        => hostStart s
  | .writeOp v    => .next { s with OP := v }
  | .writeArg v   => .next { s with ARG := v }
  | .writeInLen v => .next { s with IN_LEN := v }
  | .writeIn i b  => hostWriteIn i b s
  | .readPhase    => hostGet s.PHASE.code s
  | .readOp       => hostGet s.OP s
  | .readArg      => hostGet s.ARG s
  | .readInLen    => hostGet s.IN_LEN s
  | .readIn i     => hostReadIn i s
  | .readOutLen   => hostGet s.OUT_LEN s
  | .readStatus   => hostGet s.STATUS.code s
  | .readVstat    => hostGet s.VSTAT.code s
  | .readValue    => hostGet s.VALUE s
  | .readNbytes   => hostGet s.NBYTES s
  | .readOut i    => hostReadOut i s

/-- What the host does in a step that finds `PHASE` = RUN: it leaves the step to the engine, or it acts. -/
inductive RunTurn where
  | engine (s : State)
  | host (o : Host.Outcome State Fault Refusal)
  deriving Repr

/-- A move of the host while `PHASE` = RUN (R26, R286): it may read `PHASE` and RESET; every other access and a START are
refused (U9). Waiting leaves the step to the engine, and polling does so without ending. -/
def hostMoveRun (m : HostMove) (rest : List HostMove) (s : State) : RunTurn :=
  match m with
  | .wait         => .engine { s with host := rest }
  | .awaitDone    => .engine s
  | .reset        => .host (.next (hostReset { s with host := rest }))
  | .readPhase    => .host (hostGet s.PHASE.code { s with host := rest })
  | .start        => .host (.refused .startDuringRun)
  | .writeOp _    => .host (.refused .hostAccessDuringRun)
  | .writeArg _   => .host (.refused .hostAccessDuringRun)
  | .writeInLen _ => .host (.refused .hostAccessDuringRun)
  | .writeIn _ _  => .host (.refused .hostAccessDuringRun)
  | .readOp       => .host (.refused .hostAccessDuringRun)
  | .readArg      => .host (.refused .hostAccessDuringRun)
  | .readInLen    => .host (.refused .hostAccessDuringRun)
  | .readIn _     => .host (.refused .hostAccessDuringRun)
  | .readOutLen   => .host (.refused .hostAccessDuringRun)
  | .readStatus   => .host (.refused .hostAccessDuringRun)
  | .readVstat    => .host (.refused .hostAccessDuringRun)
  | .readValue    => .host (.refused .hostAccessDuringRun)
  | .readNbytes   => .host (.refused .hostAccessDuringRun)
  | .readOut _    => .host (.refused .hostAccessDuringRun)

/-- The host's part of a step that finds `PHASE` = RUN: with no move pending the engine has the step. -/
def hostTurnRun (s : State) : RunTurn :=
  match s.host with
  | [] => .engine s
  | m :: rest => hostMoveRun m rest s

/-- The host's part of a step that finds `PHASE` = IDLE or DONE: with no move pending nothing happens (R262, R285). -/
def hostTurnIdle (s : State) : Host.Outcome State Fault Refusal :=
  match s.host with
  | [] => .next s
  | m :: rest => hostMoveIdle m { s with host := rest }

end Sys2Proof.Machine
end

