-- ==== Sys2Proof/Machine/Engine.lean ====
section
/-! DEFINITION. The engine's step (R10, R25, R150, R196): which instruction is next, what its fetch writes, and how a word
of the opcode table is placed where the next step runs it. -/

namespace Sys2Proof.Machine

/-- Whether the engine's next step is a chunk step (R152: the header step is done and `S < IN_LEN`). -/
def atChunk (s : State) : Bool := decide (s.stage = .chunks) && decide (s.S < s.IN_LEN.toNat)

/-- The instruction of the engine's next step: the chunk at `S` while chunks are left (R152), otherwise the operation under
way (R22, R25): its first step, `DECOMPRESS`'s end step, or `COMPRESS`'s next scan step. -/
def engineInstr (s : State) : Instr :=
  match s.stage with
  | .begin  => decodeOp s.OP
  | .chunks => if atChunk s then chunkAt s else .decompress
  | .scan   => .compress

/-- What the fetch of that instruction writes: the tag parser's registers in a chunk step (R152), nothing otherwise. -/
def engineFetch (s : State) : State := if atChunk s then fetchChunk s else s

/-- One step of the engine. -/
def engineStep (s : State) : Host.Outcome State Fault Refusal := exec (engineInstr s) (engineFetch s)

/-- One step of the machine: the host's move where it makes one, the engine's step while `PHASE` = RUN (R10, R25). -/
def machineStep (s : State) : Host.Outcome State Fault Refusal :=
  match s.PHASE with
  | .run =>
    match hostTurnRun s with
    | .engine s1 => engineStep s1
    | .host o => o
  | .idle => hostTurnIdle s
  | .done => hostTurnIdle s

/-- `s` with the host silent and a host operation begun: the next step is the first step of the operation with code `w`. -/
def placeOp (w : Nat) (s : State) : State :=
  { s with host := [], PHASE := .run, stage := .begin, OP := BitVec.ofNat 2 w }

/-- `s` with the host silent and the bytes of a chunk's fixed part at `S`, in a `DECOMPRESS` whose header step is done;
`IN_LEN` is raised where the bytes would not lie inside the block. -/
def placeChunk (bytes : List Byte) (s : State) : State :=
  { s with
    host := [], PHASE := .run, stage := .chunks, OP := 0
    IN := Store.writeList s.IN s.S bytes
    IN_LEN := if s.S + bytes.length ≤ s.IN_LEN.toNat then s.IN_LEN else BitVec.ofNat 64 (s.S + bytes.length) }

/-- `s` with a word of the opcode table placed where the next step fetches (log entry 8). -/
def placeTableWord (s : State) (nbits w : Nat) : State :=
  if tableWordIsOp nbits w then placeOp w s else placeChunk (tableWordBytes nbits w) s

end Sys2Proof.Machine
end

