-- ==== Sys2Proof/Machine/Listing.lean ====
section
/-! DEFINITION. The listing items of a block and its pseudo-instructions (R109, R110), and the bytes they stand for. The
textual form of an item (quotes, numbers, comments) is not modelled; an item here holds its operands. -/

namespace Sys2Proof.Machine

/-- One item of a listing (R109, R110). -/
inductive ListItem where
  /-- `.len n`: the shortest varint of `n`. -/
  | len (n : Word64)
  /-- `.varint b0 b1 …`: exactly these bytes as the header. -/
  | varint (bytes : List Byte)
  /-- `LIT data`: 1 to 60 bytes. -/
  | lit (data : List Byte)
  /-- `LIT1 data`: 1 to 2^8 bytes. -/
  | lit1 (data : List Byte)
  /-- `LIT2 data`: 1 to 2^16 bytes. -/
  | lit2 (data : List Byte)
  /-- `LIT3 data`: 1 to 2^24 bytes. -/
  | lit3 (data : List Byte)
  /-- `LIT4 data`: 1 to 2^32 bytes. -/
  | lit4 (data : List Byte)
  /-- `LIT4 len=x+1 data`: the length field `x` whatever the data's length. -/
  | lit4Len (x : Word32) (data : List Byte)
  /-- `COPY1 off=o, len=l`: `o` 0 to 2047, `l` 4 to 11. -/
  | copy1 (off len : Nat)
  /-- `COPY2 off=o, len=l`: `o` 0 to 65535, `l` 1 to 64. -/
  | copy2 (off len : Nat)
  /-- `COPY4`: the single byte `0x03`. -/
  | copy4
  /-- `.byte b0 b1 …`: exactly these bytes. -/
  | byte (bytes : List Byte)
  /-- The pseudo-instruction `LITERAL data` (R110). -/
  | literal (data : List Byte)
  /-- The pseudo-instruction `COPY off=o, len=l` with `o >= 1`, `l >= 1` (R110). -/
  | copy (off len : Nat)
  deriving DecidableEq, Repr

/-- The bytes of an item, where its operands are in the range R109 and R110 give. -/
def ListItem.bytes : ListItem → Option (List Byte)
  | .len n => some (putuvarintBytes n)
  | .varint bs => some bs
  | .lit data =>
    if 1 ≤ data.length ∧ data.length ≤ 60 then
      some ((Instr.lit (BitVec.ofNat 6 (data.length - 1))).chunkBytes ++ data)
    else none
  | .lit1 data =>
    if 1 ≤ data.length ∧ data.length ≤ 2 ^ 8 then
      some ((Instr.lit1 (BitVec.ofNat 8 (data.length - 1))).chunkBytes ++ data)
    else none
  | .lit2 data =>
    if 1 ≤ data.length ∧ data.length ≤ 2 ^ 16 then
      some ((Instr.lit2 (BitVec.ofNat 16 (data.length - 1))).chunkBytes ++ data)
    else none
  | .lit3 data =>
    if 1 ≤ data.length ∧ data.length ≤ 2 ^ 24 then
      some ((Instr.lit3 (BitVec.ofNat 24 (data.length - 1))).chunkBytes ++ data)
    else none
  | .lit4 data =>
    if 1 ≤ data.length ∧ data.length ≤ 2 ^ 32 then
      some ((Instr.lit4 (BitVec.ofNat 32 (data.length - 1))).chunkBytes ++ data)
    else none
  | .lit4Len x data => some ((Instr.lit4 x).chunkBytes ++ data)
  | .copy1 off n =>
    if off < 2048 ∧ 4 ≤ n ∧ n ≤ 11 then
      some (Instr.copy1 (BitVec.ofNat 3 (n - 4)) (BitVec.ofNat 11 off)).chunkBytes
    else none
  | .copy2 off n =>
    if off < 65536 ∧ 1 ≤ n ∧ n ≤ 64 then
      some (Instr.copy2 (BitVec.ofNat 6 (n - 1)) (BitVec.ofNat 16 off)).chunkBytes
    else none
  | .copy4 => some (Instr.copy4 0).chunkBytes
  | .byte bs => some bs
  | .literal data =>
    if 1 ≤ data.length ∧ data.length ≤ 2 ^ 32 then some (literalHead (data.length - 1) ++ data) else none
  | .copy off n => if 1 ≤ off ∧ off < 65536 ∧ 1 ≤ n then some (copyBytes off n) else none

/-- Whether an item is a header, which must be the first item of a listing (R109). -/
def ListItem.isHeader : ListItem → Bool
  | .len _       => true
  | .varint _    => true
  | .lit _       => false
  | .lit1 _      => false
  | .lit2 _      => false
  | .lit3 _      => false
  | .lit4 _      => false
  | .lit4Len _ _ => false
  | .copy1 _ _   => false
  | .copy2 _ _   => false
  | .copy4       => false
  | .byte _      => false
  | .literal _   => false
  | .copy _ _    => false

/-- The bytes of items one after another. -/
def itemsBytes : List ListItem → Option (List Byte)
  | [] => some []
  | i :: is =>
    match i.bytes, itemsBytes is with
    | some b, some bs => some (b ++ bs)
    | some _, none => none
    | none, some _ => none
    | none, none => none

/-- The bytes of a listing (R109): no header item after the first. -/
def assemble (items : List ListItem) : Option (List Byte) :=
  if items.tail.all (fun i => !i.isHeader) then itemsBytes items else none

end Sys2Proof.Machine
end

