-- ==== Sys2Proof/Safety.lean ====
section
/-! DEFINITION. The terms the claims use: several steps in a row, what the host sees, what an operation starts from, the
value of a varint's groups, and the invariant of the machine. -/

namespace Sys2Proof.Machine

/-- `n` steps, stopping at the first fault or refusal. -/
def steps : Nat → State → Host.Outcome State Fault Refusal
  | 0, s => .next s
  | n + 1, s =>
    match step s with
    | .next t => steps n t
    | .fault r => .fault r
    | .refused r => .refused r

/-- The host is about to START the operation with code `op`, on a core whose buffers are unbounded, as in the reference
model (R12, R25, R31), and makes no further move. -/
structure AboutToStart (op : BitVec 2) (s : State) : Prop where
  notRunning   : s.PHASE ≠ .run
  host         : s.host = [.start]
  op           : s.OP = op
  inUnbounded  : s.caps.inCap = none
  outUnbounded : s.caps.outCap = none

/-- `IN[0 .. IN_LEN)` holds the bytes `x` (R24). -/
structure HoldsInput (s : State) (x : List Byte) : Prop where
  len   : s.IN_LEN.toNat = x.length
  bytes : ∀ i, i < x.length → some (s.readIn i) = x[i]?

/-- The operation has ended with `STATUS` = OK and `OUT[0 .. OUT_LEN)` holds the bytes `y` (R24, R284). -/
structure EndsWithOutput (s : State) (y : List Byte) : Prop where
  phase  : s.PHASE = .done
  status : s.STATUS = .ok
  len    : s.OUT_LEN.toNat = y.length
  bytes  : ∀ i, i < y.length → Store.read s.OUT i = y[i]?

/-- The operation has ended with an error of this kind (R250): `OUT_LEN` = 0 and every `OUT` cell is undefined. -/
structure EndsWithError (s : State) (k : ErrKind) : Prop where
  phase     : s.PHASE = .done
  status    : s.STATUS = k.status
  outLen    : s.OUT_LEN = 0
  undefined : ∀ a, Store.read s.OUT a = none

/-- What the host can see of the core (R26). -/
structure HostView where
  phase  : Phase
  status : Status
  vstat  : VStat
  value  : Word64
  nbytes : BitVec 4
  outLen : Word64
  out    : List (Option Byte)
  deriving DecidableEq, Repr

/-- The host's view of a state (R26): the result registers and `OUT[0 .. OUT_LEN)`. -/
def State.hostView (s : State) : HostView where
  phase  := s.PHASE
  status := s.STATUS
  vstat  := s.VSTAT
  value  := s.VALUE
  nbytes := s.NBYTES
  outLen := s.OUT_LEN
  out    := (List.range s.OUT_LEN.toNat).map (Store.read s.OUT)

/-- Two outcomes the host cannot tell apart. -/
def SameForHost : Host.Outcome State Fault Refusal → Host.Outcome State Fault Refusal → Prop
  | .next t₁, .next t₂ => t₁.hostView = t₂.hostView
  | .fault r₁, .fault r₂ => r₁ = r₂
  | .refused r₁, .refused r₂ => r₁ = r₂
  | _, _ => False

/-- The value of the varint groups `rd 0`, …, `rd (k − 1)`: `Σ_{i<k} b_i[6:0] << (7·i)` (R92). -/
def groupsValue (rd : Nat → Byte) : Nat → Nat
  | 0 => 0
  | k + 1 => groupsValue rd k + ((rd k).toNat % 128) * 2 ^ (7 * k)

/-- The bytes `rd 0`, …, `rd (k − 1)` are a varint (R92): `k` is 1 to 10, all but the last have the continuation bit, the
last has not, and a tenth byte is 0 or 1. -/
structure IsVarint (rd : Nat → Byte) (k : Nat) : Prop where
  pos   : 1 ≤ k
  short : k ≤ 10
  cont  : ∀ i, i + 1 < k → 128 ≤ (rd i).toNat
  last  : (rd (k - 1)).toNat < 128
  tenth : k = 10 → (rd 9).toNat ≤ 1

/-! ## Effects the claims name -/

/-- What a literal of `n` bytes behind `k` bytes of tag and length field leaves (R159): the payload in `OUT[D .. D + n)`,
both cursors advanced, no other cell and no other register changed but `X` and `LEN`. -/
def LiteralEffect (s t : State) (k n : Nat) : Prop :=
  t = { s with X := BitVec.ofNat 32 (n - 1), LEN := BitVec.ofNat 32 n, S := s.S + k + n, D := s.D + n, OUT := t.OUT } ∧
  ∀ a, Store.read t.OUT a =
    if s.D ≤ a ∧ a < s.D + n then some (s.readIn (s.S + k + (a - s.D))) else Store.read s.OUT a

/-- What a copy of `n` bytes from offset `off >= 1` by a chunk of `k` bytes leaves (R162, R168): byte `j` of the copy is the
byte `OUT[D − off + (j mod off)]` that was defined before the chunk; no other cell changes, and no register but `LEN`,
`OFF`, `S` and `D`. -/
def CopyEffect (s t : State) (k n off : Nat) : Prop :=
  t = { s with LEN := BitVec.ofNat 32 n, OFF := BitVec.ofNat 16 off, S := s.S + k, D := s.D + n, OUT := t.OUT } ∧
  (∀ j, j < n → Store.read t.OUT (s.D + j) = Store.read s.OUT (s.D - off + j % off)) ∧
  ∀ a, a < s.D ∨ s.D + n ≤ a → Store.read t.OUT a = Store.read s.OUT a

/-- What a copy of `n` bytes with offset 0 leaves (R163): `n` drawn bytes, one draw each. -/
def DrawnCopyEffect (s t : State) (k n : Nat) : Prop :=
  t = { s with LEN := BitVec.ofNat 32 n, OFF := 0, S := s.S + k, D := s.D + n, OUT := t.OUT, draws := s.draws + n } ∧
  (∀ j, j < n → Store.read t.OUT (s.D + j) = some (Config.freeByte (s.draws + j))) ∧
  ∀ a, a < s.D ∨ s.D + n ≤ a → Store.read t.OUT a = Store.read s.OUT a

/-- The little-endian word at a position (R64, R197). -/
def wordAt (s : State) (a : Nat) : Nat :=
  (s.readIn a).toNat + (s.readIn (a + 1)).toNat * 2 ^ 8 + (s.readIn (a + 2)).toNat * 2 ^ 16 +
    (s.readIn (a + 3)).toNat * 2 ^ 24

/-- The bucket of the position `CS` (R197). -/
def bucketAt (s : State) : Nat := wordAt s s.CS * 0x1e35a7bd % 2 ^ 32 / 2 ^ s.SHIFT

/-- `len` is the length of the match at the scan cursor with candidate `p` (R199, R202): its bytes are equal, at least four
of them, all inside the input, and it cannot be made longer. -/
structure MatchLength (s : State) (p len : Nat) : Prop where
  min     : Config.minMatch ≤ len
  inside  : s.CS + len ≤ s.N
  equal   : ∀ j, j < len → s.readIn (p + j) = s.readIn (s.CS + j)
  longest : s.CS + len = s.N ∨ s.readIn (p + len) ≠ s.readIn (s.CS + len)

/-- The bytes that flush the pending literal `IN[LIT .. upTo)`: none if it is empty (R201, R204, R224). -/
def pendingBytes (upTo : Nat) (s : State) : List Byte :=
  if s.LIT = upTo then [] else literalHead (upTo - s.LIT - 1) ++ s.inBytes s.LIT (upTo - s.LIT)

/-- The bytes a hit with candidate `p` and match length `len` emits: the pending literal, then `EMIT_COPY` of the distance
and the length (R201, R203, R220). -/
def hitOutput (p len : Nat) (s : State) : List Byte := pendingBytes s.CS s ++ copyBytes (s.CS - p) len

/-! ## The invariant -/

/-- What holds while `DECOMPRESS` is in its chunk steps (R30, R32, R70). -/
structure ChunksInv (s : State) : Prop where
  op      : s.OP = 0#2
  cursor  : s.S ≤ s.IN_LEN.toNat
  written : s.D ≤ s.DLEN.toNat
  limit   : s.DLEN.toNat ≤ Config.maxDecodedLen
  cells   : Store.dense s.OUT s.D
  room    : Capacity.fits s.caps.outCap s.DLEN.toNat = true

/-- What holds at the top of every scan step of `COMPRESS` (R33, R206, R208). -/
structure ScanInv (s : State) : Prop where
  op       : s.OP = 1#2
  input    : s.N = s.IN_LEN.toNat
  long     : Config.shortInputMax < s.N
  limit    : s.N ≤ Config.maxInputLen
  pending  : s.LIT ≤ s.CS
  cursor   : s.CS ≤ s.N
  tsize    : s.TSIZE = (tableSize s.N).1
  shift    : s.SHIFT = (tableSize s.N).2
  cells    : Store.dense s.OUT s.W
  emitted  : s.W ≤ 5 + s.LIT + 5 * (s.LIT / 4)
  earlier  : ∀ i p, i < s.TSIZE → s.readTable i = some p → p.toNat < s.CS

/-- The invariant of the machine: the arrays keep their canonical form, the result registers are as R25, R134 and R250
leave them, and a running operation keeps the ranges of its registers. -/
structure State.Inv (s : State) : Prop where
  inWf     : Memory.wf s.IN
  outWf    : Memory.wf s.OUT
  tableWf  : Memory.wf s.TABLE
  nbytes   : s.NBYTES.toNat ≤ 10
  cleared  : s.PHASE = .run → s.STATUS = .ok ∧ s.VSTAT = .ok ∧ s.VALUE = 0 ∧ s.NBYTES = 0 ∧ s.OUT_LEN = 0
  fits     : s.PHASE = .run → Capacity.fits s.caps.inCap s.IN_LEN.toNat = true
  begun    : s.PHASE = .run → s.stage = .begin → s.OUT = []
  chunks   : s.PHASE = .run → s.stage = .chunks → ChunksInv s
  scan     : s.PHASE = .run → s.stage = .scan → ScanInv s
  result   : s.PHASE ≠ .run → s.STATUS = .ok → Store.dense s.OUT s.OUT_LEN.toNat
  failed   : s.PHASE ≠ .run → s.STATUS ≠ .ok → s.OUT_LEN = 0 ∧ s.OUT = []

end Sys2Proof.Machine
end

