-- ==== Sys2Proof/Certificates/Slice0/Obligations.lean ====
section
/-! DEFINITION. The statements for the provers. Each docstring names the rules of spec/ it formalises, and says where a
clause is the model's own choice. Effects are stated through reads of single cells and through `t = { s with … }`, which
says at once the new values of the registers named and that every other field is unchanged. -/

open Sys2Proof Sys2Proof.Machine

/-! ## Encoding -/

/-- Decoding the code of a well-formed instruction gives it back, with nothing left over, at every operand value (R96, R97,
R99 to R103, R111). -/
def Obligations.DecodeGivesBackEncodedInstruction : Prop :=
  ∀ i : Instr, i.wellFormed = true → decodeCode (encode i) = .ok i []

/-- Whatever the chunk decoder accepts is well-formed and is the code of its instruction: the bytes it took, followed by the
bytes it left, are the bytes it was given (R94, R105). And the code of every well-formed chunk decodes to it whatever bytes
follow, which it leaves (R104). -/
def Obligations.DecodedChunkEncodesBack : Prop :=
  (∀ (bs : List Byte) (i : Instr) (rest : List Byte), decodeChunk bs = .ok i rest →
    i.wellFormed = true ∧ encode i = .chunk i.chunkBytes ∧ i.chunkBytes ++ rest = bs) ∧
  ∀ (i : Instr) (rest : List Byte), i.wellFormed = true → encode i = .chunk i.chunkBytes →
    decodeChunk (i.chunkBytes ++ rest) = .ok i rest

/-- The decode map of R105: the tag byte alone selects the mnemonic, the first matching row of the rule's table; and the tag
bytes of `LIT` are, without a priority order, the union of the rule's four mask and match pairs. -/
def Obligations.TagByteSelectsMnemonicByTable : Prop :=
  (∀ b b1 b2 b3 b4 : Byte, (decodeWindow b b1 b2 b3 b4).mnemonic =
    if b &&& 0x03#8 = 0x01#8 then "COPY1"
    else if b &&& 0x03#8 = 0x02#8 then "COPY2"
    else if b &&& 0x03#8 = 0x03#8 then "COPY4"
    else if b &&& 0xff#8 = 0xf0#8 then "LIT1"
    else if b &&& 0xff#8 = 0xf4#8 then "LIT2"
    else if b &&& 0xff#8 = 0xf8#8 then "LIT3"
    else if b &&& 0xff#8 = 0xfc#8 then "LIT4"
    else "LIT") ∧
  ∀ b b1 b2 b3 b4 : Byte, (decodeWindow b b1 b2 b3 b4).mnemonic = "LIT" ↔
    (b &&& 0x83#8 = 0x00#8 ∨ b &&& 0xc3#8 = 0x80#8 ∨ b &&& 0xe3#8 = 0xc0#8 ∨ b &&& 0xf3#8 = 0xe0#8)

/-- Words written out from the formats of spec/30_encoding.md and the worked examples of R153 to R164 decode to the
instruction they stand for. -/
def Obligations.WorkedEncodingsDecode : Prop :=
  decodeChunk [0x10, 0x68] = .ok (.lit 4) [0x68] ∧
  decodeChunk [0xf0, 0x3c] = .ok (.lit1 60) [] ∧
  decodeChunk [0xf4, 0x2b, 0x01] = .ok (.lit2 299) [] ∧
  decodeChunk [0xf8, 0x00, 0x00, 0x01] = .ok (.lit3 65536) [] ∧
  decodeChunk [0xfc, 0x00, 0x00, 0x00, 0x01] = .ok (.lit4 0x01000000) [] ∧
  decodeChunk [0x19, 0x01] = .ok (.copy1 6 1) [] ∧
  decodeChunk [0xfd, 0xff] = .ok (.copy1 7 2047) [] ∧
  decodeChunk [0x3e, 0x08, 0x00] = .ok (.copy2 15 8) [] ∧
  decodeChunk [0x03] = .ok (.copy4 0) [] ∧
  decodeOp 0 = .decompress ∧ decodeOp 1 = .compress ∧ decodeOp 2 = .uvarint ∧ decodeOp 3 = .putuvarint

/-- The chunk items of a listing (R109). An item whose operands are in the range R109 gives has bytes; that it has none
outside that range is the model's choice (log entry 28). The bytes decode to the instruction the item names: a literal of the
data's length with the data behind its fixed part, a `LIT4` with an explicit field whatever the data's length, and a copy
with the offset and length written. -/
def Obligations.ListedChunksDecode : Prop :=
  (∀ data : List Byte,
    ((ListItem.lit data).bytes.isSome = true ↔ 1 ≤ data.length ∧ data.length ≤ 60) ∧
    ((ListItem.lit1 data).bytes.isSome = true ↔ 1 ≤ data.length ∧ data.length ≤ 256) ∧
    ((ListItem.lit2 data).bytes.isSome = true ↔ 1 ≤ data.length ∧ data.length ≤ 65536) ∧
    ((ListItem.lit3 data).bytes.isSome = true ↔ 1 ≤ data.length ∧ data.length ≤ 16777216) ∧
    ((ListItem.lit4 data).bytes.isSome = true ↔ 1 ≤ data.length ∧ data.length ≤ 4294967296)) ∧
  (∀ off len : Nat,
    ((ListItem.copy1 off len).bytes.isSome = true ↔ off ≤ 2047 ∧ 4 ≤ len ∧ len ≤ 11) ∧
    ((ListItem.copy2 off len).bytes.isSome = true ↔ off ≤ 65535 ∧ 1 ≤ len ∧ len ≤ 64)) ∧
  (∀ (x : Word32) (data : List Byte), ∃ bs, (ListItem.lit4Len x data).bytes = some bs ∧
    decodeChunk bs = .ok (.lit4 x) data) ∧
  (∀ data bs : List Byte,
    ((ListItem.lit data).bytes = some bs → ∃ m, decodeChunk bs = .ok (.lit m) data ∧ m.toNat + 1 = data.length) ∧
    ((ListItem.lit1 data).bytes = some bs → ∃ x, decodeChunk bs = .ok (.lit1 x) data ∧ x.toNat + 1 = data.length) ∧
    ((ListItem.lit2 data).bytes = some bs → ∃ x, decodeChunk bs = .ok (.lit2 x) data ∧ x.toNat + 1 = data.length) ∧
    ((ListItem.lit3 data).bytes = some bs → ∃ x, decodeChunk bs = .ok (.lit3 x) data ∧ x.toNat + 1 = data.length) ∧
    ((ListItem.lit4 data).bytes = some bs → ∃ x, decodeChunk bs = .ok (.lit4 x) data ∧ x.toNat + 1 = data.length)) ∧
  (∀ (off len : Nat) (bs : List Byte),
    ((ListItem.copy1 off len).bytes = some bs →
      ∃ l o, decodeChunk bs = .ok (.copy1 l o) [] ∧ 4 + l.toNat = len ∧ o.toNat = off) ∧
    ((ListItem.copy2 off len).bytes = some bs →
      ∃ m o, decodeChunk bs = .ok (.copy2 m o) [] ∧ 1 + m.toNat = len ∧ o.toNat = off)) ∧
  ∃ m, ListItem.copy4.bytes = some [0x03#8] ∧ decodeChunk [0x03#8] = .ok (.copy4 m) []

/-! ## The step -/

/-- A step of a running core whose host is silent runs the instruction that is next. In the chunk stream that is the chunk
the rest of the block decodes to, after the fetch has written `B`, `TAG` and `M` (R152), and Corrupt is raised where the
rest of the block lacks length or offset bytes of its chunk; either way it is one step of `DECOMPRESS`, as is the end step
at the end of the stream (R165). Before the first step of an operation it is the operation `OP` selects (R22); during a
scan it is `COMPRESS` (R196). -/
def Obligations.StepRunsDecodedInstruction : Prop :=
  ∀ s : State, s.PHASE = .run → s.host = [] →
    (s.stage = .chunks → s.S < s.IN_LEN.toNat →
      let f := { s with B := s.readIn s.S, TAG := (s.readIn s.S).extractLsb' 0 2, M := (s.readIn s.S).extractLsb' 2 6 }
      (∀ i rest, decodeChunk (s.inBytes s.S (s.IN_LEN.toNat - s.S)) = .ok i rest → step s = exec i f) ∧
      (∀ e, decodeChunk (s.inBytes s.S (s.IN_LEN.toNat - s.S)) = .reject e → step s = .next (raise .corrupt f))) ∧
    (s.stage = .chunks → step s = exec .decompress s) ∧
    (s.stage = .begin → step s = exec (decodeOp s.OP) s) ∧
    (s.stage = .scan → step s = exec .compress s)

/-! ## Reset, START and the host -/

/-- RESET (R40, R280): from any state, also during RUN, a RESET leads to IDLE with every host register 0, every `OUT` cell
undefined and every byte of `IN` unspecified; the same holds of the state after power-on, from which the engine does
nothing until the host acts. That the working registers and `TABLE`, which R40 leaves unspecified, are 0 and absent is the
model's choice (log entry 7) and not claimed here; the free value standing for an unspecified `IN` byte is the model's
(log entry 2). -/
def Obligations.ResetLeavesHostRegistersZero : Prop :=
  (∀ s rest, s.host = .reset :: rest → ∃ t, step s = .next t ∧
    t.PHASE = .idle ∧ t.OP = 0 ∧ t.ARG = 0 ∧ t.IN_LEN = 0 ∧ t.OUT_LEN = 0 ∧ t.STATUS = .ok ∧ t.VSTAT = .ok ∧
    t.VALUE = 0 ∧ t.NBYTES = 0 ∧ (∀ a, Store.read t.OUT a = none) ∧
    (∀ a, t.readIn a = Config.unwrittenIn (s.epoch + 1) a) ∧ t.host = rest ∧ t.caps = s.caps) ∧
  (State.reset.PHASE = .idle ∧ State.reset.OP = 0 ∧ State.reset.ARG = 0 ∧ State.reset.IN_LEN = 0 ∧
    State.reset.OUT_LEN = 0 ∧ State.reset.STATUS = .ok ∧ State.reset.VSTAT = .ok ∧ State.reset.VALUE = 0 ∧
    State.reset.NBYTES = 0 ∧ ∀ a, Store.read State.reset.OUT a = none) ∧
  (∀ s : State, s.PHASE ≠ .run → s.host = [] → step s = .next s)

/-- START (R25, R31): in IDLE or DONE, with `IN_LEN <= IN_CAP`, it sets RUN, clears the result registers, makes every `OUT`
cell undefined and leaves the inputs alone; with `IN_LEN > IN_CAP`, or during RUN, the model refuses it (log entries 20 and
30). The last four clauses: of the start values of R41 to R43 it sets `D`, `ACC`, `SH`, `VI`, `W`, `N` and `PV`. The others
are left to the operation's first step, as R281 and R287 allow and log entry 4 chooses: `DLEN` and `S` to the header step,
and `CS`, `LIT` and the absent entries of `TABLE`, which START leaves unchanged here, to the first step of `COMPRESS`
(stated by CompressStartsScan). -/
def Obligations.StartClearsResultsAndRuns : Prop :=
  ∀ (s : State) (rest : List HostMove), s.host = .start :: rest →
    (s.PHASE = .run → step s = .refused .startDuringRun) ∧
    (s.PHASE ≠ .run → (∃ c, s.caps.inCap = some c ∧ c < s.IN_LEN.toNat) → step s = .refused .inCapacity) ∧
    (s.PHASE ≠ .run → (∀ c, s.caps.inCap = some c → s.IN_LEN.toNat ≤ c) → ∃ t, step s = .next t ∧
      t.PHASE = .run ∧ t.STATUS = .ok ∧ t.VSTAT = .ok ∧ t.VALUE = 0 ∧ t.NBYTES = 0 ∧ t.OUT_LEN = 0 ∧
      (∀ a, Store.read t.OUT a = none) ∧ t.stage = .begin ∧ t.host = rest ∧
      t.OP = s.OP ∧ t.ARG = s.ARG ∧ t.IN_LEN = s.IN_LEN ∧ t.IN = s.IN ∧ t.TABLE = s.TABLE ∧
      (s.OP = 0 → t.D = 0 ∧ t.ACC = 0 ∧ t.SH = 0 ∧ t.VI = 0) ∧
      (s.OP = 1 → t.W = 0 ∧ t.N = s.IN_LEN.toNat) ∧
      (s.OP = 2 → t.ACC = 0 ∧ t.SH = 0 ∧ t.VI = 0) ∧
      (s.OP = 3 → t.W = 0 ∧ t.PV = s.ARG))

/-- While `PHASE` = RUN the host has no move except reading `PHASE` and RESET (R286, R25, R26): reading `PHASE` gives 1
(R21), and a RESET abandons the operation (R280). That a PHASE read takes the whole step, so that the engine stays where it
was, is the model's choice (log entry 6); so is that every other access and a START are refused (log entry 30). -/
def Obligations.HostHasNoMoveDuringRun : Prop :=
  ∀ (s : State) (m : HostMove) (rest : List HostMove), s.PHASE = .run → s.host = m :: rest →
    (m = .readPhase → step s = .next { s with host := rest, rdata := 1 }) ∧
    (m = .reset → ∃ t, step s = .next t ∧ t.PHASE = .idle ∧ t.STATUS = .ok ∧ t.OUT_LEN = 0) ∧
    (m = .start → step s = .refused .startDuringRun) ∧
    (m ≠ .wait → m ≠ .awaitDone → m ≠ .reset → m ≠ .readPhase → m ≠ .start → step s = .refused .hostAccessDuringRun)

/-- Host reads and writes outside RUN (R26): a byte of `OUT` below `OUT_LEN` is read as it stands, a read at or above
`OUT_LEN` returns a drawn byte, a written byte of `IN` is read back and no other byte of `IN` changes, and a write of `OP`,
`ARG` or `IN_LEN` changes that register only. -/
def Obligations.HostAccessOutsideRun : Prop :=
  ∀ (s : State) (m : HostMove) (rest : List HostMove), s.PHASE ≠ .run → s.host = m :: rest →
    s.caps.inCap = none → s.caps.outCap = none →
    (∀ i (b : Byte), m = .readOut i → i < s.OUT_LEN.toNat → Store.read s.OUT i = some b →
      step s = .next { s with host := rest, rdata := b.zext64 }) ∧
    (∀ i, m = .readOut i → s.OUT_LEN.toNat ≤ i →
      step s = .next { s with host := rest, rdata := (Config.freeByte s.draws).zext64, draws := s.draws + 1 }) ∧
    (∀ i b, m = .writeIn i b → ∃ t, step s = .next t ∧ t = { s with host := rest, IN := t.IN } ∧
      t.readIn i = b ∧ ∀ j, j ≠ i → t.readIn j = s.readIn j) ∧
    (∀ i, m = .readIn i → step s = .next { s with host := rest, rdata := (s.readIn i).zext64 }) ∧
    (∀ v, m = .writeOp v → step s = .next { s with host := rest, OP := v }) ∧
    (∀ v, m = .writeArg v → step s = .next { s with host := rest, ARG := v }) ∧
    (∀ v, m = .writeInLen v → step s = .next { s with host := rest, IN_LEN := v })

/-- What the host reads of the result registers outside RUN: the codes of R21 and R23. -/
def Obligations.HostReadsResultCodes : Prop :=
  ∀ (s : State) (m : HostMove) (rest : List HostMove), s.PHASE ≠ .run → s.host = m :: rest →
    (m = .readStatus → ∃ t, step s = .next t ∧ t = { s with host := rest, rdata := t.rdata } ∧
      (s.STATUS = .ok → t.rdata = 0) ∧ (s.STATUS = .corrupt → t.rdata = 1) ∧ (s.STATUS = .tooLarge → t.rdata = 2) ∧
      (s.STATUS = .unsupported → t.rdata = 3) ∧ (s.STATUS = .invalidInput → t.rdata = 4)) ∧
    (m = .readVstat → ∃ t, step s = .next t ∧ t = { s with host := rest, rdata := t.rdata } ∧
      (s.VSTAT = .ok → t.rdata = 0) ∧ (s.VSTAT = .trunc → t.rdata = 1) ∧ (s.VSTAT = .ovf → t.rdata = 2)) ∧
    (m = .readPhase → ∃ t, step s = .next t ∧ t = { s with host := rest, rdata := t.rdata } ∧
      (s.PHASE = .idle → t.rdata = 0) ∧ (s.PHASE = .done → t.rdata = 2)) ∧
    (m = .readOutLen → step s = .next { s with host := rest, rdata := s.OUT_LEN }) ∧
    (m = .readValue → step s = .next { s with host := rest, rdata := s.VALUE }) ∧
    (m = .readNbytes → ∃ t, step s = .next t ∧ t = { s with host := rest, rdata := t.rdata } ∧
      t.rdata.toNat = s.NBYTES.toNat) ∧
    (m = .readOp → ∃ t, step s = .next t ∧ t = { s with host := rest, rdata := t.rdata } ∧
      t.rdata.toNat = s.OP.toNat) ∧
    (m = .readArg → step s = .next { s with host := rest, rdata := s.ARG }) ∧
    (m = .readInLen → step s = .next { s with host := rest, rdata := s.IN_LEN })

/-- The capacities limit what the host can reach (R12, R27, R28, R31, R60): a bounded `IN_CAP` is 1 to `2^64 − 1`, an index
at or above `IN_CAP` or `OUT_CAP` does not exist, and an access to it is a fault of the model. That it is a fault and not
another stop is the model's choice (log entry 9). -/
def Obligations.IndexBeyondCapacityFaults : Prop :=
  (∀ (s : State) (c : Nat), s.caps.inCap = some c → 1 ≤ c ∧ c ≤ 0xffffffffffffffff) ∧
  ∀ (s : State) (m : HostMove) (rest : List HostMove) (c i : Nat), s.PHASE ≠ .run → s.host = m :: rest → c ≤ i →
    (s.caps.inCap = some c → (m = .readIn i ∨ ∃ b, m = .writeIn i b) → step s = .fault .noSuchInByte) ∧
    (s.caps.outCap = some c → m = .readOut i → step s = .fault .noSuchOutCell)

/-- Where an operation needs more than `OUT_CAP` bytes the model refuses it (R31): a header that declares more; a varint
that is longer; and a step of `COMPRESS` whose bytes pass `OUT_CAP`, be they the header's or a short input's in the first
step, a hit's in a scan step, or the last literal's in the final flush. Last clause: no step of `COMPRESS` that starts within
`OUT_CAP` ends beyond it. -/
def Obligations.OutputBeyondCapacityIsRefused : Prop :=
  ∀ (s : State) (c : Nat), s.caps.outCap = some c →
    (∀ k, s.stage = .begin → IsVarint s.readIn k → k ≤ s.IN_LEN.toNat → groupsValue s.readIn k ≤ 0x7fffffff →
      c < groupsValue s.readIn k → exec .decompress s = .refused .outCapacity) ∧
    (c = 0 ∨ 2 ^ (7 * c) ≤ s.ARG.toNat → exec .putuvarint s = .refused .outCapacity) ∧
    (s.stage = .begin → s.IN_LEN.toNat ≤ 0xffffffff →
      c = 0 ∨ 2 ^ (7 * c) ≤ s.IN_LEN.toNat ∨
        (1 ≤ s.IN_LEN.toNat ∧ s.IN_LEN.toNat ≤ 4 ∧ c < s.IN_LEN.toNat + 2) →
      exec .compress s = .refused .outCapacity) ∧
    (∀ (p : Word32) (len : Nat), s.stage = .scan → s.CS + 3 < s.N → s.N ≤ 0xffffffff → 18 ≤ s.SHIFT →
      s.readTable (bucketAt s) = some p → p.toNat < s.CS → s.CS - p.toNat < 32768 → MatchLength s p.toNat len →
      c < s.W + (hitOutput p.toNat len s).length → exec .compress s = .refused .outCapacity) ∧
    (s.stage = .scan → s.N ≤ s.CS + 3 → s.LIT < s.N → s.N ≤ 0xffffffff → c < s.W + (pendingBytes s.N s).length →
      exec .compress s = .refused .outCapacity) ∧
    (∀ t, s.W ≤ c → exec .compress s = .next t → t.W ≤ c)

/-! ## The Varint Codec -/

/-- `UVARINT` on a varint of `k` bytes (R92, R131, R134, R139): it completes with the value `Σ b_i[6:0] << 7·i` and the
count `k`, whatever follows the terminating byte. -/
def Obligations.UvarintDecodesVarint : Prop :=
  ∀ (s : State) (k : Nat), IsVarint s.readIn k → k ≤ s.IN_LEN.toNat →
    ∃ t, exec .uvarint s = .next t ∧
      t.VALUE.toNat = groupsValue s.readIn k ∧ t.NBYTES.toNat = k ∧
      t = { s with VALUE := t.VALUE, NBYTES := t.NBYTES, VSTAT := .ok, STATUS := .ok, OUT_LEN := 0, PHASE := .done,
                   ACC := t.ACC, SH := t.SH, VI := t.VI }

/-- `UVARINT` on an input that ends before a terminating byte, the empty one included (R132, R134, R139): Corrupt, TRUNC,
value and count 0. -/
def Obligations.UvarintTruncatedIsTrunc : Prop :=
  ∀ s : State, s.IN_LEN.toNat ≤ 10 → (∀ i, i < s.IN_LEN.toNat → 128 ≤ (s.readIn i).toNat) →
    ∃ t, exec .uvarint s = .next t ∧ EndsWithError t .corrupt ∧ t.VSTAT = .trunc ∧ t.VALUE = 0 ∧ t.NBYTES = 0 ∧
      t = { s with VALUE := 0, NBYTES := 0, VSTAT := .trunc, STATUS := .corrupt, OUT_LEN := 0, OUT := [], PHASE := .done,
                   ACC := t.ACC, SH := t.SH, VI := t.VI }

/-- `UVARINT` when an eleventh byte is read, or the tenth byte terminates with a value above 1 (R133, R134, R139): Corrupt,
OVF, value and count 0. -/
def Obligations.UvarintOverflowIsOvf : Prop :=
  ∀ s : State, (∀ i, i < 9 → 128 ≤ (s.readIn i).toNat) →
    ((11 ≤ s.IN_LEN.toNat ∧ 128 ≤ (s.readIn 9).toNat) ∨
      (10 ≤ s.IN_LEN.toNat ∧ 2 ≤ (s.readIn 9).toNat ∧ (s.readIn 9).toNat ≤ 0x7f)) →
    ∃ t, exec .uvarint s = .next t ∧ EndsWithError t .corrupt ∧ t.VSTAT = .ovf ∧ t.VALUE = 0 ∧ t.NBYTES = 0 ∧
      t = { s with VALUE := 0, NBYTES := 0, VSTAT := .ovf, STATUS := .corrupt, OUT_LEN := 0, OUT := [], PHASE := .done,
                   ACC := t.ACC, SH := t.SH, VI := t.VI }

/-- `PUTUVARINT` (R93, R136, R139): for the shortest length `k` that holds `ARG`, and with room for `k` bytes (R31), it
completes with `OUT[0 .. OUT_LEN)` the varint of `ARG` in `k` bytes; no other cell of `OUT` changes. -/
def Obligations.PutuvarintEmitsShortestVarint : Prop :=
  ∀ s : State, ∃ k, 1 ≤ k ∧ k ≤ 10 ∧ (k = 1 ∨ 2 ^ (7 * (k - 1)) ≤ s.ARG.toNat) ∧ s.ARG.toNat < 2 ^ (7 * k) ∧
    (Capacity.fits s.caps.outCap k = true →
      ∃ t, exec .putuvarint s = .next t ∧ t.OUT_LEN.toNat = k ∧
        (∃ rd : Nat → Byte, IsVarint rd k ∧ groupsValue rd k = s.ARG.toNat ∧
          ∀ i, i < k → Store.read t.OUT i = some (rd i)) ∧
        (∀ a, k ≤ a → Store.read t.OUT a = Store.read s.OUT a) ∧
        t = { s with W := k, PV := t.PV, OUT := t.OUT, OUT_LEN := t.OUT_LEN, STATUS := .ok, PHASE := .done })

/-- The laws of R138. What `PUTUVARINT` emits, followed by anything, `UVARINT` decodes to the value and the count; and for
whatever `UVARINT` accepts, `PUTUVARINT` of the value emits at most as many bytes, and as many exactly if the input was
what it emits. -/
def Obligations.VarintRoundTrip : Prop :=
  (∀ s t u : State, exec .putuvarint s = .next t → t.OUT_LEN.toNat ≤ u.IN_LEN.toNat →
    (∀ i, i < t.OUT_LEN.toNat → Store.read t.OUT i = some (u.readIn i)) →
    ∃ w, exec .uvarint u = .next w ∧ w.STATUS = .ok ∧ w.VALUE = s.ARG ∧ w.NBYTES.toNat = t.OUT_LEN.toNat) ∧
  (∀ u w s t : State, exec .uvarint u = .next w → w.STATUS = .ok → s.ARG = w.VALUE → exec .putuvarint s = .next t →
    t.OUT_LEN.toNat ≤ w.NBYTES.toNat ∧
    (t.OUT_LEN.toNat = w.NBYTES.toNat ↔ ∀ i, i < w.NBYTES.toNat → Store.read t.OUT i = some (u.readIn i)))

/-! ## The Decompressor -/

/-- The header step (R151): on a varint of at most `0x7fffffff` it completes with `DLEN` its value, `D` = 0, `S` the
header's length and all of `OUT` undefined; a truncated or overflowing varint is Corrupt, with `VSTAT` set, and a larger
value is TooLarge; an accepted value above `OUT_CAP` is refused by the model (R31). -/
def Obligations.HeaderStepAcceptsOrRejects : Prop :=
  ∀ s : State, s.stage = .begin →
    (∀ k, IsVarint s.readIn k → k ≤ s.IN_LEN.toNat → groupsValue s.readIn k ≤ 0x7fffffff →
      Capacity.fits s.caps.outCap (groupsValue s.readIn k) = true →
      ∃ t, exec .decompress s = .next t ∧ t.DLEN.toNat = groupsValue s.readIn k ∧
        (∀ a, Store.read t.OUT a = none) ∧
        t = { s with DLEN := t.DLEN, D := 0, S := k, OUT := t.OUT, VSTAT := .ok, stage := .chunks,
                     ACC := t.ACC, SH := t.SH, VI := t.VI }) ∧
    (∀ k, IsVarint s.readIn k → k ≤ s.IN_LEN.toNat → groupsValue s.readIn k ≤ 0x7fffffff →
      Capacity.fits s.caps.outCap (groupsValue s.readIn k) = false → exec .decompress s = .refused .outCapacity) ∧
    (∀ k, IsVarint s.readIn k → k ≤ s.IN_LEN.toNat → 0x7fffffff < groupsValue s.readIn k →
      ∃ t, exec .decompress s = .next t ∧ EndsWithError t .tooLarge ∧ t.VSTAT = .ok) ∧
    (s.IN_LEN.toNat ≤ 10 → (∀ i, i < s.IN_LEN.toNat → 128 ≤ (s.readIn i).toNat) →
      ∃ t, exec .decompress s = .next t ∧ EndsWithError t .corrupt ∧ t.VSTAT = .trunc) ∧
    ((∀ i, i < 9 → 128 ≤ (s.readIn i).toNat) →
      ((11 ≤ s.IN_LEN.toNat ∧ 128 ≤ (s.readIn 9).toNat) ∨
        (10 ≤ s.IN_LEN.toNat ∧ 2 ≤ (s.readIn 9).toNat ∧ (s.readIn 9).toNat ≤ 0x7f)) →
      ∃ t, exec .decompress s = .next t ∧ EndsWithError t .corrupt ∧ t.VSTAT = .ovf)

/-- The literal chunks complete (R153 to R159): for `LIT`, `LIT1`, `LIT2`, `LIT3` and `LIT4` with length field `x`, when the
`x + 1` payload bytes lie in the block, the output has room for them and `x + 1` is at most `0x7fffffff`, the next state is
that of the literal of `x + 1` bytes. -/
def Obligations.LiteralsMovePayload : Prop :=
  ∀ s : State,
    (∀ m : BitVec 6, s.S + 1 + (m.toNat + 1) ≤ s.IN_LEN.toNat → s.D + (m.toNat + 1) ≤ s.DLEN.toNat →
      ∃ t, exec (.lit m) s = .next t ∧ LiteralEffect s t 1 (m.toNat + 1)) ∧
    (∀ x : BitVec 8, s.S + 2 + (x.toNat + 1) ≤ s.IN_LEN.toNat → s.D + (x.toNat + 1) ≤ s.DLEN.toNat →
      ∃ t, exec (.lit1 x) s = .next t ∧ LiteralEffect s t 2 (x.toNat + 1)) ∧
    (∀ x : BitVec 16, s.S + 3 + (x.toNat + 1) ≤ s.IN_LEN.toNat → s.D + (x.toNat + 1) ≤ s.DLEN.toNat →
      ∃ t, exec (.lit2 x) s = .next t ∧ LiteralEffect s t 3 (x.toNat + 1)) ∧
    (∀ x : BitVec 24, s.S + 4 + (x.toNat + 1) ≤ s.IN_LEN.toNat → s.D + (x.toNat + 1) ≤ s.DLEN.toNat →
      ∃ t, exec (.lit3 x) s = .next t ∧ LiteralEffect s t 4 (x.toNat + 1)) ∧
    (∀ x : BitVec 32, x.toNat < 0x7fffffff → s.S + 5 + (x.toNat + 1) ≤ s.IN_LEN.toNat →
      s.D + (x.toNat + 1) ≤ s.DLEN.toNat → ∃ t, exec (.lit4 x) s = .next t ∧ LiteralEffect s t 5 (x.toNat + 1))

/-- The errors of the literal chunks in the order of R248: missing length bytes are Corrupt before anything else; then, for
`LIT4` only, a field of `0x7fffffff` or more is Unsupported whatever the bounds; then no room or a truncated payload is
Corrupt. -/
def Obligations.LiteralErrorsInOrder : Prop :=
  ∀ s : State,
    (∀ x : BitVec 8, s.IN_LEN.toNat < s.S + 2 → ∃ t, exec (.lit1 x) s = .next t ∧ EndsWithError t .corrupt) ∧
    (∀ x : BitVec 16, s.IN_LEN.toNat < s.S + 3 → ∃ t, exec (.lit2 x) s = .next t ∧ EndsWithError t .corrupt) ∧
    (∀ x : BitVec 24, s.IN_LEN.toNat < s.S + 4 → ∃ t, exec (.lit3 x) s = .next t ∧ EndsWithError t .corrupt) ∧
    (∀ x : BitVec 32, s.IN_LEN.toNat < s.S + 5 → ∃ t, exec (.lit4 x) s = .next t ∧ EndsWithError t .corrupt) ∧
    (∀ x : BitVec 32, s.S + 5 ≤ s.IN_LEN.toNat → 0x7fffffff ≤ x.toNat →
      ∃ t, exec (.lit4 x) s = .next t ∧ EndsWithError t .unsupported) ∧
    (∀ m : BitVec 6, s.DLEN.toNat < s.D + (m.toNat + 1) ∨ s.IN_LEN.toNat < s.S + 1 + (m.toNat + 1) →
      ∃ t, exec (.lit m) s = .next t ∧ EndsWithError t .corrupt) ∧
    (∀ x : BitVec 8, s.DLEN.toNat < s.D + (x.toNat + 1) ∨ s.IN_LEN.toNat < s.S + 2 + (x.toNat + 1) →
      ∃ t, exec (.lit1 x) s = .next t ∧ EndsWithError t .corrupt) ∧
    (∀ x : BitVec 16, s.DLEN.toNat < s.D + (x.toNat + 1) ∨ s.IN_LEN.toNat < s.S + 3 + (x.toNat + 1) →
      ∃ t, exec (.lit2 x) s = .next t ∧ EndsWithError t .corrupt) ∧
    (∀ x : BitVec 24, s.DLEN.toNat < s.D + (x.toNat + 1) ∨ s.IN_LEN.toNat < s.S + 4 + (x.toNat + 1) →
      ∃ t, exec (.lit3 x) s = .next t ∧ EndsWithError t .corrupt) ∧
    (∀ x : BitVec 32, x.toNat < 0x7fffffff →
      s.DLEN.toNat < s.D + (x.toNat + 1) ∨ s.IN_LEN.toNat < s.S + 5 + (x.toNat + 1) →
      ∃ t, exec (.lit4 x) s = .next t ∧ EndsWithError t .corrupt)

/-- The copy chunks complete (R160, R161, R162, R168), overlapping or not: with the offset bytes in the block,
`1 <= OFF <= D`, room for `LEN` bytes, and the source cells written before (the invariant `ChunksInv.cells` says that all
cells below `D` are), the next state is that of the repeating copy. -/
def Obligations.CopiesRepeatPattern : Prop :=
  ∀ s : State,
    (∀ (l : BitVec 3) (off : BitVec 11), s.S + 2 ≤ s.IN_LEN.toNat → 1 ≤ off.toNat → off.toNat ≤ s.D →
      s.D + (4 + l.toNat) ≤ s.DLEN.toNat →
      (∀ a, s.D - off.toNat ≤ a → a < s.D → ∃ b, Store.read s.OUT a = some b) →
      ∃ t, exec (.copy1 l off) s = .next t ∧ CopyEffect s t 2 (4 + l.toNat) off.toNat) ∧
    (∀ (m : BitVec 6) (off : BitVec 16), s.S + 3 ≤ s.IN_LEN.toNat → 1 ≤ off.toNat → off.toNat ≤ s.D →
      s.D + (1 + m.toNat) ≤ s.DLEN.toNat →
      (∀ a, s.D - off.toNat ≤ a → a < s.D → ∃ b, Store.read s.OUT a = some b) →
      ∃ t, exec (.copy2 m off) s = .next t ∧ CopyEffect s t 3 (1 + m.toNat) off.toNat)

/-- A copy with `OFF` = 0 passes the check and writes `LEN` bytes of unspecified value, a fresh draw each (R163); the cells
at and above `D` are undefined before it, as the invariant `ChunksInv.cells` says. That it completes and does not end in
Corrupt is the one of the two treatments U1 allows that R163 and the model take (log entry 14, DESIGN CHOICE); that a draw is
`Config.freeByte` at the counter `draws` is the model's form of the free value (log entry 1). -/
def Obligations.OffsetZeroCopyDraws : Prop :=
  ∀ s : State, (∀ a, s.D ≤ a → Store.read s.OUT a = none) →
    (∀ l : BitVec 3, s.S + 2 ≤ s.IN_LEN.toNat → s.D + (4 + l.toNat) ≤ s.DLEN.toNat →
      ∃ t, exec (.copy1 l 0) s = .next t ∧ DrawnCopyEffect s t 2 (4 + l.toNat)) ∧
    (∀ m : BitVec 6, s.S + 3 ≤ s.IN_LEN.toNat → s.D + (1 + m.toNat) ≤ s.DLEN.toNat →
      ∃ t, exec (.copy2 m 0) s = .next t ∧ DrawnCopyEffect s t 3 (1 + m.toNat))

/-- The errors of the copy chunks (R160 to R162, R248): a missing offset byte, an offset beyond the output produced, and no
room are each Corrupt. -/
def Obligations.CopyErrorsAreCorrupt : Prop :=
  ∀ s : State,
    (∀ (l : BitVec 3) (off : BitVec 11),
      s.IN_LEN.toNat < s.S + 2 ∨ s.D < off.toNat ∨ s.DLEN.toNat < s.D + (4 + l.toNat) →
      ∃ t, exec (.copy1 l off) s = .next t ∧ EndsWithError t .corrupt) ∧
    (∀ (m : BitVec 6) (off : BitVec 16),
      s.IN_LEN.toNat < s.S + 3 ∨ s.D < off.toNat ∨ s.DLEN.toNat < s.D + (1 + m.toNat) →
      ∃ t, exec (.copy2 m off) s = .next t ∧ EndsWithError t .corrupt)

/-- `COPY4` (R164): a chunk step that finds a tag byte with `B[1:0]` = 11 raises Unsupported, whatever follows the tag byte
and whatever `D` and `DLEN` are; apart from that and the fetch's registers nothing changes. -/
def Obligations.TagThreeIsUnsupported : Prop :=
  (∀ (m : BitVec 6) (s : State), ∃ t, exec (.copy4 m) s = .next t ∧ EndsWithError t .unsupported ∧
    t = { s with STATUS := .unsupported, OUT_LEN := 0, OUT := [], PHASE := .done }) ∧
  (∀ s : State, s.PHASE = .run → s.host = [] → s.stage = .chunks → s.S < s.IN_LEN.toNat →
    (s.readIn s.S).toNat % 4 = 3 →
    ∃ t, step s = .next t ∧ EndsWithError t .unsupported ∧
      t = { s with STATUS := .unsupported, OUT_LEN := 0, OUT := [], PHASE := .done, B := t.B, TAG := t.TAG, M := t.M })

/-- The end step (R165): at `S` = `IN_LEN` the operation succeeds with `OUT_LEN` = `DLEN` if `D` = `DLEN`, and is Corrupt
otherwise. -/
def Obligations.EndStepRequiresExactLength : Prop :=
  ∀ s : State, s.PHASE = .run → s.host = [] → s.stage = .chunks → s.S = s.IN_LEN.toNat →
    (s.D = s.DLEN.toNat → ∃ t, step s = .next t ∧ t.OUT_LEN.toNat = s.DLEN.toNat ∧
      t = { s with OUT_LEN := t.OUT_LEN, STATUS := .ok, PHASE := .done }) ∧
    (s.D ≠ s.DLEN.toNat → ∃ t, step s = .next t ∧ EndsWithError t .corrupt)

/-- How the cursors move per mnemonic (R169, R170), and that a chunk that does not raise produces at least one byte and
stays inside the block and the output. `LEN` is read in the state after the chunk. -/
def Obligations.ChunksAdvanceCursors : Prop :=
  ∀ (i : Instr) (s t : State), s.PHASE = .run → s.S < s.IN_LEN.toNat → exec i s = .next t → t.PHASE = .run →
    ((∃ m, i = .lit m) → t.S = s.S + 1 + t.LEN.toNat) ∧
    ((∃ x, i = .lit1 x) → t.S = s.S + 2 + t.LEN.toNat) ∧
    ((∃ x, i = .lit2 x) → t.S = s.S + 3 + t.LEN.toNat) ∧
    ((∃ x, i = .lit3 x) → t.S = s.S + 4 + t.LEN.toNat) ∧
    ((∃ x, i = .lit4 x) → t.S = s.S + 5 + t.LEN.toNat) ∧
    ((∃ l off, i = .copy1 l off) → t.S = s.S + 2) ∧
    ((∃ m off, i = .copy2 m off) → t.S = s.S + 3) ∧
    ((∃ m, i = .copy4 m) → False) ∧
    (encode i = .chunk i.chunkBytes → t.D = s.D + t.LEN.toNat ∧ 1 ≤ t.LEN.toNat ∧ s.S + 2 ≤ t.S ∧
      t.S ≤ s.IN_LEN.toNat ∧ t.D ≤ s.DLEN.toNat)

/-- Bytes after the output is full are an error (R167): a chunk that starts with `D` = `DLEN` raises. Literals and copies
raise Corrupt, but that a `LIT4` may be Unsupported by its length field; `COPY4` raises Unsupported. -/
def Obligations.FullOutputMakesEveryChunkFail : Prop :=
  ∀ s : State, s.D = s.DLEN.toNat →
    (∀ m, ∃ t, exec (.lit m) s = .next t ∧ EndsWithError t .corrupt) ∧
    (∀ x, ∃ t, exec (.lit1 x) s = .next t ∧ EndsWithError t .corrupt) ∧
    (∀ x, ∃ t, exec (.lit2 x) s = .next t ∧ EndsWithError t .corrupt) ∧
    (∀ x, ∃ t, exec (.lit3 x) s = .next t ∧ EndsWithError t .corrupt) ∧
    (∀ x, ∃ t, exec (.lit4 x) s = .next t ∧ (EndsWithError t .corrupt ∨ EndsWithError t .unsupported)) ∧
    (∀ l off, ∃ t, exec (.copy1 l off) s = .next t ∧ EndsWithError t .corrupt) ∧
    (∀ m off, ∃ t, exec (.copy2 m off) s = .next t ∧ EndsWithError t .corrupt) ∧
    (∀ m, ∃ t, exec (.copy4 m) s = .next t ∧ EndsWithError t .unsupported)

/-- The frame of the eight chunk kinds: on every path, an error or not, they leave alone the inputs, the varint outputs, the
Compressor's and the Varint Codec's registers, `TABLE`, `DLEN` and the fetch's registers; and unless they raise, every
`OUT` cell outside `[D, D + LEN)` (R21, R24, R33 to R36, R251). -/
def Obligations.ChunkFrame : Prop :=
  ∀ (i : Instr) (s t : State), encode i = .chunk i.chunkBytes → exec i s = .next t →
    t = { s with S := t.S, D := t.D, X := t.X, LEN := t.LEN, OFF := t.OFF, OUT := t.OUT, draws := t.draws,
                 STATUS := t.STATUS, OUT_LEN := t.OUT_LEN, PHASE := t.PHASE } ∧
    (s.PHASE = .run → t.PHASE = .run → t.STATUS = s.STATUS ∧ t.OUT_LEN = s.OUT_LEN ∧
      ∀ a, a < s.D ∨ s.D + t.LEN.toNat ≤ a → Store.read t.OUT a = Store.read s.OUT a)

/-! ## Errors -/

/-- What `raise K` does (R250), whichever instruction raises: `STATUS` is the kind, `OUT_LEN` is 0, every `OUT` cell is
undefined, `PHASE` is DONE, and `IN`, `IN_LEN`, `OP`, `ARG` are unchanged; `VSTAT` is not OK only after a failure of the
varint decoder, in a `UVARINT` or a block header. -/
def Obligations.EveryErrorLeavesNoOutput : Prop :=
  ∀ (i : Instr) (s t : State), s.STATUS = .ok → s.VSTAT = .ok → exec i s = .next t → t.STATUS ≠ .ok →
    (∃ k, EndsWithError t k) ∧ t.IN = s.IN ∧ t.IN_LEN = s.IN_LEN ∧ t.OP = s.OP ∧ t.ARG = s.ARG ∧
    (t.VSTAT ≠ .ok → t.STATUS = .corrupt ∧ (i = .uvarint ∨ (i = .decompress ∧ s.stage ≠ .chunks)))

/-- Which errors an operation can end with (R24, R240): `PUTUVARINT` cannot fail, `UVARINT` raises Corrupt only, `COMPRESS`
InvalidInput only, and the chunks and `DECOMPRESS` none but the first three kinds. -/
def Obligations.ErrorKindsPerOperation : Prop :=
  ∀ (i : Instr) (s t : State), s.STATUS = .ok → exec i s = .next t →
    (i = .putuvarint → t.STATUS = .ok) ∧
    (i = .uvarint → t.STATUS = .ok ∨ t.STATUS = .corrupt) ∧
    (i = .compress → t.STATUS = .ok ∨ t.STATUS = .invalidInput) ∧
    (i ≠ .compress → t.STATUS ≠ .invalidInput)

/-- The input is immutable (R26, R76): no instruction changes `IN`, `IN_LEN`, `OP` or `ARG`; nor, in the model, the
capacities, the host's moves or the value it last read. -/
def Obligations.InputsAreImmutable : Prop :=
  ∀ (i : Instr) (s t : State), exec i s = .next t →
    t.IN = s.IN ∧ t.IN_LEN = s.IN_LEN ∧ t.OP = s.OP ∧ t.ARG = s.ARG ∧
    t.caps = s.caps ∧ t.host = s.host ∧ t.rdata = s.rdata ∧ t.epoch = s.epoch

/-! ## The Compressor -/

/-- The length check (R191, R244): an input longer than `0xffffffff` is InvalidInput. -/
def Obligations.TooLongInputIsInvalid : Prop :=
  ∀ s : State, s.stage = .begin → 0xffffffff < s.IN_LEN.toNat →
    ∃ t, exec .compress s = .next t ∧ EndsWithError t .invalidInput ∧
      t = { s with N := s.IN_LEN.toNat, STATUS := .invalidInput, OUT_LEN := 0, OUT := [], PHASE := .done }

/-- Short inputs (R193): with room for the block (R31), the empty input gives the single byte 0; an input of 1 to 4 bytes
gives the header byte `N`, the tag byte `(N − 1) << 2` and the input bytes. The hash table is not touched. -/
def Obligations.ShortInputIsOneLiteral : Prop :=
  ∀ s : State, s.stage = .begin →
    (s.IN_LEN.toNat = 0 → Capacity.fits s.caps.outCap 1 = true → ∃ t, exec .compress s = .next t ∧ EndsWithOutput t [0] ∧
      t = { s with N := 0, W := 1, PV := t.PV, OUT := t.OUT, OUT_LEN := 1, STATUS := .ok, PHASE := .done }) ∧
    (∀ n, s.IN_LEN.toNat = n → 1 ≤ n → n ≤ 4 → Capacity.fits s.caps.outCap (n + 2) = true →
      ∃ t, exec .compress s = .next t ∧
      EndsWithOutput t (BitVec.ofNat 8 n :: BitVec.ofNat 8 ((n - 1) * 4) :: s.inBytes 0 n) ∧
      t = { s with N := n, W := n + 2, PV := t.PV, OUT := t.OUT, OUT_LEN := BitVec.ofNat 64 (n + 2), STATUS := .ok,
                   PHASE := .done })

/-- The start of a scan (R191, R192, R194, R195, R196, R42): for an input of 5 to `0xffffffff` bytes, with room for the
header (R31), the header is the shortest varint of the length, every entry below `TSIZE` is absent, and `CS` = `LIT` = 0.
That the length check, the header, the table's start and the scan's start are together one first step is the model's choice
(log entry 4; R287 leaves it open). That the entries at and above `TSIZE`, of which R42 and R195 say nothing, are untouched
is the model's (log entry 27, DEDUCED). -/
def Obligations.CompressStartsScan : Prop :=
  ∀ s : State, s.stage = .begin → 4 < s.IN_LEN.toNat → s.IN_LEN.toNat ≤ 0xffffffff →
    ∃ k, 1 ≤ k ∧ k ≤ 5 ∧ (k = 1 ∨ 2 ^ (7 * (k - 1)) ≤ s.IN_LEN.toNat) ∧ s.IN_LEN.toNat < 2 ^ (7 * k) ∧
      (Capacity.fits s.caps.outCap k = true →
        ∃ t, exec .compress s = .next t ∧
          (∃ rd : Nat → Byte, IsVarint rd k ∧ groupsValue rd k = s.IN_LEN.toNat ∧
            ∀ i, i < k → Store.read t.OUT i = some (rd i)) ∧
          (∀ a, k ≤ a → Store.read t.OUT a = Store.read s.OUT a) ∧
          (t.TSIZE, t.SHIFT) = tableSize s.IN_LEN.toNat ∧
          (∀ i, i < t.TSIZE → t.readTable i = none) ∧ (∀ i, t.TSIZE ≤ i → t.readTable i = s.readTable i) ∧
          t = { s with N := s.IN_LEN.toNat, W := k, PV := t.PV, OUT := t.OUT, TSIZE := t.TSIZE, SHIFT := t.SHIFT,
                       TABLE := t.TABLE, CS := 0, LIT := 0, stage := .scan })

/-- The table size (R194): `TSIZE` is the smallest power of two from 256 to 16384 that is at least the input length, 16384
if none is, and `SHIFT` is `32 − log2(TSIZE)`. -/
def Obligations.TableSizeIsSmallestPowerOfTwo : Prop :=
  ∀ n : Nat, 4 < n →
    let t := (tableSize n).1
    let h := (tableSize n).2
    18 ≤ h ∧ h ≤ 24 ∧ t = 2 ^ (32 - h) ∧
    (n ≤ 16384 → n ≤ t ∧ ∀ j, 8 ≤ j → j ≤ 14 → n ≤ 2 ^ j → t ≤ 2 ^ j) ∧ (16384 < n → t = 16384)

/-- The hash (R197): the bucket is `trunc_32(H * 0x1e35a7bd) >> SHIFT`, below `2^(32 − SHIFT)` = `TSIZE`; the 14 bits of
`IDX` lose none of it. -/
def Obligations.HashBucketIsTopBitsOfProduct : Prop :=
  ∀ (h : Word32) (shift : Nat), 18 ≤ shift → shift ≤ 24 →
    (hashBucket h shift).toNat = h.toNat * 0x1e35a7bd % 2 ^ 32 / 2 ^ shift ∧ (hashBucket h shift).toNat < 2 ^ (32 - shift)

/-- A scan step that misses (R197 to R200): the candidate is absent, or 32768 or more back, or one of its four bytes
differs. `CS` advances by one, the bucket now holds `CS` and no other entry changes, and nothing is emitted. -/
def Obligations.ScanMissAdvancesByOne : Prop :=
  ∀ s : State, s.stage = .scan → s.CS + 3 < s.N → 18 ≤ s.SHIFT →
    (s.readTable (bucketAt s) = none ∨
      (∃ p, s.readTable (bucketAt s) = some p ∧ p.toNat < s.CS ∧
        (32768 ≤ s.CS - p.toNat ∨ ∃ j, j < 4 ∧ s.readIn (p.toNat + j) ≠ s.readIn (s.CS + j)))) →
    ∃ t, exec .compress s = .next t ∧
      t.H.toNat = wordAt s s.CS ∧ t.IDX.toNat = bucketAt s ∧ t.CAND = s.readTable (bucketAt s) ∧
      t.readTable (bucketAt s) = some (BitVec.ofNat 32 s.CS) ∧
      (∀ i, i ≠ bucketAt s → t.readTable i = s.readTable i) ∧
      t = { s with H := t.H, IDX := t.IDX, CAND := t.CAND, TABLE := t.TABLE, CS := s.CS + 1 }

/-- A scan step that hits (R197 to R199, R201 to R203): the match is extended as far as its bytes are equal inside the
input; with room for what is emitted (R31), the pending literal is emitted if there is one, `EMIT_COPY` is emitted for the
match's distance and length, and `CS` and `LIT` stand at the match's end. Nothing else is emitted and the bucket holds the
position the match began at. -/
def Obligations.ScanHitEmitsLiteralAndMatch : Prop :=
  ∀ (s : State) (p : Word32), s.stage = .scan → s.CS + 3 < s.N → s.N ≤ 0xffffffff → 18 ≤ s.SHIFT →
    s.LIT ≤ s.CS →
    s.readTable (bucketAt s) = some p → p.toNat < s.CS → s.CS - p.toNat < 32768 →
    (∀ j, j < 4 → s.readIn (p.toNat + j) = s.readIn (s.CS + j)) →
    ∃ len bytes, MatchLength s p.toNat len ∧
      bytes = (if s.LIT = s.CS then [] else literalHead (s.CS - s.LIT - 1) ++ s.inBytes s.LIT (s.CS - s.LIT)) ++
        copyBytes (s.CS - p.toNat) len ∧
      (Capacity.fits s.caps.outCap (s.W + bytes.length) = true →
        ∃ t, exec .compress s = .next t ∧
          (∀ a, Store.read t.OUT a = if s.W ≤ a ∧ a < s.W + bytes.length then bytes[a - s.W]? else Store.read s.OUT a) ∧
          t.H.toNat = wordAt s s.CS ∧ t.IDX.toNat = bucketAt s ∧ t.CAND = some p ∧
          t.readTable (bucketAt s) = some (BitVec.ofNat 32 s.CS) ∧
          (∀ i, i ≠ bucketAt s → t.readTable i = s.readTable i) ∧
          t = { s with H := t.H, IDX := t.IDX, CAND := t.CAND, TABLE := t.TABLE, CT := p.toNat + len, S0 := s.CS,
                       CS := s.CS + len, LIT := s.CS + len, REM := 0, W := s.W + bytes.length, OUT := t.OUT })

/-- The end of the scan (R204): with fewer than four bytes left at `CS` and room for the pending literal (R31), the pending
literal is emitted if there is one and the operation succeeds with `OUT_LEN` = `W`. -/
def Obligations.ScanEndFlushesLiteral : Prop :=
  ∀ (s : State) (bytes : List Byte), s.stage = .scan → s.N ≤ s.CS + 3 → s.LIT ≤ s.N → s.N ≤ 0xffffffff →
    bytes = (if s.LIT = s.N then [] else literalHead (s.N - s.LIT - 1) ++ s.inBytes s.LIT (s.N - s.LIT)) →
    Capacity.fits s.caps.outCap (s.W + bytes.length) = true →
    ∃ t, exec .compress s = .next t ∧
      (∀ a, Store.read t.OUT a = if s.W ≤ a ∧ a < s.W + bytes.length then bytes[a - s.W]? else Store.read s.OUT a) ∧
      t = { s with W := s.W + bytes.length, OUT := t.OUT, OUT_LEN := BitVec.ofNat 64 (s.W + bytes.length), STATUS := .ok,
                   PHASE := .done }

/-- What `EMIT_COPY` produces (R220 to R223): for `length = 64·q + r`, `q` chunks `COPY2` of 64 and, if `r` is not 0, a last
chunk, which is a `COPY1` of `r` when `r` is 4 to 11 and the offset below 2048, and a `COPY2` of `r` otherwise; all with
the same offset. -/
def Obligations.EmitCopySplitsIntoChunks : Prop :=
  ∀ off len : Nat, off < 65536 →
    let q := len / 64
    let r := len % 64
    copyBytes off len =
      (List.replicate q (Instr.copy2 63 (BitVec.ofNat 16 off))).flatMap Instr.chunkBytes ++
      (if r = 0 then []
       else if 4 ≤ r ∧ r ≤ 11 ∧ off < 2048 then
         (Instr.copy1 (BitVec.ofNat 3 (r - 4)) (BitVec.ofNat 11 off)).chunkBytes
       else (Instr.copy2 (BitVec.ofNat 6 (r - 1)) (BitVec.ofNat 16 off)).chunkBytes)

/-- What `EMIT_LITERAL` puts before the payload (R224, R225): the shortest of the five forms, by the count. -/
def Obligations.EmitLiteralPicksShortestForm : Prop :=
  ∀ count : Nat, 1 ≤ count → count ≤ 4294967296 →
    literalHead (count - 1) =
      (if count ≤ 60 then Instr.lit (BitVec.ofNat 6 (count - 1))
       else if count ≤ 256 then Instr.lit1 (BitVec.ofNat 8 (count - 1))
       else if count ≤ 65536 then Instr.lit2 (BitVec.ofNat 16 (count - 1))
       else if count ≤ 16777216 then Instr.lit3 (BitVec.ofNat 24 (count - 1))
       else Instr.lit4 (BitVec.ofNat 32 (count - 1))).chunkBytes

/-- What an emitting step does to `OUT` (R78): no cell below the write cursor is rewritten, the cells it writes are the ones
from the old cursor to the new, and no other cell changes. -/
def Obligations.EmissionIsAppendOnly : Prop :=
  ∀ s t : State, s.stage = .scan → exec .compress s = .next t → t.STATUS = .ok →
    s.W ≤ t.W ∧ (∀ a, s.W ≤ a → a < t.W → ∃ b, Store.read t.OUT a = some b) ∧
    ∀ a, a < s.W ∨ t.W ≤ a → Store.read t.OUT a = Store.read s.OUT a

/-! ## The whole machine -/

/-- The state after RESET meets the invariant. -/
def Obligations.ResetMeetsInvariant : Prop := State.reset.Inv

/-- Every step keeps the invariant, whatever the host does (R25, R26, R30, R32, R33, R134, R206, R208, R250). -/
def Obligations.StepKeepsInvariant : Prop := ∀ s t : State, s.Inv → step s = .next t → t.Inv

/-- The Compressor never emits offset 0 and no offset above 32767 (R206): in a scan step from a state that meets the
invariant a hit's candidate lies 1 to 32767 before the scan cursor. -/
def Obligations.MatchDistanceInRange : Prop :=
  ∀ (s : State) (c : Nat), s.Inv → s.PHASE = .run → s.stage = .scan → s.CS + 3 < s.N →
    hitCandidate (lookup s) = some c → c < s.CS ∧ 1 ≤ s.CS - c ∧ s.CS - c ≤ 32767

/-- The size of the output (R208): `OUT_LEN <= 5 + N + 5 · (floor(N / 4) + 1)` whenever `COMPRESS` ends. -/
def Obligations.CompressedSizeIsBounded : Prop :=
  ∀ (s t : State) (n : Nat), AboutToStart 1 s → steps (n + 1) s = .next t → t.PHASE = .done →
    t.OUT_LEN.toNat ≤ 5 + s.IN_LEN.toNat + 5 * (s.IN_LEN.toNat / 4 + 1)

/-- `DECOMPRESS` always ends (R169, R295): after START at most `floor(IN_LEN / 2) + 2` steps lead to DONE. -/
def Obligations.DecompressTerminates : Prop :=
  ∀ s : State, AboutToStart 0 s →
    ∃ n t, n ≤ s.IN_LEN.toNat / 2 + 2 ∧ steps (n + 1) s = .next t ∧ t.PHASE = .done

/-- `COMPRESS` always succeeds on an input of at most `0xffffffff` bytes (R190, R206, R295): after START the first step, at
most `N − 3` scan steps and the final flush lead to DONE with `STATUS` = OK. -/
def Obligations.CompressTerminatesAndSucceeds : Prop :=
  ∀ s : State, AboutToStart 1 s → s.IN_LEN.toNat ≤ 0xffffffff →
    ∃ n t, n ≤ 2 + (s.IN_LEN.toNat - 3) ∧ steps (n + 1) s = .next t ∧ t.PHASE = .done ∧ t.STATUS = .ok

/-- The length invariant (R150, R172): when `DECOMPRESS` ends with `STATUS` = OK, `OUT_LEN` is the header's value and every
cell below it is defined; otherwise `OUT_LEN` is 0 and there is no output. -/
def Obligations.OutputLengthIsHeaderValue : Prop :=
  ∀ (s t : State) (n : Nat), AboutToStart 0 s → steps (n + 1) s = .next t → t.PHASE = .done →
    (t.STATUS = .ok → ∃ k, IsVarint s.readIn k ∧ k ≤ s.IN_LEN.toNat ∧ t.OUT_LEN.toNat = groupsValue s.readIn k ∧
      ∀ a, a < t.OUT_LEN.toNat → ∃ b, Store.read t.OUT a = some b) ∧
    (t.STATUS ≠ .ok → ∃ k, EndsWithError t k)

/-- Truncating any valid block yields Corrupt (spec/95_test_vectors.md E7): if `DECOMPRESS` of the bytes `x` succeeds, then
`DECOMPRESS` of any proper initial part of `x` ends with Corrupt. -/
def Obligations.TruncatedBlockIsCorrupt : Prop :=
  ∀ (s t s' : State) (x : List Byte) (m n : Nat), AboutToStart 0 s → HoldsInput s x →
    steps (n + 1) s = .next t → t.PHASE = .done → t.STATUS = .ok →
    m < x.length → AboutToStart 0 s' → HoldsInput s' (x.take m) →
    ∃ n' t', steps (n' + 1) s' = .next t' ∧ EndsWithError t' .corrupt

/-- The round trip (R207): for every input of at most `0x7fffffff` bytes `COMPRESS` ends with a block, and `DECOMPRESS` of
that block, on any core and whatever that core did before, ends with the input. -/
def Obligations.DecompressInvertsCompress : Prop :=
  ∀ (s : State) (x : List Byte), AboutToStart 1 s → HoldsInput s x → x.length ≤ 0x7fffffff →
    ∃ n t y, steps (n + 1) s = .next t ∧ EndsWithOutput t y ∧
      ∀ u : State, AboutToStart 0 u → HoldsInput u y → ∃ m v, steps (m + 1) u = .next v ∧ EndsWithOutput v x

/-- Nothing carries over between operations (R45, R8): two cores that agree on `OP`, `ARG`, `IN_LEN`, `IN[0 .. IN_LEN)`, the
capacities and the draws to come show the host the same at every step after START, whatever their earlier operations left
in `OUT`, `TABLE`, `STATUS`, the working registers and the rest of `IN`. -/
def Obligations.NothingCarriesOver : Prop :=
  ∀ (s₁ s₂ : State) (n : Nat), s₁.PHASE ≠ .run → s₂.PHASE ≠ .run → s₁.host = [.start] → s₂.host = [.start] →
    s₁.OP = s₂.OP → s₁.ARG = s₂.ARG → s₁.IN_LEN = s₂.IN_LEN → s₁.caps = s₂.caps → s₁.draws = s₂.draws →
    (∀ i, i < s₁.IN_LEN.toNat → s₁.readIn i = s₂.readIn i) →
    SameForHost (steps (n + 1) s₁) (steps (n + 1) s₂)
end

