-- ==== Sys2Proof/Laws/State.lean ====
section
/-! SUPPORT. What each named update of the state leaves in each field: one lemma per field per update, true by `rfl`, so
that no proof unfolds a record update. The last group says the same of the reads of `IN`. -/

namespace Sys2Proof.Machine

/-! ## raise -/

@[simp] theorem raise_OP (k : ErrKind) (s : State) : (raise k s).OP = s.OP := rfl
@[simp] theorem raise_ARG (k : ErrKind) (s : State) : (raise k s).ARG = s.ARG := rfl
@[simp] theorem raise_IN_LEN (k : ErrKind) (s : State) : (raise k s).IN_LEN = s.IN_LEN := rfl
@[simp] theorem raise_OUT_LEN (k : ErrKind) (s : State) : (raise k s).OUT_LEN = 0 := rfl
@[simp] theorem raise_STATUS (k : ErrKind) (s : State) : (raise k s).STATUS = k.status := rfl
@[simp] theorem raise_VSTAT (k : ErrKind) (s : State) : (raise k s).VSTAT = s.VSTAT := rfl
@[simp] theorem raise_VALUE (k : ErrKind) (s : State) : (raise k s).VALUE = s.VALUE := rfl
@[simp] theorem raise_NBYTES (k : ErrKind) (s : State) : (raise k s).NBYTES = s.NBYTES := rfl
@[simp] theorem raise_PHASE (k : ErrKind) (s : State) : (raise k s).PHASE = .done := rfl
@[simp] theorem raise_IN (k : ErrKind) (s : State) : (raise k s).IN = s.IN := rfl
@[simp] theorem raise_OUT (k : ErrKind) (s : State) : (raise k s).OUT = [] := rfl
@[simp] theorem raise_TABLE (k : ErrKind) (s : State) : (raise k s).TABLE = s.TABLE := rfl
@[simp] theorem raise_S (k : ErrKind) (s : State) : (raise k s).S = s.S := rfl
@[simp] theorem raise_D (k : ErrKind) (s : State) : (raise k s).D = s.D := rfl
@[simp] theorem raise_DLEN (k : ErrKind) (s : State) : (raise k s).DLEN = s.DLEN := rfl
@[simp] theorem raise_B (k : ErrKind) (s : State) : (raise k s).B = s.B := rfl
@[simp] theorem raise_TAG (k : ErrKind) (s : State) : (raise k s).TAG = s.TAG := rfl
@[simp] theorem raise_M (k : ErrKind) (s : State) : (raise k s).M = s.M := rfl
@[simp] theorem raise_X (k : ErrKind) (s : State) : (raise k s).X = s.X := rfl
@[simp] theorem raise_LEN (k : ErrKind) (s : State) : (raise k s).LEN = s.LEN := rfl
@[simp] theorem raise_OFF (k : ErrKind) (s : State) : (raise k s).OFF = s.OFF := rfl
@[simp] theorem raise_N (k : ErrKind) (s : State) : (raise k s).N = s.N := rfl
@[simp] theorem raise_W (k : ErrKind) (s : State) : (raise k s).W = s.W := rfl
@[simp] theorem raise_TSIZE (k : ErrKind) (s : State) : (raise k s).TSIZE = s.TSIZE := rfl
@[simp] theorem raise_SHIFT (k : ErrKind) (s : State) : (raise k s).SHIFT = s.SHIFT := rfl
@[simp] theorem raise_CS (k : ErrKind) (s : State) : (raise k s).CS = s.CS := rfl
@[simp] theorem raise_CT (k : ErrKind) (s : State) : (raise k s).CT = s.CT := rfl
@[simp] theorem raise_LIT (k : ErrKind) (s : State) : (raise k s).LIT = s.LIT := rfl
@[simp] theorem raise_S0 (k : ErrKind) (s : State) : (raise k s).S0 = s.S0 := rfl
@[simp] theorem raise_H (k : ErrKind) (s : State) : (raise k s).H = s.H := rfl
@[simp] theorem raise_IDX (k : ErrKind) (s : State) : (raise k s).IDX = s.IDX := rfl
@[simp] theorem raise_CAND (k : ErrKind) (s : State) : (raise k s).CAND = s.CAND := rfl
@[simp] theorem raise_REM (k : ErrKind) (s : State) : (raise k s).REM = s.REM := rfl
@[simp] theorem raise_ACC (k : ErrKind) (s : State) : (raise k s).ACC = s.ACC := rfl
@[simp] theorem raise_SH (k : ErrKind) (s : State) : (raise k s).SH = s.SH := rfl
@[simp] theorem raise_VI (k : ErrKind) (s : State) : (raise k s).VI = s.VI := rfl
@[simp] theorem raise_PV (k : ErrKind) (s : State) : (raise k s).PV = s.PV := rfl
@[simp] theorem raise_stage (k : ErrKind) (s : State) : (raise k s).stage = s.stage := rfl
@[simp] theorem raise_draws (k : ErrKind) (s : State) : (raise k s).draws = s.draws := rfl
@[simp] theorem raise_epoch (k : ErrKind) (s : State) : (raise k s).epoch = s.epoch := rfl
@[simp] theorem raise_caps (k : ErrKind) (s : State) : (raise k s).caps = s.caps := rfl
@[simp] theorem raise_host (k : ErrKind) (s : State) : (raise k s).host = s.host := rfl
@[simp] theorem raise_rdata (k : ErrKind) (s : State) : (raise k s).rdata = s.rdata := rfl

/-! ## succeed -/

@[simp] theorem succeed_OP (n : Word64) (s : State) : (succeed n s).OP = s.OP := rfl
@[simp] theorem succeed_ARG (n : Word64) (s : State) : (succeed n s).ARG = s.ARG := rfl
@[simp] theorem succeed_IN_LEN (n : Word64) (s : State) : (succeed n s).IN_LEN = s.IN_LEN := rfl
@[simp] theorem succeed_OUT_LEN (n : Word64) (s : State) : (succeed n s).OUT_LEN = n := rfl
@[simp] theorem succeed_STATUS (n : Word64) (s : State) : (succeed n s).STATUS = .ok := rfl
@[simp] theorem succeed_VSTAT (n : Word64) (s : State) : (succeed n s).VSTAT = s.VSTAT := rfl
@[simp] theorem succeed_VALUE (n : Word64) (s : State) : (succeed n s).VALUE = s.VALUE := rfl
@[simp] theorem succeed_NBYTES (n : Word64) (s : State) : (succeed n s).NBYTES = s.NBYTES := rfl
@[simp] theorem succeed_PHASE (n : Word64) (s : State) : (succeed n s).PHASE = .done := rfl
@[simp] theorem succeed_IN (n : Word64) (s : State) : (succeed n s).IN = s.IN := rfl
@[simp] theorem succeed_OUT (n : Word64) (s : State) : (succeed n s).OUT = s.OUT := rfl
@[simp] theorem succeed_TABLE (n : Word64) (s : State) : (succeed n s).TABLE = s.TABLE := rfl
@[simp] theorem succeed_S (n : Word64) (s : State) : (succeed n s).S = s.S := rfl
@[simp] theorem succeed_D (n : Word64) (s : State) : (succeed n s).D = s.D := rfl
@[simp] theorem succeed_DLEN (n : Word64) (s : State) : (succeed n s).DLEN = s.DLEN := rfl
@[simp] theorem succeed_B (n : Word64) (s : State) : (succeed n s).B = s.B := rfl
@[simp] theorem succeed_TAG (n : Word64) (s : State) : (succeed n s).TAG = s.TAG := rfl
@[simp] theorem succeed_M (n : Word64) (s : State) : (succeed n s).M = s.M := rfl
@[simp] theorem succeed_X (n : Word64) (s : State) : (succeed n s).X = s.X := rfl
@[simp] theorem succeed_LEN (n : Word64) (s : State) : (succeed n s).LEN = s.LEN := rfl
@[simp] theorem succeed_OFF (n : Word64) (s : State) : (succeed n s).OFF = s.OFF := rfl
@[simp] theorem succeed_N (n : Word64) (s : State) : (succeed n s).N = s.N := rfl
@[simp] theorem succeed_W (n : Word64) (s : State) : (succeed n s).W = s.W := rfl
@[simp] theorem succeed_TSIZE (n : Word64) (s : State) : (succeed n s).TSIZE = s.TSIZE := rfl
@[simp] theorem succeed_SHIFT (n : Word64) (s : State) : (succeed n s).SHIFT = s.SHIFT := rfl
@[simp] theorem succeed_CS (n : Word64) (s : State) : (succeed n s).CS = s.CS := rfl
@[simp] theorem succeed_CT (n : Word64) (s : State) : (succeed n s).CT = s.CT := rfl
@[simp] theorem succeed_LIT (n : Word64) (s : State) : (succeed n s).LIT = s.LIT := rfl
@[simp] theorem succeed_S0 (n : Word64) (s : State) : (succeed n s).S0 = s.S0 := rfl
@[simp] theorem succeed_H (n : Word64) (s : State) : (succeed n s).H = s.H := rfl
@[simp] theorem succeed_IDX (n : Word64) (s : State) : (succeed n s).IDX = s.IDX := rfl
@[simp] theorem succeed_CAND (n : Word64) (s : State) : (succeed n s).CAND = s.CAND := rfl
@[simp] theorem succeed_REM (n : Word64) (s : State) : (succeed n s).REM = s.REM := rfl
@[simp] theorem succeed_ACC (n : Word64) (s : State) : (succeed n s).ACC = s.ACC := rfl
@[simp] theorem succeed_SH (n : Word64) (s : State) : (succeed n s).SH = s.SH := rfl
@[simp] theorem succeed_VI (n : Word64) (s : State) : (succeed n s).VI = s.VI := rfl
@[simp] theorem succeed_PV (n : Word64) (s : State) : (succeed n s).PV = s.PV := rfl
@[simp] theorem succeed_stage (n : Word64) (s : State) : (succeed n s).stage = s.stage := rfl
@[simp] theorem succeed_draws (n : Word64) (s : State) : (succeed n s).draws = s.draws := rfl
@[simp] theorem succeed_epoch (n : Word64) (s : State) : (succeed n s).epoch = s.epoch := rfl
@[simp] theorem succeed_caps (n : Word64) (s : State) : (succeed n s).caps = s.caps := rfl
@[simp] theorem succeed_host (n : Word64) (s : State) : (succeed n s).host = s.host := rfl
@[simp] theorem succeed_rdata (n : Word64) (s : State) : (succeed n s).rdata = s.rdata := rfl

/-! ## setVarintOutputs -/

@[simp] theorem setVarintOutputs_OP (r : VarintResult) (s : State) : (setVarintOutputs r s).OP = s.OP := rfl
@[simp] theorem setVarintOutputs_ARG (r : VarintResult) (s : State) : (setVarintOutputs r s).ARG = s.ARG := rfl
@[simp] theorem setVarintOutputs_IN_LEN (r : VarintResult) (s : State) : (setVarintOutputs r s).IN_LEN = s.IN_LEN := rfl
@[simp] theorem setVarintOutputs_OUT_LEN (r : VarintResult) (s : State) : (setVarintOutputs r s).OUT_LEN = s.OUT_LEN := rfl
@[simp] theorem setVarintOutputs_STATUS (r : VarintResult) (s : State) : (setVarintOutputs r s).STATUS = s.STATUS := rfl
@[simp] theorem setVarintOutputs_VSTAT (r : VarintResult) (s : State) : (setVarintOutputs r s).VSTAT = r.vstat := rfl
@[simp] theorem setVarintOutputs_VALUE (r : VarintResult) (s : State) : (setVarintOutputs r s).VALUE = r.value := rfl
@[simp] theorem setVarintOutputs_NBYTES (r : VarintResult) (s : State) : (setVarintOutputs r s).NBYTES = r.nbytes := rfl
@[simp] theorem setVarintOutputs_PHASE (r : VarintResult) (s : State) : (setVarintOutputs r s).PHASE = s.PHASE := rfl
@[simp] theorem setVarintOutputs_IN (r : VarintResult) (s : State) : (setVarintOutputs r s).IN = s.IN := rfl
@[simp] theorem setVarintOutputs_OUT (r : VarintResult) (s : State) : (setVarintOutputs r s).OUT = s.OUT := rfl
@[simp] theorem setVarintOutputs_TABLE (r : VarintResult) (s : State) : (setVarintOutputs r s).TABLE = s.TABLE := rfl
@[simp] theorem setVarintOutputs_S (r : VarintResult) (s : State) : (setVarintOutputs r s).S = s.S := rfl
@[simp] theorem setVarintOutputs_D (r : VarintResult) (s : State) : (setVarintOutputs r s).D = s.D := rfl
@[simp] theorem setVarintOutputs_DLEN (r : VarintResult) (s : State) : (setVarintOutputs r s).DLEN = s.DLEN := rfl
@[simp] theorem setVarintOutputs_B (r : VarintResult) (s : State) : (setVarintOutputs r s).B = s.B := rfl
@[simp] theorem setVarintOutputs_TAG (r : VarintResult) (s : State) : (setVarintOutputs r s).TAG = s.TAG := rfl
@[simp] theorem setVarintOutputs_M (r : VarintResult) (s : State) : (setVarintOutputs r s).M = s.M := rfl
@[simp] theorem setVarintOutputs_X (r : VarintResult) (s : State) : (setVarintOutputs r s).X = s.X := rfl
@[simp] theorem setVarintOutputs_LEN (r : VarintResult) (s : State) : (setVarintOutputs r s).LEN = s.LEN := rfl
@[simp] theorem setVarintOutputs_OFF (r : VarintResult) (s : State) : (setVarintOutputs r s).OFF = s.OFF := rfl
@[simp] theorem setVarintOutputs_N (r : VarintResult) (s : State) : (setVarintOutputs r s).N = s.N := rfl
@[simp] theorem setVarintOutputs_W (r : VarintResult) (s : State) : (setVarintOutputs r s).W = s.W := rfl
@[simp] theorem setVarintOutputs_TSIZE (r : VarintResult) (s : State) : (setVarintOutputs r s).TSIZE = s.TSIZE := rfl
@[simp] theorem setVarintOutputs_SHIFT (r : VarintResult) (s : State) : (setVarintOutputs r s).SHIFT = s.SHIFT := rfl
@[simp] theorem setVarintOutputs_CS (r : VarintResult) (s : State) : (setVarintOutputs r s).CS = s.CS := rfl
@[simp] theorem setVarintOutputs_CT (r : VarintResult) (s : State) : (setVarintOutputs r s).CT = s.CT := rfl
@[simp] theorem setVarintOutputs_LIT (r : VarintResult) (s : State) : (setVarintOutputs r s).LIT = s.LIT := rfl
@[simp] theorem setVarintOutputs_S0 (r : VarintResult) (s : State) : (setVarintOutputs r s).S0 = s.S0 := rfl
@[simp] theorem setVarintOutputs_H (r : VarintResult) (s : State) : (setVarintOutputs r s).H = s.H := rfl
@[simp] theorem setVarintOutputs_IDX (r : VarintResult) (s : State) : (setVarintOutputs r s).IDX = s.IDX := rfl
@[simp] theorem setVarintOutputs_CAND (r : VarintResult) (s : State) : (setVarintOutputs r s).CAND = s.CAND := rfl
@[simp] theorem setVarintOutputs_REM (r : VarintResult) (s : State) : (setVarintOutputs r s).REM = s.REM := rfl
@[simp] theorem setVarintOutputs_ACC (r : VarintResult) (s : State) : (setVarintOutputs r s).ACC = s.ACC := rfl
@[simp] theorem setVarintOutputs_SH (r : VarintResult) (s : State) : (setVarintOutputs r s).SH = s.SH := rfl
@[simp] theorem setVarintOutputs_VI (r : VarintResult) (s : State) : (setVarintOutputs r s).VI = s.VI := rfl
@[simp] theorem setVarintOutputs_PV (r : VarintResult) (s : State) : (setVarintOutputs r s).PV = s.PV := rfl
@[simp] theorem setVarintOutputs_stage (r : VarintResult) (s : State) : (setVarintOutputs r s).stage = s.stage := rfl
@[simp] theorem setVarintOutputs_draws (r : VarintResult) (s : State) : (setVarintOutputs r s).draws = s.draws := rfl
@[simp] theorem setVarintOutputs_epoch (r : VarintResult) (s : State) : (setVarintOutputs r s).epoch = s.epoch := rfl
@[simp] theorem setVarintOutputs_caps (r : VarintResult) (s : State) : (setVarintOutputs r s).caps = s.caps := rfl
@[simp] theorem setVarintOutputs_host (r : VarintResult) (s : State) : (setVarintOutputs r s).host = s.host := rfl
@[simp] theorem setVarintOutputs_rdata (r : VarintResult) (s : State) : (setVarintOutputs r s).rdata = s.rdata := rfl

/-! ## setVarintRegs -/

@[simp] theorem setVarintRegs_OP (r : VarintRun) (s : State) : (setVarintRegs r s).OP = s.OP := rfl
@[simp] theorem setVarintRegs_ARG (r : VarintRun) (s : State) : (setVarintRegs r s).ARG = s.ARG := rfl
@[simp] theorem setVarintRegs_IN_LEN (r : VarintRun) (s : State) : (setVarintRegs r s).IN_LEN = s.IN_LEN := rfl
@[simp] theorem setVarintRegs_OUT_LEN (r : VarintRun) (s : State) : (setVarintRegs r s).OUT_LEN = s.OUT_LEN := rfl
@[simp] theorem setVarintRegs_STATUS (r : VarintRun) (s : State) : (setVarintRegs r s).STATUS = s.STATUS := rfl
@[simp] theorem setVarintRegs_VSTAT (r : VarintRun) (s : State) : (setVarintRegs r s).VSTAT = s.VSTAT := rfl
@[simp] theorem setVarintRegs_VALUE (r : VarintRun) (s : State) : (setVarintRegs r s).VALUE = s.VALUE := rfl
@[simp] theorem setVarintRegs_NBYTES (r : VarintRun) (s : State) : (setVarintRegs r s).NBYTES = s.NBYTES := rfl
@[simp] theorem setVarintRegs_PHASE (r : VarintRun) (s : State) : (setVarintRegs r s).PHASE = s.PHASE := rfl
@[simp] theorem setVarintRegs_IN (r : VarintRun) (s : State) : (setVarintRegs r s).IN = s.IN := rfl
@[simp] theorem setVarintRegs_OUT (r : VarintRun) (s : State) : (setVarintRegs r s).OUT = s.OUT := rfl
@[simp] theorem setVarintRegs_TABLE (r : VarintRun) (s : State) : (setVarintRegs r s).TABLE = s.TABLE := rfl
@[simp] theorem setVarintRegs_S (r : VarintRun) (s : State) : (setVarintRegs r s).S = s.S := rfl
@[simp] theorem setVarintRegs_D (r : VarintRun) (s : State) : (setVarintRegs r s).D = s.D := rfl
@[simp] theorem setVarintRegs_DLEN (r : VarintRun) (s : State) : (setVarintRegs r s).DLEN = s.DLEN := rfl
@[simp] theorem setVarintRegs_B (r : VarintRun) (s : State) : (setVarintRegs r s).B = s.B := rfl
@[simp] theorem setVarintRegs_TAG (r : VarintRun) (s : State) : (setVarintRegs r s).TAG = s.TAG := rfl
@[simp] theorem setVarintRegs_M (r : VarintRun) (s : State) : (setVarintRegs r s).M = s.M := rfl
@[simp] theorem setVarintRegs_X (r : VarintRun) (s : State) : (setVarintRegs r s).X = s.X := rfl
@[simp] theorem setVarintRegs_LEN (r : VarintRun) (s : State) : (setVarintRegs r s).LEN = s.LEN := rfl
@[simp] theorem setVarintRegs_OFF (r : VarintRun) (s : State) : (setVarintRegs r s).OFF = s.OFF := rfl
@[simp] theorem setVarintRegs_N (r : VarintRun) (s : State) : (setVarintRegs r s).N = s.N := rfl
@[simp] theorem setVarintRegs_W (r : VarintRun) (s : State) : (setVarintRegs r s).W = s.W := rfl
@[simp] theorem setVarintRegs_TSIZE (r : VarintRun) (s : State) : (setVarintRegs r s).TSIZE = s.TSIZE := rfl
@[simp] theorem setVarintRegs_SHIFT (r : VarintRun) (s : State) : (setVarintRegs r s).SHIFT = s.SHIFT := rfl
@[simp] theorem setVarintRegs_CS (r : VarintRun) (s : State) : (setVarintRegs r s).CS = s.CS := rfl
@[simp] theorem setVarintRegs_CT (r : VarintRun) (s : State) : (setVarintRegs r s).CT = s.CT := rfl
@[simp] theorem setVarintRegs_LIT (r : VarintRun) (s : State) : (setVarintRegs r s).LIT = s.LIT := rfl
@[simp] theorem setVarintRegs_S0 (r : VarintRun) (s : State) : (setVarintRegs r s).S0 = s.S0 := rfl
@[simp] theorem setVarintRegs_H (r : VarintRun) (s : State) : (setVarintRegs r s).H = s.H := rfl
@[simp] theorem setVarintRegs_IDX (r : VarintRun) (s : State) : (setVarintRegs r s).IDX = s.IDX := rfl
@[simp] theorem setVarintRegs_CAND (r : VarintRun) (s : State) : (setVarintRegs r s).CAND = s.CAND := rfl
@[simp] theorem setVarintRegs_REM (r : VarintRun) (s : State) : (setVarintRegs r s).REM = s.REM := rfl
@[simp] theorem setVarintRegs_ACC (r : VarintRun) (s : State) : (setVarintRegs r s).ACC = r.acc := rfl
@[simp] theorem setVarintRegs_SH (r : VarintRun) (s : State) : (setVarintRegs r s).SH = r.sh := rfl
@[simp] theorem setVarintRegs_VI (r : VarintRun) (s : State) : (setVarintRegs r s).VI = r.vi := rfl
@[simp] theorem setVarintRegs_PV (r : VarintRun) (s : State) : (setVarintRegs r s).PV = s.PV := rfl
@[simp] theorem setVarintRegs_stage (r : VarintRun) (s : State) : (setVarintRegs r s).stage = s.stage := rfl
@[simp] theorem setVarintRegs_draws (r : VarintRun) (s : State) : (setVarintRegs r s).draws = s.draws := rfl
@[simp] theorem setVarintRegs_epoch (r : VarintRun) (s : State) : (setVarintRegs r s).epoch = s.epoch := rfl
@[simp] theorem setVarintRegs_caps (r : VarintRun) (s : State) : (setVarintRegs r s).caps = s.caps := rfl
@[simp] theorem setVarintRegs_host (r : VarintRun) (s : State) : (setVarintRegs r s).host = s.host := rfl
@[simp] theorem setVarintRegs_rdata (r : VarintRun) (s : State) : (setVarintRegs r s).rdata = s.rdata := rfl

/-! ## fetchChunk -/

@[simp] theorem fetchChunk_OP (s : State) : (fetchChunk s).OP = s.OP := rfl
@[simp] theorem fetchChunk_ARG (s : State) : (fetchChunk s).ARG = s.ARG := rfl
@[simp] theorem fetchChunk_IN_LEN (s : State) : (fetchChunk s).IN_LEN = s.IN_LEN := rfl
@[simp] theorem fetchChunk_OUT_LEN (s : State) : (fetchChunk s).OUT_LEN = s.OUT_LEN := rfl
@[simp] theorem fetchChunk_STATUS (s : State) : (fetchChunk s).STATUS = s.STATUS := rfl
@[simp] theorem fetchChunk_VSTAT (s : State) : (fetchChunk s).VSTAT = s.VSTAT := rfl
@[simp] theorem fetchChunk_VALUE (s : State) : (fetchChunk s).VALUE = s.VALUE := rfl
@[simp] theorem fetchChunk_NBYTES (s : State) : (fetchChunk s).NBYTES = s.NBYTES := rfl
@[simp] theorem fetchChunk_PHASE (s : State) : (fetchChunk s).PHASE = s.PHASE := rfl
@[simp] theorem fetchChunk_IN (s : State) : (fetchChunk s).IN = s.IN := rfl
@[simp] theorem fetchChunk_OUT (s : State) : (fetchChunk s).OUT = s.OUT := rfl
@[simp] theorem fetchChunk_TABLE (s : State) : (fetchChunk s).TABLE = s.TABLE := rfl
@[simp] theorem fetchChunk_S (s : State) : (fetchChunk s).S = s.S := rfl
@[simp] theorem fetchChunk_D (s : State) : (fetchChunk s).D = s.D := rfl
@[simp] theorem fetchChunk_DLEN (s : State) : (fetchChunk s).DLEN = s.DLEN := rfl
@[simp] theorem fetchChunk_B (s : State) : (fetchChunk s).B = s.readIn s.S := rfl
@[simp] theorem fetchChunk_TAG (s : State) : (fetchChunk s).TAG = tagBits (s.readIn s.S) := rfl
@[simp] theorem fetchChunk_M (s : State) : (fetchChunk s).M = mBits (s.readIn s.S) := rfl
@[simp] theorem fetchChunk_X (s : State) : (fetchChunk s).X = s.X := rfl
@[simp] theorem fetchChunk_LEN (s : State) : (fetchChunk s).LEN = s.LEN := rfl
@[simp] theorem fetchChunk_OFF (s : State) : (fetchChunk s).OFF = s.OFF := rfl
@[simp] theorem fetchChunk_N (s : State) : (fetchChunk s).N = s.N := rfl
@[simp] theorem fetchChunk_W (s : State) : (fetchChunk s).W = s.W := rfl
@[simp] theorem fetchChunk_TSIZE (s : State) : (fetchChunk s).TSIZE = s.TSIZE := rfl
@[simp] theorem fetchChunk_SHIFT (s : State) : (fetchChunk s).SHIFT = s.SHIFT := rfl
@[simp] theorem fetchChunk_CS (s : State) : (fetchChunk s).CS = s.CS := rfl
@[simp] theorem fetchChunk_CT (s : State) : (fetchChunk s).CT = s.CT := rfl
@[simp] theorem fetchChunk_LIT (s : State) : (fetchChunk s).LIT = s.LIT := rfl
@[simp] theorem fetchChunk_S0 (s : State) : (fetchChunk s).S0 = s.S0 := rfl
@[simp] theorem fetchChunk_H (s : State) : (fetchChunk s).H = s.H := rfl
@[simp] theorem fetchChunk_IDX (s : State) : (fetchChunk s).IDX = s.IDX := rfl
@[simp] theorem fetchChunk_CAND (s : State) : (fetchChunk s).CAND = s.CAND := rfl
@[simp] theorem fetchChunk_REM (s : State) : (fetchChunk s).REM = s.REM := rfl
@[simp] theorem fetchChunk_ACC (s : State) : (fetchChunk s).ACC = s.ACC := rfl
@[simp] theorem fetchChunk_SH (s : State) : (fetchChunk s).SH = s.SH := rfl
@[simp] theorem fetchChunk_VI (s : State) : (fetchChunk s).VI = s.VI := rfl
@[simp] theorem fetchChunk_PV (s : State) : (fetchChunk s).PV = s.PV := rfl
@[simp] theorem fetchChunk_stage (s : State) : (fetchChunk s).stage = s.stage := rfl
@[simp] theorem fetchChunk_draws (s : State) : (fetchChunk s).draws = s.draws := rfl
@[simp] theorem fetchChunk_epoch (s : State) : (fetchChunk s).epoch = s.epoch := rfl
@[simp] theorem fetchChunk_caps (s : State) : (fetchChunk s).caps = s.caps := rfl
@[simp] theorem fetchChunk_host (s : State) : (fetchChunk s).host = s.host := rfl
@[simp] theorem fetchChunk_rdata (s : State) : (fetchChunk s).rdata = s.rdata := rfl

/-! ## pushOut -/

@[simp] theorem pushOut_OP (b : Byte) (s : State) : (s.pushOut b).OP = s.OP := rfl
@[simp] theorem pushOut_ARG (b : Byte) (s : State) : (s.pushOut b).ARG = s.ARG := rfl
@[simp] theorem pushOut_IN_LEN (b : Byte) (s : State) : (s.pushOut b).IN_LEN = s.IN_LEN := rfl
@[simp] theorem pushOut_OUT_LEN (b : Byte) (s : State) : (s.pushOut b).OUT_LEN = s.OUT_LEN := rfl
@[simp] theorem pushOut_STATUS (b : Byte) (s : State) : (s.pushOut b).STATUS = s.STATUS := rfl
@[simp] theorem pushOut_VSTAT (b : Byte) (s : State) : (s.pushOut b).VSTAT = s.VSTAT := rfl
@[simp] theorem pushOut_VALUE (b : Byte) (s : State) : (s.pushOut b).VALUE = s.VALUE := rfl
@[simp] theorem pushOut_NBYTES (b : Byte) (s : State) : (s.pushOut b).NBYTES = s.NBYTES := rfl
@[simp] theorem pushOut_PHASE (b : Byte) (s : State) : (s.pushOut b).PHASE = s.PHASE := rfl
@[simp] theorem pushOut_IN (b : Byte) (s : State) : (s.pushOut b).IN = s.IN := rfl
@[simp] theorem pushOut_OUT (b : Byte) (s : State) : (s.pushOut b).OUT = Store.write s.OUT s.D b := rfl
@[simp] theorem pushOut_TABLE (b : Byte) (s : State) : (s.pushOut b).TABLE = s.TABLE := rfl
@[simp] theorem pushOut_S (b : Byte) (s : State) : (s.pushOut b).S = s.S := rfl
@[simp] theorem pushOut_D (b : Byte) (s : State) : (s.pushOut b).D = s.D + 1 := rfl
@[simp] theorem pushOut_DLEN (b : Byte) (s : State) : (s.pushOut b).DLEN = s.DLEN := rfl
@[simp] theorem pushOut_B (b : Byte) (s : State) : (s.pushOut b).B = s.B := rfl
@[simp] theorem pushOut_TAG (b : Byte) (s : State) : (s.pushOut b).TAG = s.TAG := rfl
@[simp] theorem pushOut_M (b : Byte) (s : State) : (s.pushOut b).M = s.M := rfl
@[simp] theorem pushOut_X (b : Byte) (s : State) : (s.pushOut b).X = s.X := rfl
@[simp] theorem pushOut_LEN (b : Byte) (s : State) : (s.pushOut b).LEN = s.LEN := rfl
@[simp] theorem pushOut_OFF (b : Byte) (s : State) : (s.pushOut b).OFF = s.OFF := rfl
@[simp] theorem pushOut_N (b : Byte) (s : State) : (s.pushOut b).N = s.N := rfl
@[simp] theorem pushOut_W (b : Byte) (s : State) : (s.pushOut b).W = s.W := rfl
@[simp] theorem pushOut_TSIZE (b : Byte) (s : State) : (s.pushOut b).TSIZE = s.TSIZE := rfl
@[simp] theorem pushOut_SHIFT (b : Byte) (s : State) : (s.pushOut b).SHIFT = s.SHIFT := rfl
@[simp] theorem pushOut_CS (b : Byte) (s : State) : (s.pushOut b).CS = s.CS := rfl
@[simp] theorem pushOut_CT (b : Byte) (s : State) : (s.pushOut b).CT = s.CT := rfl
@[simp] theorem pushOut_LIT (b : Byte) (s : State) : (s.pushOut b).LIT = s.LIT := rfl
@[simp] theorem pushOut_S0 (b : Byte) (s : State) : (s.pushOut b).S0 = s.S0 := rfl
@[simp] theorem pushOut_H (b : Byte) (s : State) : (s.pushOut b).H = s.H := rfl
@[simp] theorem pushOut_IDX (b : Byte) (s : State) : (s.pushOut b).IDX = s.IDX := rfl
@[simp] theorem pushOut_CAND (b : Byte) (s : State) : (s.pushOut b).CAND = s.CAND := rfl
@[simp] theorem pushOut_REM (b : Byte) (s : State) : (s.pushOut b).REM = s.REM := rfl
@[simp] theorem pushOut_ACC (b : Byte) (s : State) : (s.pushOut b).ACC = s.ACC := rfl
@[simp] theorem pushOut_SH (b : Byte) (s : State) : (s.pushOut b).SH = s.SH := rfl
@[simp] theorem pushOut_VI (b : Byte) (s : State) : (s.pushOut b).VI = s.VI := rfl
@[simp] theorem pushOut_PV (b : Byte) (s : State) : (s.pushOut b).PV = s.PV := rfl
@[simp] theorem pushOut_stage (b : Byte) (s : State) : (s.pushOut b).stage = s.stage := rfl
@[simp] theorem pushOut_draws (b : Byte) (s : State) : (s.pushOut b).draws = s.draws := rfl
@[simp] theorem pushOut_epoch (b : Byte) (s : State) : (s.pushOut b).epoch = s.epoch := rfl
@[simp] theorem pushOut_caps (b : Byte) (s : State) : (s.pushOut b).caps = s.caps := rfl
@[simp] theorem pushOut_host (b : Byte) (s : State) : (s.pushOut b).host = s.host := rfl
@[simp] theorem pushOut_rdata (b : Byte) (s : State) : (s.pushOut b).rdata = s.rdata := rfl

/-! ## draw -/

@[simp] theorem draw_OP (s : State) : (s.draw.2).OP = s.OP := rfl
@[simp] theorem draw_ARG (s : State) : (s.draw.2).ARG = s.ARG := rfl
@[simp] theorem draw_IN_LEN (s : State) : (s.draw.2).IN_LEN = s.IN_LEN := rfl
@[simp] theorem draw_OUT_LEN (s : State) : (s.draw.2).OUT_LEN = s.OUT_LEN := rfl
@[simp] theorem draw_STATUS (s : State) : (s.draw.2).STATUS = s.STATUS := rfl
@[simp] theorem draw_VSTAT (s : State) : (s.draw.2).VSTAT = s.VSTAT := rfl
@[simp] theorem draw_VALUE (s : State) : (s.draw.2).VALUE = s.VALUE := rfl
@[simp] theorem draw_NBYTES (s : State) : (s.draw.2).NBYTES = s.NBYTES := rfl
@[simp] theorem draw_PHASE (s : State) : (s.draw.2).PHASE = s.PHASE := rfl
@[simp] theorem draw_IN (s : State) : (s.draw.2).IN = s.IN := rfl
@[simp] theorem draw_OUT (s : State) : (s.draw.2).OUT = s.OUT := rfl
@[simp] theorem draw_TABLE (s : State) : (s.draw.2).TABLE = s.TABLE := rfl
@[simp] theorem draw_S (s : State) : (s.draw.2).S = s.S := rfl
@[simp] theorem draw_D (s : State) : (s.draw.2).D = s.D := rfl
@[simp] theorem draw_DLEN (s : State) : (s.draw.2).DLEN = s.DLEN := rfl
@[simp] theorem draw_B (s : State) : (s.draw.2).B = s.B := rfl
@[simp] theorem draw_TAG (s : State) : (s.draw.2).TAG = s.TAG := rfl
@[simp] theorem draw_M (s : State) : (s.draw.2).M = s.M := rfl
@[simp] theorem draw_X (s : State) : (s.draw.2).X = s.X := rfl
@[simp] theorem draw_LEN (s : State) : (s.draw.2).LEN = s.LEN := rfl
@[simp] theorem draw_OFF (s : State) : (s.draw.2).OFF = s.OFF := rfl
@[simp] theorem draw_N (s : State) : (s.draw.2).N = s.N := rfl
@[simp] theorem draw_W (s : State) : (s.draw.2).W = s.W := rfl
@[simp] theorem draw_TSIZE (s : State) : (s.draw.2).TSIZE = s.TSIZE := rfl
@[simp] theorem draw_SHIFT (s : State) : (s.draw.2).SHIFT = s.SHIFT := rfl
@[simp] theorem draw_CS (s : State) : (s.draw.2).CS = s.CS := rfl
@[simp] theorem draw_CT (s : State) : (s.draw.2).CT = s.CT := rfl
@[simp] theorem draw_LIT (s : State) : (s.draw.2).LIT = s.LIT := rfl
@[simp] theorem draw_S0 (s : State) : (s.draw.2).S0 = s.S0 := rfl
@[simp] theorem draw_H (s : State) : (s.draw.2).H = s.H := rfl
@[simp] theorem draw_IDX (s : State) : (s.draw.2).IDX = s.IDX := rfl
@[simp] theorem draw_CAND (s : State) : (s.draw.2).CAND = s.CAND := rfl
@[simp] theorem draw_REM (s : State) : (s.draw.2).REM = s.REM := rfl
@[simp] theorem draw_ACC (s : State) : (s.draw.2).ACC = s.ACC := rfl
@[simp] theorem draw_SH (s : State) : (s.draw.2).SH = s.SH := rfl
@[simp] theorem draw_VI (s : State) : (s.draw.2).VI = s.VI := rfl
@[simp] theorem draw_PV (s : State) : (s.draw.2).PV = s.PV := rfl
@[simp] theorem draw_stage (s : State) : (s.draw.2).stage = s.stage := rfl
@[simp] theorem draw_draws (s : State) : (s.draw.2).draws = s.draws + 1 := rfl
@[simp] theorem draw_epoch (s : State) : (s.draw.2).epoch = s.epoch := rfl
@[simp] theorem draw_caps (s : State) : (s.draw.2).caps = s.caps := rfl
@[simp] theorem draw_host (s : State) : (s.draw.2).host = s.host := rfl
@[simp] theorem draw_rdata (s : State) : (s.draw.2).rdata = s.rdata := rfl

/-! ## clearResults -/

@[simp] theorem clearResults_OP (s : State) : (clearResults s).OP = s.OP := rfl
@[simp] theorem clearResults_ARG (s : State) : (clearResults s).ARG = s.ARG := rfl
@[simp] theorem clearResults_IN_LEN (s : State) : (clearResults s).IN_LEN = s.IN_LEN := rfl
@[simp] theorem clearResults_OUT_LEN (s : State) : (clearResults s).OUT_LEN = 0 := rfl
@[simp] theorem clearResults_STATUS (s : State) : (clearResults s).STATUS = .ok := rfl
@[simp] theorem clearResults_VSTAT (s : State) : (clearResults s).VSTAT = .ok := rfl
@[simp] theorem clearResults_VALUE (s : State) : (clearResults s).VALUE = 0 := rfl
@[simp] theorem clearResults_NBYTES (s : State) : (clearResults s).NBYTES = 0 := rfl
@[simp] theorem clearResults_PHASE (s : State) : (clearResults s).PHASE = .run := rfl
@[simp] theorem clearResults_IN (s : State) : (clearResults s).IN = s.IN := rfl
@[simp] theorem clearResults_OUT (s : State) : (clearResults s).OUT = [] := rfl
@[simp] theorem clearResults_TABLE (s : State) : (clearResults s).TABLE = s.TABLE := rfl
@[simp] theorem clearResults_S (s : State) : (clearResults s).S = s.S := rfl
@[simp] theorem clearResults_D (s : State) : (clearResults s).D = s.D := rfl
@[simp] theorem clearResults_DLEN (s : State) : (clearResults s).DLEN = s.DLEN := rfl
@[simp] theorem clearResults_B (s : State) : (clearResults s).B = s.B := rfl
@[simp] theorem clearResults_TAG (s : State) : (clearResults s).TAG = s.TAG := rfl
@[simp] theorem clearResults_M (s : State) : (clearResults s).M = s.M := rfl
@[simp] theorem clearResults_X (s : State) : (clearResults s).X = s.X := rfl
@[simp] theorem clearResults_LEN (s : State) : (clearResults s).LEN = s.LEN := rfl
@[simp] theorem clearResults_OFF (s : State) : (clearResults s).OFF = s.OFF := rfl
@[simp] theorem clearResults_N (s : State) : (clearResults s).N = s.N := rfl
@[simp] theorem clearResults_W (s : State) : (clearResults s).W = s.W := rfl
@[simp] theorem clearResults_TSIZE (s : State) : (clearResults s).TSIZE = s.TSIZE := rfl
@[simp] theorem clearResults_SHIFT (s : State) : (clearResults s).SHIFT = s.SHIFT := rfl
@[simp] theorem clearResults_CS (s : State) : (clearResults s).CS = s.CS := rfl
@[simp] theorem clearResults_CT (s : State) : (clearResults s).CT = s.CT := rfl
@[simp] theorem clearResults_LIT (s : State) : (clearResults s).LIT = s.LIT := rfl
@[simp] theorem clearResults_S0 (s : State) : (clearResults s).S0 = s.S0 := rfl
@[simp] theorem clearResults_H (s : State) : (clearResults s).H = s.H := rfl
@[simp] theorem clearResults_IDX (s : State) : (clearResults s).IDX = s.IDX := rfl
@[simp] theorem clearResults_CAND (s : State) : (clearResults s).CAND = s.CAND := rfl
@[simp] theorem clearResults_REM (s : State) : (clearResults s).REM = s.REM := rfl
@[simp] theorem clearResults_ACC (s : State) : (clearResults s).ACC = s.ACC := rfl
@[simp] theorem clearResults_SH (s : State) : (clearResults s).SH = s.SH := rfl
@[simp] theorem clearResults_VI (s : State) : (clearResults s).VI = s.VI := rfl
@[simp] theorem clearResults_PV (s : State) : (clearResults s).PV = s.PV := rfl
@[simp] theorem clearResults_stage (s : State) : (clearResults s).stage = .begin := rfl
@[simp] theorem clearResults_draws (s : State) : (clearResults s).draws = s.draws := rfl
@[simp] theorem clearResults_epoch (s : State) : (clearResults s).epoch = s.epoch := rfl
@[simp] theorem clearResults_caps (s : State) : (clearResults s).caps = s.caps := rfl
@[simp] theorem clearResults_host (s : State) : (clearResults s).host = s.host := rfl
@[simp] theorem clearResults_rdata (s : State) : (clearResults s).rdata = s.rdata := rfl

/-! ## startScan -/

@[simp] theorem startScan_OP (s : State) : (startScan s).OP = s.OP := rfl
@[simp] theorem startScan_ARG (s : State) : (startScan s).ARG = s.ARG := rfl
@[simp] theorem startScan_IN_LEN (s : State) : (startScan s).IN_LEN = s.IN_LEN := rfl
@[simp] theorem startScan_OUT_LEN (s : State) : (startScan s).OUT_LEN = s.OUT_LEN := rfl
@[simp] theorem startScan_STATUS (s : State) : (startScan s).STATUS = s.STATUS := rfl
@[simp] theorem startScan_VSTAT (s : State) : (startScan s).VSTAT = s.VSTAT := rfl
@[simp] theorem startScan_VALUE (s : State) : (startScan s).VALUE = s.VALUE := rfl
@[simp] theorem startScan_NBYTES (s : State) : (startScan s).NBYTES = s.NBYTES := rfl
@[simp] theorem startScan_PHASE (s : State) : (startScan s).PHASE = s.PHASE := rfl
@[simp] theorem startScan_IN (s : State) : (startScan s).IN = s.IN := rfl
@[simp] theorem startScan_OUT (s : State) : (startScan s).OUT = s.OUT := rfl
@[simp] theorem startScan_TABLE (s : State) : (startScan s).TABLE = Store.clearBelow (tableSize s.N).1 s.TABLE := rfl
@[simp] theorem startScan_S (s : State) : (startScan s).S = s.S := rfl
@[simp] theorem startScan_D (s : State) : (startScan s).D = s.D := rfl
@[simp] theorem startScan_DLEN (s : State) : (startScan s).DLEN = s.DLEN := rfl
@[simp] theorem startScan_B (s : State) : (startScan s).B = s.B := rfl
@[simp] theorem startScan_TAG (s : State) : (startScan s).TAG = s.TAG := rfl
@[simp] theorem startScan_M (s : State) : (startScan s).M = s.M := rfl
@[simp] theorem startScan_X (s : State) : (startScan s).X = s.X := rfl
@[simp] theorem startScan_LEN (s : State) : (startScan s).LEN = s.LEN := rfl
@[simp] theorem startScan_OFF (s : State) : (startScan s).OFF = s.OFF := rfl
@[simp] theorem startScan_N (s : State) : (startScan s).N = s.N := rfl
@[simp] theorem startScan_W (s : State) : (startScan s).W = s.W := rfl
@[simp] theorem startScan_TSIZE (s : State) : (startScan s).TSIZE = (tableSize s.N).1 := rfl
@[simp] theorem startScan_SHIFT (s : State) : (startScan s).SHIFT = (tableSize s.N).2 := rfl
@[simp] theorem startScan_CS (s : State) : (startScan s).CS = 0 := rfl
@[simp] theorem startScan_CT (s : State) : (startScan s).CT = s.CT := rfl
@[simp] theorem startScan_LIT (s : State) : (startScan s).LIT = 0 := rfl
@[simp] theorem startScan_S0 (s : State) : (startScan s).S0 = s.S0 := rfl
@[simp] theorem startScan_H (s : State) : (startScan s).H = s.H := rfl
@[simp] theorem startScan_IDX (s : State) : (startScan s).IDX = s.IDX := rfl
@[simp] theorem startScan_CAND (s : State) : (startScan s).CAND = s.CAND := rfl
@[simp] theorem startScan_REM (s : State) : (startScan s).REM = s.REM := rfl
@[simp] theorem startScan_ACC (s : State) : (startScan s).ACC = s.ACC := rfl
@[simp] theorem startScan_SH (s : State) : (startScan s).SH = s.SH := rfl
@[simp] theorem startScan_VI (s : State) : (startScan s).VI = s.VI := rfl
@[simp] theorem startScan_PV (s : State) : (startScan s).PV = s.PV := rfl
@[simp] theorem startScan_stage (s : State) : (startScan s).stage = .scan := rfl
@[simp] theorem startScan_draws (s : State) : (startScan s).draws = s.draws := rfl
@[simp] theorem startScan_epoch (s : State) : (startScan s).epoch = s.epoch := rfl
@[simp] theorem startScan_caps (s : State) : (startScan s).caps = s.caps := rfl
@[simp] theorem startScan_host (s : State) : (startScan s).host = s.host := rfl
@[simp] theorem startScan_rdata (s : State) : (startScan s).rdata = s.rdata := rfl

/-! ## lookup -/

@[simp] theorem lookup_OP (s : State) : (lookup s).OP = s.OP := rfl
@[simp] theorem lookup_ARG (s : State) : (lookup s).ARG = s.ARG := rfl
@[simp] theorem lookup_IN_LEN (s : State) : (lookup s).IN_LEN = s.IN_LEN := rfl
@[simp] theorem lookup_OUT_LEN (s : State) : (lookup s).OUT_LEN = s.OUT_LEN := rfl
@[simp] theorem lookup_STATUS (s : State) : (lookup s).STATUS = s.STATUS := rfl
@[simp] theorem lookup_VSTAT (s : State) : (lookup s).VSTAT = s.VSTAT := rfl
@[simp] theorem lookup_VALUE (s : State) : (lookup s).VALUE = s.VALUE := rfl
@[simp] theorem lookup_NBYTES (s : State) : (lookup s).NBYTES = s.NBYTES := rfl
@[simp] theorem lookup_PHASE (s : State) : (lookup s).PHASE = s.PHASE := rfl
@[simp] theorem lookup_IN (s : State) : (lookup s).IN = s.IN := rfl
@[simp] theorem lookup_OUT (s : State) : (lookup s).OUT = s.OUT := rfl
@[simp] theorem lookup_TABLE (s : State) : (lookup s).TABLE = Store.write s.TABLE (hashBucket (s.readIn32 s.CS) s.SHIFT).toNat (BitVec.ofNat 32 s.CS) := rfl
@[simp] theorem lookup_S (s : State) : (lookup s).S = s.S := rfl
@[simp] theorem lookup_D (s : State) : (lookup s).D = s.D := rfl
@[simp] theorem lookup_DLEN (s : State) : (lookup s).DLEN = s.DLEN := rfl
@[simp] theorem lookup_B (s : State) : (lookup s).B = s.B := rfl
@[simp] theorem lookup_TAG (s : State) : (lookup s).TAG = s.TAG := rfl
@[simp] theorem lookup_M (s : State) : (lookup s).M = s.M := rfl
@[simp] theorem lookup_X (s : State) : (lookup s).X = s.X := rfl
@[simp] theorem lookup_LEN (s : State) : (lookup s).LEN = s.LEN := rfl
@[simp] theorem lookup_OFF (s : State) : (lookup s).OFF = s.OFF := rfl
@[simp] theorem lookup_N (s : State) : (lookup s).N = s.N := rfl
@[simp] theorem lookup_W (s : State) : (lookup s).W = s.W := rfl
@[simp] theorem lookup_TSIZE (s : State) : (lookup s).TSIZE = s.TSIZE := rfl
@[simp] theorem lookup_SHIFT (s : State) : (lookup s).SHIFT = s.SHIFT := rfl
@[simp] theorem lookup_CS (s : State) : (lookup s).CS = s.CS := rfl
@[simp] theorem lookup_CT (s : State) : (lookup s).CT = s.CT := rfl
@[simp] theorem lookup_LIT (s : State) : (lookup s).LIT = s.LIT := rfl
@[simp] theorem lookup_S0 (s : State) : (lookup s).S0 = s.S0 := rfl
@[simp] theorem lookup_H (s : State) : (lookup s).H = s.readIn32 s.CS := rfl
@[simp] theorem lookup_IDX (s : State) : (lookup s).IDX = hashBucket (s.readIn32 s.CS) s.SHIFT := rfl
@[simp] theorem lookup_CAND (s : State) : (lookup s).CAND = s.readTable (hashBucket (s.readIn32 s.CS) s.SHIFT).toNat := rfl
@[simp] theorem lookup_REM (s : State) : (lookup s).REM = s.REM := rfl
@[simp] theorem lookup_ACC (s : State) : (lookup s).ACC = s.ACC := rfl
@[simp] theorem lookup_SH (s : State) : (lookup s).SH = s.SH := rfl
@[simp] theorem lookup_VI (s : State) : (lookup s).VI = s.VI := rfl
@[simp] theorem lookup_PV (s : State) : (lookup s).PV = s.PV := rfl
@[simp] theorem lookup_stage (s : State) : (lookup s).stage = s.stage := rfl
@[simp] theorem lookup_draws (s : State) : (lookup s).draws = s.draws := rfl
@[simp] theorem lookup_epoch (s : State) : (lookup s).epoch = s.epoch := rfl
@[simp] theorem lookup_caps (s : State) : (lookup s).caps = s.caps := rfl
@[simp] theorem lookup_host (s : State) : (lookup s).host = s.host := rfl
@[simp] theorem lookup_rdata (s : State) : (lookup s).rdata = s.rdata := rfl

/-! ## extendMatch -/

@[simp] theorem extendMatch_OP (s : State) : (extendMatch s).OP = s.OP := rfl
@[simp] theorem extendMatch_ARG (s : State) : (extendMatch s).ARG = s.ARG := rfl
@[simp] theorem extendMatch_IN_LEN (s : State) : (extendMatch s).IN_LEN = s.IN_LEN := rfl
@[simp] theorem extendMatch_OUT_LEN (s : State) : (extendMatch s).OUT_LEN = s.OUT_LEN := rfl
@[simp] theorem extendMatch_STATUS (s : State) : (extendMatch s).STATUS = s.STATUS := rfl
@[simp] theorem extendMatch_VSTAT (s : State) : (extendMatch s).VSTAT = s.VSTAT := rfl
@[simp] theorem extendMatch_VALUE (s : State) : (extendMatch s).VALUE = s.VALUE := rfl
@[simp] theorem extendMatch_NBYTES (s : State) : (extendMatch s).NBYTES = s.NBYTES := rfl
@[simp] theorem extendMatch_PHASE (s : State) : (extendMatch s).PHASE = s.PHASE := rfl
@[simp] theorem extendMatch_IN (s : State) : (extendMatch s).IN = s.IN := rfl
@[simp] theorem extendMatch_OUT (s : State) : (extendMatch s).OUT = s.OUT := rfl
@[simp] theorem extendMatch_TABLE (s : State) : (extendMatch s).TABLE = s.TABLE := rfl
@[simp] theorem extendMatch_S (s : State) : (extendMatch s).S = s.S := rfl
@[simp] theorem extendMatch_D (s : State) : (extendMatch s).D = s.D := rfl
@[simp] theorem extendMatch_DLEN (s : State) : (extendMatch s).DLEN = s.DLEN := rfl
@[simp] theorem extendMatch_B (s : State) : (extendMatch s).B = s.B := rfl
@[simp] theorem extendMatch_TAG (s : State) : (extendMatch s).TAG = s.TAG := rfl
@[simp] theorem extendMatch_M (s : State) : (extendMatch s).M = s.M := rfl
@[simp] theorem extendMatch_X (s : State) : (extendMatch s).X = s.X := rfl
@[simp] theorem extendMatch_LEN (s : State) : (extendMatch s).LEN = s.LEN := rfl
@[simp] theorem extendMatch_OFF (s : State) : (extendMatch s).OFF = s.OFF := rfl
@[simp] theorem extendMatch_N (s : State) : (extendMatch s).N = s.N := rfl
@[simp] theorem extendMatch_W (s : State) : (extendMatch s).W = s.W := rfl
@[simp] theorem extendMatch_TSIZE (s : State) : (extendMatch s).TSIZE = s.TSIZE := rfl
@[simp] theorem extendMatch_SHIFT (s : State) : (extendMatch s).SHIFT = s.SHIFT := rfl
@[simp] theorem extendMatch_CS (s : State) : (extendMatch s).CS = (extendLoop s.readIn s.N (s.N - (s.CS + Config.minMatch)) (s.CS + Config.minMatch) (s.CT + Config.minMatch)).1 := rfl
@[simp] theorem extendMatch_CT (s : State) : (extendMatch s).CT = (extendLoop s.readIn s.N (s.N - (s.CS + Config.minMatch)) (s.CS + Config.minMatch) (s.CT + Config.minMatch)).2 := rfl
@[simp] theorem extendMatch_LIT (s : State) : (extendMatch s).LIT = s.LIT := rfl
@[simp] theorem extendMatch_S0 (s : State) : (extendMatch s).S0 = s.CS := rfl
@[simp] theorem extendMatch_H (s : State) : (extendMatch s).H = s.H := rfl
@[simp] theorem extendMatch_IDX (s : State) : (extendMatch s).IDX = s.IDX := rfl
@[simp] theorem extendMatch_CAND (s : State) : (extendMatch s).CAND = s.CAND := rfl
@[simp] theorem extendMatch_REM (s : State) : (extendMatch s).REM = s.REM := rfl
@[simp] theorem extendMatch_ACC (s : State) : (extendMatch s).ACC = s.ACC := rfl
@[simp] theorem extendMatch_SH (s : State) : (extendMatch s).SH = s.SH := rfl
@[simp] theorem extendMatch_VI (s : State) : (extendMatch s).VI = s.VI := rfl
@[simp] theorem extendMatch_PV (s : State) : (extendMatch s).PV = s.PV := rfl
@[simp] theorem extendMatch_stage (s : State) : (extendMatch s).stage = s.stage := rfl
@[simp] theorem extendMatch_draws (s : State) : (extendMatch s).draws = s.draws := rfl
@[simp] theorem extendMatch_epoch (s : State) : (extendMatch s).epoch = s.epoch := rfl
@[simp] theorem extendMatch_caps (s : State) : (extendMatch s).caps = s.caps := rfl
@[simp] theorem extendMatch_host (s : State) : (extendMatch s).host = s.host := rfl
@[simp] theorem extendMatch_rdata (s : State) : (extendMatch s).rdata = s.rdata := rfl

/-! ## Reads of `IN` -/

@[simp] theorem raise_readIn (k : ErrKind) (s : State) (i : Nat) : (raise k s).readIn i = s.readIn i := rfl
@[simp] theorem succeed_readIn (n : Word64) (s : State) (i : Nat) : (succeed n s).readIn i = s.readIn i := rfl
@[simp] theorem setVarintOutputs_readIn (r : VarintResult) (s : State) (i : Nat) : (setVarintOutputs r s).readIn i = s.readIn i := rfl
@[simp] theorem setVarintRegs_readIn (r : VarintRun) (s : State) (i : Nat) : (setVarintRegs r s).readIn i = s.readIn i := rfl
@[simp] theorem fetchChunk_readIn (s : State) (i : Nat) : (fetchChunk s).readIn i = s.readIn i := rfl
@[simp] theorem pushOut_readIn (b : Byte) (s : State) (i : Nat) : (s.pushOut b).readIn i = s.readIn i := rfl
@[simp] theorem draw_readIn (s : State) (i : Nat) : (s.draw.2).readIn i = s.readIn i := rfl
@[simp] theorem clearResults_readIn (s : State) (i : Nat) : (clearResults s).readIn i = s.readIn i := rfl
@[simp] theorem startScan_readIn (s : State) (i : Nat) : (startScan s).readIn i = s.readIn i := rfl
@[simp] theorem lookup_readIn (s : State) (i : Nat) : (lookup s).readIn i = s.readIn i := rfl
@[simp] theorem extendMatch_readIn (s : State) (i : Nat) : (extendMatch s).readIn i = s.readIn i := rfl

/-- A read of `IN` depends on `IN` and the RESET count only. -/
theorem readIn_congr {s t : State} (h : t.IN = s.IN) (he : t.epoch = s.epoch) (i : Nat) : t.readIn i = s.readIn i := by
  unfold State.readIn; rw [h, he]

theorem inBytes_congr {s t : State} (h : t.IN = s.IN) (he : t.epoch = s.epoch) (a n : Nat) :
    t.inBytes a n = s.inBytes a n := by
  induction n generalizing a with
  | zero => rfl
  | succ n ih => simp only [State.inBytes, readIn_congr h he, ih]

theorem readIn32_congr {s t : State} (h : t.IN = s.IN) (he : t.epoch = s.epoch) (a : Nat) :
    t.readIn32 a = s.readIn32 a := by
  simp only [State.readIn32, readIn_congr h he]

@[simp] theorem inBytes_length (s : State) (a n : Nat) : (s.inBytes a n).length = n := by
  induction n generalizing a with
  | zero => rfl
  | succ n ih => simp [State.inBytes, ih]

theorem inBytes_getElem? (s : State) (a n i : Nat) (h : i < n) : (s.inBytes a n)[i]? = some (s.readIn (a + i)) := by
  induction n generalizing a i with
  | zero => omega
  | succ n ih =>
    cases i with
    | zero => simp [State.inBytes]
    | succ i =>
      simp only [State.inBytes, List.getElem?_cons_succ]
      rw [ih (a + 1) i (by omega)]
      congr 2; omega

end Sys2Proof.Machine
end

