-- ==== Sys2Proof/Laws/Memory.lean ====
section
/-! SUPPORT. The laws of the sparse arrays: a read after a write, and the canonical form `Memory.wf`, which every
operation keeps. -/

namespace Sys2Proof.Machine

variable {α : Type}

/-! ## Read after write -/

@[simp] theorem read_nil (a : Nat) : Store.read ([] : Store α) a = none := rfl

@[simp] theorem read_write_same (m : Store α) (a : Nat) (v : α) : Store.read (Store.write m a v) a = some v := by
  induction m with
  | nil => simp [Store.write, Store.read]
  | cons e m ih =>
    obtain ⟨k, w⟩ := e
    unfold Store.write
    split
    · simp [Store.read]
    · split
      · simp [Store.read]
      · simp [Store.read, *]

theorem read_write_other (m : Store α) {a b : Nat} (v : α) (h : b ≠ a) :
    Store.read (Store.write m a v) b = Store.read m b := by
  induction m with
  | nil => simp [Store.write, Store.read, h]
  | cons e m ih =>
    obtain ⟨k, w⟩ := e
    unfold Store.write
    split
    · simp [Store.read, h]
    · split
      · next hk => subst hk; simp [Store.read, h]
      · simp [Store.read, ih]

theorem read_write (m : Store α) (a b : Nat) (v : α) :
    Store.read (Store.write m a v) b = if b = a then some v else Store.read m b := by
  split
  · next h => subst h; simp
  · next h => exact read_write_other m v h

/-- What a read finds after a run of writes. -/
theorem read_writeList (m : Store α) (a b : Nat) (vs : List α) :
    Store.read (Store.writeList m a vs) b = if a ≤ b ∧ b < a + vs.length then vs[b - a]? else Store.read m b := by
  induction vs generalizing m a with
  | nil => simp [Store.writeList]
  | cons v vs ih =>
    rw [Store.writeList, ih, read_write]
    by_cases hb : b = a
    · subst hb; simp
    · by_cases h : a + 1 ≤ b ∧ b < a + 1 + vs.length
      · have h2 : a ≤ b ∧ b < a + (v :: vs).length := by simp; omega
        rw [if_pos h, if_pos h2]
        obtain ⟨d, rfl⟩ : ∃ d, b = a + 1 + d := ⟨b - (a + 1), by omega⟩
        have e1 : a + 1 + d - (a + 1) = d := by omega
        have e2 : a + 1 + d - a = d + 1 := by omega
        rw [e1, e2]; rfl
      · have h2 : ¬ (a ≤ b ∧ b < a + (v :: vs).length) := by simp; omega
        rw [if_neg h, if_neg h2, if_neg hb]

theorem writeList_append (m : Store α) (a : Nat) (xs ys : List α) :
    Store.writeList m a (xs ++ ys) = Store.writeList (Store.writeList m a xs) (a + xs.length) ys := by
  induction xs generalizing m a with
  | nil => rfl
  | cons x xs ih =>
    simp only [List.cons_append, Store.writeList, ih, List.length_cons]
    congr 1; omega

/-- A read after clearing finds nothing below the bound and the old entry elsewhere. -/
theorem read_clearBelow (m : Store α) (n a : Nat) :
    Store.read (Store.clearBelow n m) a = if a < n then none else Store.read m a := by
  induction m with
  | nil => simp [Store.clearBelow]
  | cons e m ih =>
    obtain ⟨k, w⟩ := e
    unfold Store.clearBelow at ih ⊢
    rw [List.filter_cons]
    by_cases hk : n ≤ k
    · simp only [hk, decide_true, if_true, Store.read, ih]
      split
      · next h => subst h; rw [if_neg (by omega)]
      · rfl
    · simp only [hk, decide_false, Bool.false_eq_true, if_false, ih, Store.read]
      split
      · rfl
      · next h => rw [if_neg (by omega : a ≠ k)]

/-! ## The canonical form -/

@[simp] theorem wf_nil : Memory.wf ([] : Store α) := List.Pairwise.nil

theorem mem_write {m : Store α} {a : Nat} {v : α} {k : Nat} (h : k ∈ (Store.write m a v).map Prod.fst) :
    k = a ∨ k ∈ m.map Prod.fst := by
  induction m with
  | nil => simpa [Store.write] using h
  | cons e m ih =>
    obtain ⟨j, w⟩ := e
    unfold Store.write at h
    split at h
    · simpa using h
    · split at h
      · simp only [List.map_cons, List.mem_cons] at h ⊢
        tauto
      · simp only [List.map_cons, List.mem_cons] at h ⊢
        rcases h with h | h
        · exact .inr (.inl h)
        · rcases ih h with h | h
          · exact .inl h
          · exact .inr (.inr h)

/-- A write keeps the canonical form. -/
theorem wf_write {m : Store α} (h : Memory.wf m) (a : Nat) (v : α) : Memory.wf (Store.write m a v) := by
  induction m with
  | nil => simp [Store.write, Memory.wf]
  | cons e m ih =>
    obtain ⟨k, w⟩ := e
    simp only [Memory.wf, List.map_cons, List.pairwise_cons] at h
    unfold Store.write
    split
    · next hak =>
      simp only [Memory.wf, List.map_cons, List.pairwise_cons, List.mem_cons]
      refine ⟨?_, h⟩
      rintro b (rfl | hb)
      · exact hak
      · exact Nat.lt_trans hak (h.1 b hb)
    · split
      · next hak => subst hak; simpa only [Memory.wf, List.map_cons, List.pairwise_cons] using h
      · next h1 h2 =>
        simp only [Memory.wf, List.map_cons, List.pairwise_cons]
        refine ⟨fun b hb => ?_, ih h.2⟩
        rcases mem_write hb with rfl | hb
        · omega
        · exact h.1 b hb

/-- A run of writes keeps the canonical form. -/
theorem wf_writeList {m : Store α} (h : Memory.wf m) (a : Nat) (vs : List α) : Memory.wf (Store.writeList m a vs) := by
  induction vs generalizing m a with
  | nil => exact h
  | cons v vs ih => exact ih (wf_write h a v) (a + 1)

/-- Clearing keeps the canonical form. -/
theorem wf_clearBelow {m : Store α} (h : Memory.wf m) (n : Nat) : Memory.wf (Store.clearBelow n m) :=
  List.Pairwise.sublist (List.Sublist.map _ List.filter_sublist) h

/-! ## Dense arrays -/

theorem dense_wf {m : Store α} {n : Nat} (h : Store.dense m n) : Memory.wf m := by
  unfold Memory.wf; rw [h]; exact List.pairwise_lt_range

@[simp] theorem dense_nil : Store.dense ([] : Store α) 0 := rfl

theorem write_above {m : Store α} {a : Nat} (v : α) (h : ∀ k ∈ m.map Prod.fst, k < a) :
    Store.write m a v = m ++ [(a, v)] := by
  induction m with
  | nil => rfl
  | cons e m ih =>
    obtain ⟨k, w⟩ := e
    have hk : k < a := h k (by simp)
    unfold Store.write
    rw [if_neg (by omega), if_neg (by omega), ih (fun j hj => h j (by simp [hj]))]
    rfl

/-- Writing the next cell keeps an array dense. -/
theorem dense_write {m : Store α} {n : Nat} (h : Store.dense m n) (v : α) : Store.dense (Store.write m n v) (n + 1) := by
  have hlt : ∀ k ∈ m.map Prod.fst, k < n := by rw [h]; intro k hk; exact List.mem_range.mp hk
  unfold Store.dense
  rw [write_above v hlt, List.map_append, h, List.range_succ]; rfl

theorem dense_writeList {m : Store α} {n : Nat} (h : Store.dense m n) (vs : List α) :
    Store.dense (Store.writeList m n vs) (n + vs.length) := by
  induction vs generalizing m n with
  | nil => exact h
  | cons v vs ih =>
    have := ih (dense_write h v)
    rw [List.length_cons, Store.writeList]
    have e : n + (vs.length + 1) = n + 1 + vs.length := by omega
    rw [e]; exact this

theorem read_none_of_not_mem {m : Store α} {a : Nat} (h : a ∉ m.map Prod.fst) : Store.read m a = none := by
  induction m with
  | nil => rfl
  | cons e m ih =>
    obtain ⟨k, w⟩ := e
    simp only [List.map_cons, List.mem_cons, not_or] at h
    rw [Store.read, if_neg h.1, ih h.2]

theorem read_some_of_mem {m : Store α} {a : Nat} (h : a ∈ m.map Prod.fst) : ∃ v, Store.read m a = some v := by
  induction m with
  | nil => simp at h
  | cons e m ih =>
    obtain ⟨k, w⟩ := e
    by_cases ha : a = k
    · exact ⟨w, by rw [Store.read, if_pos ha]⟩
    · simp only [List.map_cons, List.mem_cons, ha, false_or] at h
      obtain ⟨v, hv⟩ := ih h
      exact ⟨v, by rw [Store.read, if_neg ha, hv]⟩

/-- In a dense array exactly the cells below the bound are defined. -/
theorem dense_read {m : Store α} {n : Nat} (h : Store.dense m n) (a : Nat) : (∃ v, Store.read m a = some v) ↔ a < n := by
  constructor
  · rintro ⟨v, hv⟩
    by_contra hn
    rw [read_none_of_not_mem (by rw [h]; simpa using hn)] at hv
    cases hv
  · intro ha; exact read_some_of_mem (by rw [h]; simpa using ha)

theorem dense_read_none {m : Store α} {n : Nat} (h : Store.dense m n) {a : Nat} (ha : n ≤ a) : Store.read m a = none :=
  read_none_of_not_mem (by rw [h]; simpa using ha)

end Sys2Proof.Machine
end

