-- ==== Sys2Proof/Laws/Chunk.lean ====
section
/-! SUPPORT. What a chunk can do, said once for the shared tails: the literal tail (R158, R159), the copy engine (R162,
R163) and the copy tail. -/

namespace Sys2Proof.Machine

/-! ## Literals -/

theorem literalLenIllegal_iff (len : Word32) :
    literalLenIllegal len = true ↔ len.toNat = 0 ∨ 2 ^ 31 ≤ len.toNat := by
  unfold literalLenIllegal
  rw [decide_eq_true_eq, BitVec.toInt_eq_toNat_cond]
  have := len.isLt
  split <;> omega

/-- The state after a literal of `n` bytes behind `k` bytes of tag and length field, field value `x` (R158, R159). -/
def literalDone (k : Nat) (x : Word32) (s : State) : State :=
  { s with
    X := x
    LEN := literalLen x
    OUT := Store.writeList s.OUT s.D (s.inBytes (s.S + k) (literalLen x).toNat)
    D := s.D + (literalLen x).toNat
    S := s.S + k + (literalLen x).toNat }

/-- The registers a literal has written when one of its tests fails. -/
def literalFetched (k : Nat) (x : Word32) (s : State) : State :=
  { s with X := x, S := s.S + k, LEN := literalLen x }

/-- Everything the literal tail can do. -/
theorem literalTail_cases (k : Nat) (x : Word32) (s : State) :
    (((literalLen x).toNat = 0 ∨ 2 ^ 31 ≤ (literalLen x).toNat) ∧
      literalTail k x s = .next (raise .unsupported (literalFetched k x s))) ∨
    (0 < (literalLen x).toNat ∧ (literalLen x).toNat < 2 ^ 31 ∧
      (s.DLEN.toNat - s.D < (literalLen x).toNat ∨ s.IN_LEN.toNat - (s.S + k) < (literalLen x).toNat) ∧
      literalTail k x s = .next (raise .corrupt (literalFetched k x s))) ∨
    (0 < (literalLen x).toNat ∧ (literalLen x).toNat < 2 ^ 31 ∧
      s.D + (literalLen x).toNat ≤ s.DLEN.toNat ∧ s.S + k + (literalLen x).toNat ≤ s.IN_LEN.toNat ∧
      literalTail k x s = .next (literalDone k x s)) := by
  have hi := literalLenIllegal_iff (literalLen x)
  unfold literalTail
  by_cases h : literalLenIllegal (literalLen x) = true
  · left
    refine ⟨hi.mp h, ?_⟩
    simp only [h, if_true]; rfl
  · right
    have hn := mt hi.mpr h
    simp only [h, Bool.false_eq_true, if_false]
    unfold literalMove
    dsimp only
    by_cases h1 : (literalLen x).toNat > s.DLEN.toNat - s.D
    · left; rw [if_pos h1]; exact ⟨by omega, by omega, .inl h1, rfl⟩
    · rw [if_neg h1]
      by_cases h2 : (literalLen x).toNat > s.IN_LEN.toNat - (s.S + k)
      · left; rw [if_pos h2]; exact ⟨by omega, by omega, .inr h2, rfl⟩
      · right; rw [if_neg h2]
        refine ⟨by omega, by omega, by omega, by omega, ?_⟩
        unfold literalDone
        rw [← inBytes_congr (s := s) (t := literalFetched k x s) rfl rfl]
        rfl

/-! ## The copy engine -/

/-- The copy engine changes `OUT`, `D` and the draw counter only. -/
theorem copyLoop_frame (off n : Nat) (s : State) :
    copyLoop off n s =
      { s with OUT := (copyLoop off n s).OUT, D := s.D + n, draws := (copyLoop off n s).draws } := by
  induction n generalizing s with
  | zero => rfl
  | succ n ih =>
    simp only [copyLoop]
    rw [ih]
    unfold State.readOut
    split
    · simp only [State.pushOut]; congr 1; omega
    · simp only [State.draw, State.pushOut]; congr 1; omega

@[simp] theorem copyLoop_D (off n : Nat) (s : State) : (copyLoop off n s).D = s.D + n := by
  rw [copyLoop_frame]

/-- Cells outside `[D, D + n)` are as before. -/
theorem copyLoop_read_outside (off n : Nat) (s : State) (a : Nat) (h : a < s.D ∨ s.D + n ≤ a) :
    Store.read (copyLoop off n s).OUT a = Store.read s.OUT a := by
  induction n generalizing s with
  | zero => rfl
  | succ n ih =>
    have key : ∀ (b : Byte) (t : State), t.D = s.D → t.OUT = s.OUT →
        Store.read (copyLoop off n (t.pushOut b)).OUT a = Store.read s.OUT a := by
      intro b t hD hO
      rw [ih (t.pushOut b) (by simp only [pushOut_D, hD]; omega), pushOut_OUT, hO, hD, read_write_other _ _ (by omega)]
    simp only [copyLoop]
    unfold State.readOut
    split
    · exact key _ _ rfl rfl
    · exact key _ _ rfl rfl

/-- The copy engine defines the cells `[D, D + n)`. -/
theorem copyLoop_read_defined (off n : Nat) (s : State) (a : Nat) (h1 : s.D ≤ a) (h2 : a < s.D + n) :
    ∃ b, Store.read (copyLoop off n s).OUT a = some b := by
  induction n generalizing s with
  | zero => omega
  | succ n ih =>
    have key : ∀ (b : Byte) (t : State), t.D = s.D →
        ∃ c, Store.read (copyLoop off n (t.pushOut b)).OUT a = some c := by
      intro b t hD
      by_cases ha : a = s.D
      · refine ⟨b, ?_⟩
        rw [copyLoop_read_outside off n (t.pushOut b) a (by simp only [pushOut_D]; omega), pushOut_OUT, hD, ha]
        simp
      · exact ih (t.pushOut b) (by simp only [pushOut_D]; omega) (by simp only [pushOut_D]; omega)
    simp only [copyLoop]
    unfold State.readOut
    split
    · exact key _ _ rfl
    · exact key _ _ rfl

/-- A dense output stays dense. -/
theorem copyLoop_dense (off n : Nat) {s : State} (h : Store.dense s.OUT s.D) :
    Store.dense (copyLoop off n s).OUT (s.D + n) := by
  induction n generalizing s with
  | zero => exact h
  | succ n ih =>
    have key : ∀ (b : Byte) (t : State), t.D = s.D → t.OUT = s.OUT →
        Store.dense (copyLoop off n (t.pushOut b)).OUT (s.D + (n + 1)) := by
      intro b t hD hO
      have h2 := ih (s := t.pushOut b) (by simp only [pushOut_OUT, pushOut_D, hD, hO]; exact dense_write h b)
      rw [pushOut_D, hD] at h2
      have e : s.D + (n + 1) = s.D + 1 + n := by omega
      rw [e]; exact h2
    simp only [copyLoop]
    unfold State.readOut
    split
    · exact key _ _ rfl rfl
    · exact key _ _ rfl rfl

/-- The canonical form of `OUT` is kept. -/
theorem copyLoop_wf (off n : Nat) {s : State} (h : Memory.wf s.OUT) : Memory.wf (copyLoop off n s).OUT := by
  induction n generalizing s with
  | zero => exact h
  | succ n ih =>
    simp only [copyLoop]
    unfold State.readOut
    split
    · exact ih (by simp only [pushOut_OUT]; exact wf_write h _ _)
    · exact ih (by simp only [pushOut_OUT, draw_OUT, draw_D]; exact wf_write h _ _)

theorem readOut_defined {s : State} {a : Nat} {b : Byte} (h : Store.read s.OUT a = some b) : s.readOut a = (b, s) := by
  unfold State.readOut; rw [h]

theorem readOut_undefined {s : State} {a : Nat} (h : Store.read s.OUT a = none) : s.readOut a = s.draw := by
  unfold State.readOut; rw [h]

/-- With an offset of at least 1 into defined cells the copied bytes repeat the last `off` bytes, and nothing is drawn
(R168). -/
theorem copyLoop_repeats (off n : Nat) {s : State} (h1 : 1 ≤ off) (h2 : off ≤ s.D)
    (hd : ∀ a, s.D - off ≤ a → a < s.D → ∃ b, Store.read s.OUT a = some b) :
    (copyLoop off n s).draws = s.draws ∧
    ∀ j, j < n → Store.read (copyLoop off n s).OUT (s.D + j) = Store.read s.OUT (s.D - off + j % off) := by
  induction n generalizing s with
  | zero => exact ⟨rfl, fun j hj => absurd hj (Nat.not_lt_zero j)⟩
  | succ n ih =>
    obtain ⟨b, hb⟩ := hd (s.D - off) (Nat.le_refl _) (by omega)
    have step : copyLoop off (n + 1) s = copyLoop off n (s.pushOut b) := by
      rw [copyLoop]; simp only [readOut_defined hb]
    rw [step]
    have old : ∀ a, a ≠ s.D → Store.read (s.pushOut b).OUT a = Store.read s.OUT a := fun a ha => by
      rw [pushOut_OUT, read_write_other _ _ ha]
    obtain ⟨i1, i2⟩ := ih (s := s.pushOut b) (by rw [pushOut_D]; omega) (fun a ha hb' => by
      rw [pushOut_D] at ha hb'
      by_cases hD : a = s.D
      · exact ⟨b, by rw [hD, pushOut_OUT]; simp⟩
      · rw [old a hD]; exact hd a (by omega) (by omega))
    refine ⟨i1, fun j hj => ?_⟩
    cases j with
    | zero =>
      rw [copyLoop_read_outside off n (s.pushOut b) _ (by rw [pushOut_D]; omega), Nat.add_zero, pushOut_OUT, read_write_same,
        Nat.zero_mod, Nat.add_zero, hb]
    | succ j =>
      have e := i2 j (by omega)
      rw [pushOut_D] at e
      have e1 : s.D + (j + 1) = s.D + 1 + j := by omega
      rw [e1, e]
      have hlt : j % off < off := Nat.mod_lt _ (by omega)
      by_cases hw : j % off = off - 1
      · have hz : (j + 1) % off = 0 := by
          rw [← Nat.mod_add_div j off, hw]
          have e2 : off - 1 + off * (j / off) + 1 = off * (j / off + 1) := by rw [Nat.mul_add, Nat.mul_one]; omega
          rw [e2, Nat.mul_mod_right]
        have e3 : s.D + 1 - off + j % off = s.D := by omega
        rw [hz, e3, pushOut_OUT, read_write_same, Nat.add_zero, hb]
      · have hz : (j + 1) % off = j % off + 1 := by
          have e2 : j + 1 = (j % off + 1) + off * (j / off) := by
            have := Nat.mod_add_div j off; omega
          rw [e2, Nat.add_mul_mod_self_left, Nat.mod_eq_of_lt (by omega)]
        rw [hz, old _ (by omega)]
        congr 1; omega

/-- With offset 0 every byte is drawn (R163), the cells from `D` on being undefined. -/
theorem copyLoop_draws (n : Nat) {s : State} (hu : ∀ a, s.D ≤ a → Store.read s.OUT a = none) :
    (copyLoop 0 n s).draws = s.draws + n ∧
    ∀ j, j < n → Store.read (copyLoop 0 n s).OUT (s.D + j) = some (Config.freeByte (s.draws + j)) := by
  induction n generalizing s with
  | zero => exact ⟨rfl, fun j hj => absurd hj (Nat.not_lt_zero j)⟩
  | succ n ih =>
    have step : copyLoop 0 (n + 1) s = copyLoop 0 n (s.draw.2.pushOut s.draw.1) := by
      rw [copyLoop]; simp only [Nat.sub_zero, readOut_undefined (hu s.D (Nat.le_refl _))]
    rw [step]
    obtain ⟨i1, i2⟩ := ih (s := s.draw.2.pushOut s.draw.1) (fun a ha => by
      rw [pushOut_D, draw_D] at ha
      rw [pushOut_OUT, draw_D, draw_OUT, read_write_other _ _ (by omega)]
      exact hu a (by omega))
    have hd : (s.draw.2.pushOut s.draw.1).draws = s.draws + 1 := rfl
    rw [hd] at i1 i2
    refine ⟨by rw [i1]; omega, fun j hj => ?_⟩
    cases j with
    | zero =>
      rw [copyLoop_read_outside 0 n _ _ (by rw [pushOut_D, draw_D]; omega), Nat.add_zero, pushOut_OUT, draw_D, read_write_same]
      rfl
    | succ j =>
      have e := i2 j (by omega)
      rw [pushOut_D, draw_D] at e
      have e1 : s.D + (j + 1) = s.D + 1 + j := by omega
      have e2 : s.draws + (j + 1) = s.draws + 1 + j := by omega
      rw [e1, e2, e]

/-! ## Copies -/

/-- The registers a copy has written when its tests begin. -/
def copyFetched (k : Nat) (len : Word32) (off : BitVec 16) (s : State) : State :=
  { s with LEN := len, OFF := off, S := s.S + k }

/-- Everything the copy tail can do. -/
theorem copyTail_cases (k : Nat) (len : Word32) (off : BitVec 16) (s : State) :
    ((s.D < off.toNat ∨ s.DLEN.toNat < s.D + len.toNat) ∧
      copyTail k len off s = .next (raise .corrupt (copyFetched k len off s))) ∨
    (off.toNat ≤ s.D ∧ s.D + len.toNat ≤ s.DLEN.toNat ∧
      copyTail k len off s = .next (copyLoop off.toNat len.toNat (copyFetched k len off s))) := by
  unfold copyTail
  dsimp only
  by_cases h1 : off.toNat > s.D
  · left; rw [if_pos h1]; exact ⟨.inl h1, rfl⟩
  · rw [if_neg h1]
    by_cases h2 : s.D + len.toNat > s.DLEN.toNat
    · left; rw [if_pos h2]; exact ⟨.inr h2, rfl⟩
    · right; rw [if_neg h2]; exact ⟨by omega, by omega, rfl⟩

theorem fixedPartPresent_iff (n : Nat) (s : State) : fixedPartPresent n s = true ↔ s.S + n ≤ s.IN_LEN.toNat := by
  simp [fixedPartPresent]

/-! ## Operand values -/

theorem literalLen_toNat (x : Word32) : (literalLen x).toNat = (x.toNat + 1) % 2 ^ 32 := by
  unfold literalLen; rw [BitVec.toNat_add]; rfl

theorem litField_toNat (m : BitVec 6) : (litField m).toNat = m.toNat := by
  unfold litField; have := m.isLt; rw [BitVec.toNat_setWidth]; omega

theorem lit1Field_toNat (x : BitVec 8) : (lit1Field x).toNat = x.toNat := by
  unfold lit1Field; have := x.isLt; rw [BitVec.toNat_setWidth]; omega

theorem lit2Field_toNat (x : BitVec 16) : (lit2Field x).toNat = x.toNat := by
  unfold lit2Field; have := x.isLt; rw [BitVec.toNat_setWidth]; omega

theorem lit3Field_toNat (x : BitVec 24) : (lit3Field x).toNat = x.toNat := by
  unfold lit3Field; have := x.isLt; rw [BitVec.toNat_setWidth]; omega

theorem copy1Len_toNat (l : BitVec 3) : (copy1Len l).toNat = 4 + l.toNat := by
  unfold copy1Len; have := l.isLt; rw [BitVec.toNat_add, BitVec.toNat_setWidth]; simp; omega

theorem copy1Off_toNat (off : BitVec 11) : (copy1Off off).toNat = off.toNat := by
  unfold copy1Off; have := off.isLt; rw [BitVec.toNat_setWidth]; omega

theorem copy2Len_toNat (m : BitVec 6) : (copy2Len m).toNat = 1 + m.toNat := by
  unfold copy2Len; have := m.isLt; rw [BitVec.toNat_add, BitVec.toNat_setWidth]; simp; omega

/-! ## A chunk, whatever its kind -/

/-- The eight chunk kinds, told from the host operations. -/
def isChunk : Instr → Bool
  | .lit _ | .lit1 _ | .lit2 _ | .lit3 _ | .lit4 _ | .copy1 _ _ | .copy2 _ _ | .copy4 _ => true
  | .decompress | .compress | .uvarint | .putuvarint => false

/-- A chunk completes as a literal, completes as a copy, or raises an error having written `X`, `LEN`, `OFF` and `S` at
most. -/
def ChunkOutcome (i : Instr) (s : State) : Prop :=
  (∃ k x, exec i s = .next (literalDone k x s) ∧ 1 ≤ k ∧ 0 < (literalLen x).toNat ∧ (literalLen x).toNat < 2 ^ 31 ∧
    s.D + (literalLen x).toNat ≤ s.DLEN.toNat ∧ s.S + k + (literalLen x).toNat ≤ s.IN_LEN.toNat) ∨
  (∃ k len off, exec i s = .next (copyLoop (BitVec.toNat off) len.toNat (copyFetched k len off s)) ∧ 2 ≤ k ∧
    0 < len.toNat ∧ off.toNat ≤ s.D ∧ s.D + len.toNat ≤ s.DLEN.toNat ∧ s.S + k ≤ s.IN_LEN.toNat) ∨
  (∃ e x len off c, exec i s = .next (raise e { s with X := x, LEN := len, OFF := off, S := c }) ∧
    (e = .corrupt ∨ e = .unsupported))

/-- Everything a chunk can do. -/
theorem chunk_cases (i : Instr) (hi : isChunk i = true) (s : State) : ChunkOutcome i s := by
  have lit : ∀ k x, 1 ≤ k → exec i s = literalTail k x s → ChunkOutcome i s := fun k x hk h => by
    rcases literalTail_cases k x s with ⟨_, h1⟩ | ⟨_, _, _, h1⟩ | ⟨a, b, c, d, h1⟩
    · exact .inr (.inr ⟨.unsupported, x, literalLen x, s.OFF, s.S + k, h.trans h1, .inr rfl⟩)
    · exact .inr (.inr ⟨.corrupt, x, literalLen x, s.OFF, s.S + k, h.trans h1, .inl rfl⟩)
    · exact .inl ⟨k, x, h.trans h1, hk, a, b, c, d⟩
  have cpy : ∀ k len off, 2 ≤ k → 0 < len.toNat → s.S + k ≤ s.IN_LEN.toNat → exec i s = copyTail k len off s → ChunkOutcome i s :=
    fun k len off hk hl hp h => by
    rcases copyTail_cases k len off s with ⟨_, h1⟩ | ⟨a, b, h1⟩
    · exact .inr (.inr ⟨.corrupt, s.X, len, off, s.S + k, h.trans h1, .inl rfl⟩)
    · exact .inr (.inl ⟨k, len, off, h.trans h1, hk, hl, a, b, hp⟩)
  have bad : ∀ e, (e = .corrupt ∨ e = .unsupported) → exec i s = .next (raise e s) → ChunkOutcome i s := fun e he h =>
    .inr (.inr ⟨e, s.X, s.LEN, s.OFF, s.S, h, he⟩)
  cases i with
  | lit m => exact lit 1 (litField m) (by omega) rfl
  | lit1 x =>
    by_cases hp : fixedPartPresent 2 s = true
    · exact lit 2 (lit1Field x) (by omega) (by simp [exec, execLit1, hp])
    · exact bad .corrupt (.inl rfl) (by simp [exec, execLit1, hp])
  | lit2 x =>
    by_cases hp : fixedPartPresent 3 s = true
    · exact lit 3 (lit2Field x) (by omega) (by simp [exec, execLit2, hp])
    · exact bad .corrupt (.inl rfl) (by simp [exec, execLit2, hp])
  | lit3 x =>
    by_cases hp : fixedPartPresent 4 s = true
    · exact lit 4 (lit3Field x) (by omega) (by simp [exec, execLit3, hp])
    · exact bad .corrupt (.inl rfl) (by simp [exec, execLit3, hp])
  | lit4 x =>
    by_cases hp : fixedPartPresent 5 s = true
    · exact lit 5 x (by omega) (by simp [exec, execLit4, hp])
    · exact bad .corrupt (.inl rfl) (by simp [exec, execLit4, hp])
  | copy1 l off =>
    by_cases hp : fixedPartPresent 2 s = true
    · exact cpy 2 (copy1Len l) (copy1Off off) (by omega) (by rw [copy1Len_toNat]; omega)
        ((fixedPartPresent_iff 2 s).mp hp) (by simp [exec, execCopy1, hp])
    · exact bad .corrupt (.inl rfl) (by simp [exec, execCopy1, hp])
  | copy2 m off =>
    by_cases hp : fixedPartPresent 3 s = true
    · exact cpy 3 (copy2Len m) off (by omega) (by rw [copy2Len_toNat]; omega)
        ((fixedPartPresent_iff 3 s).mp hp) (by simp [exec, execCopy2, hp])
    · exact bad .corrupt (.inl rfl) (by simp [exec, execCopy2, hp])
  | copy4 m => exact bad .unsupported (.inr rfl) rfl
  | decompress => cases hi
  | compress => cases hi
  | uvarint => cases hi
  | putuvarint => cases hi

end Sys2Proof.Machine
end

