-- ==== Sys2Proof/Laws/Decode.lean ====
section
/-! SUPPORT. The pieces of decoding and encoding: taking a value apart into bytes and putting it together again (R64), the
tag byte's fields (R66, R94), and the row of the decode map each kind of tag byte selects (R105). -/

namespace Sys2Proof

/-! ## Bytes of a value -/

theorem byteOf_toNat {w : Nat} (x : BitVec w) (k : Nat) : (byteOf x k).toNat = x.toNat / 2 ^ (8 * k) % 256 := by
  simp only [byteOf, BitVec.extractLsb'_toNat, Nat.shiftRight_eq_div_pow]

theorem le16_toNat (a b : Byte) : (le16 a b).toNat = a.toNat + b.toNat * 2 ^ 8 := by
  have := a.isLt; have := b.isLt
  simp only [le16, BitVec.toNat_append]
  rw [Nat.shiftLeft_eq, Nat.mul_comm, ← Nat.two_pow_add_eq_or_of_lt a.isLt]; omega

theorem le24_toNat (a b c : Byte) : (le24 a b c).toNat = a.toNat + b.toNat * 2 ^ 8 + c.toNat * 2 ^ 16 := by
  have h : (le24 a b c).toNat = ((c ++ b : BitVec 16) ++ a).toNat := rfl
  have := a.isLt
  rw [h, BitVec.toNat_append, Nat.shiftLeft_eq, Nat.mul_comm, ← Nat.two_pow_add_eq_or_of_lt a.isLt]
  have := le16_toNat b c
  unfold le16 at this
  rw [this]; omega

theorem le32_toNat (a b c d : Byte) :
    (le32 a b c d).toNat = a.toNat + b.toNat * 2 ^ 8 + c.toNat * 2 ^ 16 + d.toNat * 2 ^ 24 := by
  have h : (le32 a b c d).toNat = ((d ++ c ++ b : BitVec 24) ++ a).toNat := rfl
  rw [h, BitVec.toNat_append, Nat.shiftLeft_eq, Nat.mul_comm, ← Nat.two_pow_add_eq_or_of_lt a.isLt]
  have := le24_toNat b c d
  unfold le24 at this
  rw [this]; omega

theorem le16_byteOf (x : BitVec 16) : le16 (byteOf x 0) (byteOf x 1) = x := by
  apply BitVec.eq_of_toNat_eq
  have := x.isLt
  simp only [le16_toNat, byteOf_toNat]; omega

theorem le24_byteOf (x : BitVec 24) : le24 (byteOf x 0) (byteOf x 1) (byteOf x 2) = x := by
  apply BitVec.eq_of_toNat_eq
  have := x.isLt
  simp only [le24_toNat, byteOf_toNat]; omega

theorem le32_byteOf (x : BitVec 32) : le32 (byteOf x 0) (byteOf x 1) (byteOf x 2) (byteOf x 3) = x := by
  apply BitVec.eq_of_toNat_eq
  have := x.isLt
  simp only [le32_toNat, byteOf_toNat]; omega

@[simp] theorem byteOf_le16_0 (a b : Byte) : byteOf (le16 a b) 0 = a := by
  apply BitVec.eq_of_toNat_eq
  have := a.isLt; have := b.isLt
  simp only [byteOf_toNat, le16_toNat]; omega

@[simp] theorem byteOf_le16_1 (a b : Byte) : byteOf (le16 a b) 1 = b := by
  apply BitVec.eq_of_toNat_eq
  have := a.isLt; have := b.isLt
  simp only [byteOf_toNat, le16_toNat]; omega

theorem byteOf_le24 (a b c : Byte) :
    byteOf (le24 a b c) 0 = a ∧ byteOf (le24 a b c) 1 = b ∧ byteOf (le24 a b c) 2 = c := by
  have := a.isLt; have := b.isLt; have := c.isLt
  refine ⟨?_, ?_, ?_⟩ <;> apply BitVec.eq_of_toNat_eq <;>
    simp only [byteOf_toNat, le24_toNat] <;> omega

theorem byteOf_le32 (a b c d : Byte) :
    byteOf (le32 a b c d) 0 = a ∧ byteOf (le32 a b c d) 1 = b ∧ byteOf (le32 a b c d) 2 = c ∧
      byteOf (le32 a b c d) 3 = d := by
  have := a.isLt; have := b.isLt; have := c.isLt; have := d.isLt
  refine ⟨?_, ?_, ?_, ?_⟩ <;> apply BitVec.eq_of_toNat_eq <;>
    simp only [byteOf_toNat, le32_toNat] <;> omega

/-! ## The tag byte -/

theorem tagBits_toNat (b : Byte) : (tagBits b).toNat = b.toNat % 4 := by
  simp [tagBits, BitVec.extractLsb'_toNat]

theorem mBits_toNat (b : Byte) : (mBits b).toNat = b.toNat / 4 := by
  have := b.isLt
  simp only [mBits, BitVec.extractLsb'_toNat, Nat.shiftRight_eq_div_pow]; omega

theorem tagByte_toNat (m : BitVec 6) (t : BitVec 2) : (m ++ t).toNat = 4 * m.toNat + t.toNat := by
  have := Nat.two_pow_add_eq_or_of_lt t.isLt m.toNat
  rw [BitVec.toNat_append, Nat.shiftLeft_eq, Nat.mul_comm, ← this]

/-- The tag byte put together from `m` and the tag (R94). -/
theorem tagByte_eq (b : Byte) : mBits b ++ tagBits b = b := by
  apply BitVec.eq_of_toNat_eq
  have := b.isLt
  rw [BitVec.toNat_append, Nat.shiftLeft_eq, Nat.mul_comm, ← Nat.two_pow_add_eq_or_of_lt (tagBits b).isLt, tagBits_toNat,
    mBits_toNat]
  omega

@[simp] theorem tagBits_append (m : BitVec 6) (t : BitVec 2) : tagBits (m ++ t) = t := by
  apply BitVec.eq_of_toNat_eq
  have := t.isLt
  rw [tagBits_toNat, BitVec.toNat_append, Nat.shiftLeft_eq, Nat.mul_comm, ← Nat.two_pow_add_eq_or_of_lt t.isLt]
  omega

@[simp] theorem mBits_append (m : BitVec 6) (t : BitVec 2) : mBits (m ++ t) = m := by
  apply BitVec.eq_of_toNat_eq
  have := t.isLt
  rw [mBits_toNat, BitVec.toNat_append, Nat.shiftLeft_eq, Nat.mul_comm, ← Nat.two_pow_add_eq_or_of_lt t.isLt]
  omega

/-- The two bytes of a `COPY1` (R99), taken apart again. -/
theorem copy1_fields (l : BitVec 3) (off : BitVec 11) :
    tagBits (off.extractLsb' 8 3 ++ l ++ 1#2) = 1#2 ∧
    (off.extractLsb' 8 3 ++ l ++ 1#2 : Byte).extractLsb' 2 3 = l ∧
    (off.extractLsb' 8 3 ++ l ++ 1#2 : Byte).extractLsb' 5 3 ++ off.extractLsb' 0 8 = off := by
  have h : (off.extractLsb' 8 3 ++ l ++ 1#2 : Byte).toNat = off.toNat / 256 * 32 + l.toNat * 4 + 1 := by
    have e := tagByte_toNat (off.extractLsb' 8 3 ++ l) 1#2
    rw [show (off.extractLsb' 8 3 ++ l ++ 1#2 : Byte).toNat = ((off.extractLsb' 8 3 ++ l : BitVec 6) ++ 1#2).toNat from rfl,
      e, BitVec.toNat_append, Nat.shiftLeft_eq, Nat.mul_comm _ (2 ^ 3), ← Nat.two_pow_add_eq_or_of_lt l.isLt,
      BitVec.extractLsb'_toNat, Nat.shiftRight_eq_div_pow]
    have := off.isLt
    show _ + 1 = _
    omega
  have := off.isLt; have := l.isLt
  refine ⟨?_, ?_, ?_⟩ <;> apply BitVec.eq_of_toNat_eq
  · rw [tagBits_toNat, h]; show _ = 1; omega
  · rw [BitVec.extractLsb'_toNat, Nat.shiftRight_eq_div_pow, h]; omega
  · rw [BitVec.toNat_append, Nat.shiftLeft_eq, Nat.mul_comm, ← Nat.two_pow_add_eq_or_of_lt (off.extractLsb' 0 8).isLt,
      BitVec.extractLsb'_toNat, BitVec.extractLsb'_toNat, Nat.shiftRight_eq_div_pow, Nat.shiftRight_eq_div_pow, h]
    omega

/-! ## The decode map -/

section
variable {b : Byte} (b1 b2 b3 b4 : Byte)

theorem decodeWindow_copy1 (h : tagBits b = 1#2) :
    decodeWindow b b1 b2 b3 b4 = .copy1 (b.extractLsb' 2 3) (b.extractLsb' 5 3 ++ b1) := by
  unfold decodeWindow; rw [if_pos h]

theorem decodeWindow_copy2 (h : tagBits b = 2#2) : decodeWindow b b1 b2 b3 b4 = .copy2 (mBits b) (le16 b1 b2) := by
  unfold decodeWindow; rw [if_neg (by rw [h]; decide), if_pos h]

theorem decodeWindow_copy4 (h : tagBits b = 3#2) : decodeWindow b b1 b2 b3 b4 = .copy4 (mBits b) := by
  unfold decodeWindow; rw [if_neg (by rw [h]; decide), if_neg (by rw [h]; decide), if_pos h]

theorem decodeWindow_lit (h : tagBits b = 0#2) (hm : (mBits b).toNat < 60) :
    decodeWindow b b1 b2 b3 b4 = .lit (mBits b) := by
  have hb : ∀ c : Byte, 240 ≤ c.toNat → b ≠ c := fun c hc e => by
    rw [mBits_toNat, e] at hm; omega
  unfold decodeWindow
  rw [if_neg (by rw [h]; decide), if_neg (by rw [h]; decide), if_neg (by rw [h]; decide), if_neg (hb _ (by decide)),
    if_neg (hb _ (by decide)), if_neg (hb _ (by decide)), if_neg (hb _ (by decide))]

/-- Every tag byte is of one of eight kinds. -/
theorem tagByte_cases (b : Byte) :
    tagBits b = 1#2 ∨ tagBits b = 2#2 ∨ tagBits b = 3#2 ∨ b = 0xf0#8 ∨ b = 0xf4#8 ∨ b = 0xf8#8 ∨ b = 0xfc#8 ∨
      (tagBits b = 0#2 ∧ (mBits b).toNat < 60) := by
  revert b; decide +kernel

end

/-- What the decoder answers, from what the window of five bytes stands for. -/
theorem decodeChunk_cons {b : Byte} {bs : List Byte} {i : Instr}
    (h : decodeWindow b (bs.getD 0 0) (bs.getD 1 0) (bs.getD 2 0) (bs.getD 3 0) = i) :
    decodeChunk (b :: bs) =
      if i.fixedBytes ≤ bs.length + 1 then .ok i (bs.drop (i.fixedBytes - 1)) else .reject (.truncated i.mnemonic) := by
  subst h; rfl

/-! ## Sizes -/

theorem chunkBytes_length (i : Instr) : i.chunkBytes.length = i.fixedBytes := by cases i <;> rfl

/-- The decoder gives a chunk and never a host operation. -/
theorem decodeWindow_fixedBytes (b b1 b2 b3 b4 : Byte) :
    1 ≤ (decodeWindow b b1 b2 b3 b4).fixedBytes ∧ (decodeWindow b b1 b2 b3 b4).fixedBytes ≤ maxFixedBytes := by
  unfold decodeWindow
  repeat' split
  all_goals simp [Instr.fixedBytes, maxFixedBytes]

end Sys2Proof
end

