-- ==== Sys2Proof/Laws/Flow.lean ====
section
/-! SUPPORT. What a meaning made of parts can do, and what the emissions do: `emitAll` writes its bytes at `W` and moves
`W`, or the model refuses for want of room, and nothing else happens. -/

namespace Sys2Proof.Machine

@[simp] theorem andThen_go (s : State) (g : State → Flow) : (Flow.go s).andThen g = g s := rfl
@[simp] theorem andThen_raised (k : ErrKind) (s : State) (g : State → Flow) :
    (Flow.raised k s).andThen g = .raised k s := rfl
@[simp] theorem andThen_refuse (r : Refusal) (g : State → Flow) : (Flow.refuse r).andThen g = .refuse r := rfl
@[simp] theorem outcome_go (s : State) : (Flow.go s).outcome = .next s := rfl
@[simp] theorem outcome_raised (k : ErrKind) (s : State) : (Flow.raised k s).outcome = .next (raise k s) := rfl
@[simp] theorem outcome_refuse (r : Refusal) : (Flow.refuse r).outcome = .refused r := rfl

theorem andThen_assoc (f : Flow) (g h : State → Flow) :
    (f.andThen g).andThen h = f.andThen fun s => (g s).andThen h := by
  cases f <;> rfl

/-- If the whole goes on, the first part went on, and the second from there. -/
theorem andThen_eq_go {f : Flow} {g : State → Flow} {t : State} (h : f.andThen g = .go t) :
    ∃ s, f = .go s ∧ g s = .go t := by
  cases f with
  | go s => exact ⟨s, rfl, h⟩
  | raised k s => cases h
  | refuse r => cases h

/-- If the whole raises, one of the parts raised. -/
theorem andThen_eq_raised {f : Flow} {g : State → Flow} {k : ErrKind} {t : State} (h : f.andThen g = .raised k t) :
    f = .raised k t ∨ ∃ s, f = .go s ∧ g s = .raised k t := by
  cases f with
  | go s => exact .inr ⟨s, rfl, h⟩
  | raised k' s => exact .inl h
  | refuse r => cases h

/-- A next state comes from a part that went on or from a raised error. -/
theorem outcome_eq_next {f : Flow} {t : State} (h : f.outcome = .next t) :
    f = .go t ∨ ∃ k s, f = .raised k s ∧ t = raise k s := by
  cases f with
  | go s => simp only [outcome_go, Host.Outcome.next.injEq] at h; exact .inl (by rw [h])
  | raised k s => simp only [outcome_raised, Host.Outcome.next.injEq] at h; exact .inr ⟨k, s, rfl, h.symm⟩
  | refuse r => simp at h

/-! ## Capacities -/

@[simp] theorem fits_none (n : Nat) : Capacity.fits none n = true := rfl

theorem fits_mono {cap : Option Nat} {m n : Nat} (h : Capacity.fits cap n = true) (hmn : m ≤ n) :
    Capacity.fits cap m = true := by
  cases cap with
  | none => rfl
  | some c => simp only [Capacity.fits, decide_eq_true_eq] at h ⊢; omega

/-- The range of a bounded `IN_CAP` (R12). -/
theorem inCap_range {caps : Capacity} {c : Nat} (h : caps.inCap = some c) : 1 ≤ c ∧ c ≤ 2 ^ 64 - 1 := by
  have hr := caps.inRange
  rw [h] at hr
  exact of_decide_eq_true hr

/-! ## Emission -/

/-- The state after the bytes `bs` are emitted. -/
def emitted (bs : List Byte) (s : State) : State :=
  { s with OUT := Store.writeList s.OUT s.W bs, W := s.W + bs.length }

theorem emit_go {b : Byte} {s : State} (h : Capacity.fits s.caps.outCap (s.W + 1) = true) :
    emit b s = .go (emitted [b] s) := by
  unfold emit; rw [if_pos h]; rfl

theorem emitted_cons (b : Byte) (bs : List Byte) (s : State) : emitted bs (emitted [b] s) = emitted (b :: bs) s := by
  simp only [emitted, Store.writeList, List.length_cons, List.length_nil]
  congr 1; omega

@[simp] theorem emitted_nil (s : State) : emitted [] s = s := rfl

theorem emitted_append (xs ys : List Byte) (s : State) : emitted ys (emitted xs s) = emitted (xs ++ ys) s := by
  simp only [emitted, writeList_append, List.length_append]
  congr 1; omega

/-- Where there is room for all of them, the bytes are emitted. -/
theorem emitAll_go {bs : List Byte} {s : State} (h : Capacity.fits s.caps.outCap (s.W + bs.length) = true) :
    emitAll bs s = .go (emitted bs s) := by
  induction bs generalizing s with
  | nil => rfl
  | cons b bs ih =>
    rw [List.length_cons] at h
    rw [emitAll, emit_go (fits_mono h (by omega)), andThen_go, ih, emitted_cons]
    simp only [emitted, List.length_cons, List.length_nil]
    exact fits_mono h (by omega)

/-- Emitting ends in the one way or the other: all bytes are emitted, or the model refuses for want of room. -/
theorem emitAll_cases (bs : List Byte) (s : State) :
    emitAll bs s = .go (emitted bs s) ∨ emitAll bs s = .refuse .outCapacity := by
  induction bs generalizing s with
  | nil => exact .inl rfl
  | cons b bs ih =>
    rw [emitAll]
    by_cases h : Capacity.fits s.caps.outCap (s.W + 1) = true
    · rw [emit_go h, andThen_go, ← emitted_cons b bs]; exact ih (emitted [b] s)
    · right; unfold emit; rw [if_neg h]; rfl

/-- Where the bytes do not fit, an emission of at least one byte is refused (R31). -/
theorem emitAll_refuse {bs : List Byte} {s : State} (hb : bs ≠ [])
    (h : Capacity.fits s.caps.outCap (s.W + bs.length) = false) : emitAll bs s = .refuse .outCapacity := by
  induction bs generalizing s with
  | nil => exact absurd rfl hb
  | cons b bs ih =>
    unfold emitAll
    by_cases h1 : Capacity.fits s.caps.outCap (s.W + 1) = true
    · rw [emit_go h1, andThen_go]
      refine ih (fun e => ?_) ?_
      · subst e; rw [List.length_singleton, h1] at h; cases h
      · rw [← h]; show Capacity.fits s.caps.outCap (s.W + 1 + bs.length) = _
        rw [List.length_cons, Nat.add_right_comm]; rfl
    · unfold emit; rw [if_neg h1]; rfl

@[simp] theorem emitAll_nil (s : State) : emitAll [] s = .go s := rfl

/-- `EMIT_LITERAL`: the head and the payload are emitted, or the guard raises, or there is no room (R224, R226). -/
theorem emitLiteral_cases (start count : Nat) (s : State) :
    emitLiteral start count s = .go (emitted (literalHead (count - 1) ++ s.inBytes start count) s) ∨
    (2 ^ 32 ≤ count - 1 ∧ emitLiteral start count s = .raised .invalidInput s) ∨
    emitLiteral start count s = .refuse .outCapacity := by
  unfold emitLiteral
  split
  · rcases emitAll_cases (literalHead (count - 1) ++ s.inBytes start count) s with h | h
    · exact .inl h
    · exact .inr (.inr h)
  · exact .inr (.inl ⟨by omega, rfl⟩)

theorem emitLiteral_go {start count : Nat} {s : State} (hc : count - 1 < 2 ^ 32)
    (h : Capacity.fits s.caps.outCap (s.W + ((literalHead (count - 1)).length + count)) = true) :
    emitLiteral start count s = .go (emitted (literalHead (count - 1) ++ s.inBytes start count) s) := by
  unfold emitLiteral
  rw [if_pos hc, emitAll_go]
  simpa using h

/-- `EMIT_COPY`: the chunks' bytes are emitted and `REM` is 0, or there is no room, or the offset has no encoding (R220,
R228). -/
theorem emitCopy_cases (off len : Nat) (s : State) :
    (off < 65536 ∧ emitCopy off len s = .go { emitted (copyBytes off len) s with REM := 0 }) ∨
    emitCopy off len s = .refuse .outCapacity ∨
    (65536 ≤ off ∧ emitCopy off len s = .refuse .copyOffsetUnencodable) := by
  unfold emitCopy
  split
  · next ho =>
    rcases emitAll_cases (copyBytes off len) { s with REM := len } with h | h
    · exact .inl ⟨ho, by rw [h]; rfl⟩
    · exact .inr (.inl (by rw [h]; rfl))
  · exact .inr (.inr ⟨by omega, rfl⟩)

theorem emitCopy_go {off len : Nat} {s : State} (ho : off < 65536)
    (h : Capacity.fits s.caps.outCap (s.W + (copyBytes off len).length) = true) :
    emitCopy off len s = .go { emitted (copyBytes off len) s with REM := 0 } := by
  unfold emitCopy
  rw [if_pos ho, emitAll_go (s := { s with REM := len }) h]
  rfl

theorem emitCopy_refuse {off len : Nat} {s : State} (ho : off < 65536) (hb : copyBytes off len ≠ [])
    (h : Capacity.fits s.caps.outCap (s.W + (copyBytes off len).length) = false) :
    emitCopy off len s = .refuse .outCapacity := by
  unfold emitCopy
  rw [if_pos ho, emitAll_refuse (s := { s with REM := len }) hb h]; rfl

/-- `putuvarint`: the varint's bytes are emitted and `PV` has run down, or there is no room (R136). -/
theorem putuvarint_cases (v : Word64) (s : State) :
    putuvarint v s = .go { emitted (putuvarintBytes v) s with PV := (putuvarintLoop 9 v).2 } ∨
    putuvarint v s = .refuse .outCapacity := by
  unfold putuvarint
  rcases emitAll_cases (putuvarintBytes v) { s with PV := v } with h | h
  · exact .inl (by rw [h]; rfl)
  · exact .inr (by rw [h]; rfl)

theorem putuvarint_go {v : Word64} {s : State}
    (h : Capacity.fits s.caps.outCap (s.W + (putuvarintBytes v).length) = true) :
    putuvarint v s = .go { emitted (putuvarintBytes v) s with PV := (putuvarintLoop 9 v).2 } := by
  unfold putuvarint
  rw [emitAll_go (s := { s with PV := v }) h]
  rfl

/-! ## Room: no emission passes the capacity (R31) -/

/-- A part of a meaning that, where it goes on, leaves the write cursor inside the capacity if it was. -/
def KeepsRoom (f : State → Flow) : Prop :=
  ∀ s t c, f s = .go t → s.caps.outCap = some c → s.W ≤ c → t.W ≤ c ∧ t.caps = s.caps

theorem KeepsRoom.andThen {f g : State → Flow} (hf : KeepsRoom f) (hg : KeepsRoom g) :
    KeepsRoom fun s => (f s).andThen g := by
  intro s t c h hc hw
  obtain ⟨u, h1, h2⟩ := andThen_eq_go h
  obtain ⟨a, b⟩ := hf s u c h1 hc hw
  obtain ⟨a2, b2⟩ := hg u t c h2 (by rw [b]; exact hc) a
  exact ⟨a2, b2.trans b⟩

theorem keepsRoom_go (f : State → State) (hw : ∀ s, (f s).W ≤ s.W) (hc : ∀ s, (f s).caps = s.caps) :
    KeepsRoom fun s => .go (f s) := by
  intro s t c h _ hs
  cases h
  exact ⟨Nat.le_trans (hw s) hs, hc s⟩

theorem keepsRoom_emit (b : Byte) : KeepsRoom (emit b) := by
  intro s t c h hc hw
  unfold emit at h
  split at h
  · next hf =>
    cases h
    rw [hc] at hf
    exact ⟨by simpa [Capacity.fits] using hf, rfl⟩
  · cases h

theorem keepsRoom_emitAll (bs : List Byte) : KeepsRoom (emitAll bs) := by
  induction bs with
  | nil => intro s t c h _ hw; cases h; exact ⟨hw, rfl⟩
  | cons b bs ih => exact (keepsRoom_emit b).andThen ih

theorem keepsRoom_emitLiteral (start count : Nat) : KeepsRoom (emitLiteral start count) := by
  intro s t c h hc hw
  unfold emitLiteral at h
  split at h
  · exact keepsRoom_emitAll _ s t c h hc hw
  · cases h

theorem keepsRoom_emitCopy (off len : Nat) : KeepsRoom (emitCopy off len) := by
  intro s t c h hc hw
  unfold emitCopy at h
  split at h
  · obtain ⟨u, h1, h2⟩ := andThen_eq_go h
    cases h2
    exact keepsRoom_emitAll _ { s with REM := len } u c h1 hc hw
  · cases h

theorem keepsRoom_putuvarint (v : Word64) : KeepsRoom (putuvarint v) := by
  intro s t c h hc hw
  obtain ⟨u, h1, h2⟩ := andThen_eq_go h
  cases h2
  exact keepsRoom_emitAll _ { s with PV := v } u c h1 hc hw

end Sys2Proof.Machine
end

