-- ==== Sys2Proof/Laws/Compress.lean ====
section
/-! SUPPORT. What each part of `COMPRESS` does: the table size, the hash, the lookup and the hit test, the extension of a
match, the bytes of the emission helpers, and everything a step of the operation can end in. -/

namespace Sys2Proof.Machine

/-! ## Table size (R194) -/

/-- The loop doubles `2^(32 − h)` and lowers `h` in step. -/
theorem tableSizeLoop_spec (n fuel h : Nat) (hh : h ≤ 32) (hf : fuel + 18 = h) :
    let r := tableSizeLoop n fuel (2 ^ (32 - h)) h
    18 ≤ r.2 ∧ r.2 ≤ h ∧ r.1 = 2 ^ (32 - r.2) ∧ (r.2 = 18 ∨ n ≤ r.1) ∧ (r.2 < h → 2 ^ (31 - r.2) < n) := by
  induction fuel generalizing h with
  | zero =>
    have : h = 18 := by omega
    subst this
    exact ⟨Nat.le_refl _, Nat.le_refl _, rfl, .inl rfl, fun h => absurd h (by show ¬ 18 < 18; omega)⟩
  | succ fuel ih =>
    dsimp only
    rw [tableSizeLoop]
    have hpos : 32 - (h - 1) = (32 - h) + 1 := by omega
    split
    · next hc =>
      have e : 2 ^ (32 - h) * 2 = 2 ^ (32 - (h - 1)) := by rw [hpos, Nat.pow_succ]
      rw [e]
      obtain ⟨a, b, c, d, f⟩ := ih (h - 1) (by omega) (by omega)
      refine ⟨a, by omega, c, d, fun _ => ?_⟩
      by_cases hlt : (tableSizeLoop n fuel (2 ^ (32 - (h - 1))) (h - 1)).2 < h - 1
      · exact f hlt
      · have e2 : (tableSizeLoop n fuel (2 ^ (32 - (h - 1))) (h - 1)).2 = h - 1 := by omega
        rw [e2]
        have e3 : 31 - (h - 1) = 32 - h := by omega
        rw [e3]; exact hc.2
    · next hc =>
      refine ⟨by show 18 ≤ h; omega, Nat.le_refl _, rfl, ?_, fun hlt => absurd hlt (Nat.lt_irrefl _)⟩
      by_cases h18 : h = 18
      · exact .inl h18
      · right
        have hlt : 2 ^ (32 - h) < Config.tableMax := by
          show 2 ^ (32 - h) < 2 ^ 14
          exact Nat.pow_lt_pow_right (by omega) (by omega)
        show n ≤ 2 ^ (32 - h)
        by_contra hn
        exact hc ⟨hlt, by omega⟩

/-- `TSIZE` and `SHIFT` (R194). -/
theorem tableSize_spec (n : Nat) :
    18 ≤ (tableSize n).2 ∧ (tableSize n).2 ≤ 24 ∧ (tableSize n).1 = 2 ^ (32 - (tableSize n).2) ∧
      ((tableSize n).2 = 18 ∨ n ≤ (tableSize n).1) ∧ ((tableSize n).2 < 24 → 2 ^ (31 - (tableSize n).2) < n) :=
  tableSizeLoop_spec n 6 24 (by omega) (by omega)

/-! ## The hash (R197) -/

theorem readIn32_toNat (s : State) (a : Nat) : (s.readIn32 a).toNat = wordAt s a := by
  unfold State.readIn32 wordAt; rw [le32_toNat]

theorem hashBucket_toNat (h : Word32) {shift : Nat} (h1 : 18 ≤ shift) :
    (hashBucket h shift).toNat = h.toNat * 0x1e35a7bd % 2 ^ 32 / 2 ^ shift := by
  unfold hashBucket
  rw [BitVec.toNat_setWidth, BitVec.toNat_ushiftRight, BitVec.toNat_mul, Nat.shiftRight_eq_div_pow]
  have e : Config.hashMul.toNat = 0x1e35a7bd := rfl
  rw [e, Nat.mod_eq_of_lt]
  have hp : 2 ^ 18 ≤ 2 ^ shift := Nat.pow_le_pow_right (by omega) h1
  have hlt : h.toNat * 0x1e35a7bd % 2 ^ 32 < 2 ^ 32 := Nat.mod_lt _ (by omega)
  calc h.toNat * 0x1e35a7bd % 2 ^ 32 / 2 ^ shift ≤ h.toNat * 0x1e35a7bd % 2 ^ 32 / 2 ^ 18 :=
        Nat.div_le_div_left hp (by omega)
    _ < 2 ^ 14 := by omega

/-- Two words are equal exactly if their four bytes are. -/
theorem readIn32_eq_iff (s : State) (a b : Nat) :
    s.readIn32 a = s.readIn32 b ↔ ∀ j, j < 4 → s.readIn (a + j) = s.readIn (b + j) := by
  constructor
  · intro h
    obtain ⟨a0, a1, a2, a3⟩ := byteOf_le32 (s.readIn a) (s.readIn (a + 1)) (s.readIn (a + 2)) (s.readIn (a + 3))
    obtain ⟨b0, b1, b2, b3⟩ := byteOf_le32 (s.readIn b) (s.readIn (b + 1)) (s.readIn (b + 2)) (s.readIn (b + 3))
    unfold State.readIn32 at h
    rw [h] at a0 a1 a2 a3
    intro j hj
    have hj4 : j = 0 ∨ j = 1 ∨ j = 2 ∨ j = 3 := by omega
    rcases hj4 with rfl | rfl | rfl | rfl
    · exact a0.symm.trans b0
    · exact a1.symm.trans b1
    · exact a2.symm.trans b2
    · exact a3.symm.trans b3
  · intro h
    unfold State.readIn32
    rw [← h 1 (by omega), ← h 2 (by omega), ← h 3 (by omega), show s.readIn a = s.readIn b from h 0 (by omega)]

/-! ## The lookup and the hit test (R198, R199) -/

theorem lookup_IDX_toNat {s : State} (h : 18 ≤ s.SHIFT) : (lookup s).IDX.toNat = bucketAt s := by
  show (hashBucket (s.readIn32 s.CS) s.SHIFT).toNat = _
  rw [hashBucket_toNat _ h, readIn32_toNat]; rfl

theorem lookup_CAND_eq {s : State} (h : 18 ≤ s.SHIFT) : (lookup s).CAND = s.readTable (bucketAt s) := by
  rw [← lookup_IDX_toNat h]; rfl

theorem lookup_readTable {s : State} (h : 18 ≤ s.SHIFT) (i : Nat) :
    (lookup s).readTable i = if i = bucketAt s then some (BitVec.ofNat 32 s.CS) else s.readTable i := by
  show Store.read (Store.write s.TABLE (hashBucket (s.readIn32 s.CS) s.SHIFT).toNat _) i = _
  rw [read_write]
  have e : (hashBucket (s.readIn32 s.CS) s.SHIFT).toNat = bucketAt s := lookup_IDX_toNat h
  rw [e]; rfl

/-- A hit (R199): there is a candidate, less than 32768 back, with the same four bytes. -/
theorem hitCandidate_eq_some {s : State} {t : Nat} (h : hitCandidate s = some t) :
    ∃ p : Word32, s.CAND = some p ∧ p.toNat = t ∧ s.CS - t < 32768 ∧ s.readIn32 t = s.H := by
  unfold hitCandidate at h
  split at h
  · cases h
  · next p hp =>
    split at h
    · cases h
    · next h1 =>
      split at h
      · cases h
      · next h2 =>
        cases h
        refine ⟨p, hp, rfl, ?_, by_contra h2⟩
        simp only [Config.maxMatchDistance] at h1; omega

theorem hitCandidate_some {s : State} {p : Word32} (hc : s.CAND = some p) (hd : s.CS - p.toNat < 32768)
    (hw : s.readIn32 p.toNat = s.H) : hitCandidate s = some p.toNat := by
  unfold hitCandidate
  rw [hc]
  dsimp only
  rw [if_neg (by simp only [Config.maxMatchDistance]; omega), if_neg (by simpa using hw)]

/-! ## Extending a match (R202) -/

/-- The extension moves both cursors by the same amount, over equal bytes only, stays inside the input and stops at its end
or at a difference. -/
theorem extendLoop_spec (rd : Nat → Byte) (n fuel cs ct : Nat) (hf : n ≤ cs + fuel) (hc : cs ≤ n) :
    ∃ e, extendLoop rd n fuel cs ct = (cs + e, ct + e) ∧ cs + e ≤ n ∧ (∀ j, j < e → rd (cs + j) = rd (ct + j)) ∧
      (cs + e = n ∨ rd (cs + e) ≠ rd (ct + e)) := by
  induction fuel generalizing cs ct with
  | zero => exact ⟨0, rfl, hc, fun j hj => absurd hj (by omega), .inl (by omega)⟩
  | succ fuel ih =>
    rw [extendLoop]
    split
    · next h =>
      obtain ⟨e, h1, h2, h3, h4⟩ := ih (cs + 1) (ct + 1) (by omega) (by omega)
      refine ⟨e + 1, ?_, by omega, ?_, ?_⟩
      · rw [h1]; congr 1 <;> omega
      · intro j hj
        cases j with
        | zero => exact h.2
        | succ j =>
          have := h3 j (by omega)
          have e1 : cs + 1 + j = cs + (j + 1) := by omega
          have e2 : ct + 1 + j = ct + (j + 1) := by omega
          rwa [e1, e2] at this
      · have e1 : cs + 1 + e = cs + (e + 1) := by omega
        have e2 : ct + 1 + e = ct + (e + 1) := by omega
        rwa [e1, e2] at h4
    · next h =>
      refine ⟨0, rfl, hc, fun j hj => absurd hj (by omega), ?_⟩
      by_cases hn : cs < n
      · right; intro he; exact h ⟨hn, he⟩
      · left; omega

/-! ## The bytes of the emission helpers (R220, R224) -/

theorem literalHead_length (n : Nat) : 1 ≤ (literalHead n).length ∧ (literalHead n).length ≤ 5 := by
  unfold literalHead
  repeat' split
  all_goals simp

@[simp] theorem copy1Bytes_length (off len : Nat) : (copy1Bytes off len).length = 2 := rfl
@[simp] theorem copy2Bytes_length (off len : Nat) : (copy2Bytes off len).length = 3 := rfl

/-- The copy chunks of a length take at most three bytes for a remainder of up to three, and one byte less than the length
otherwise. -/
theorem copyBytesLoop_length (off fuel rem : Nat) (hf : rem ≤ fuel) :
    (copyBytesLoop off fuel rem).length ≤ 3 ∧ rem < 4 ∨ (copyBytesLoop off fuel rem).length + 1 ≤ rem ∧ 4 ≤ rem := by
  induction fuel generalizing rem with
  | zero => left; simp [copyBytesLoop]; omega
  | succ fuel ih =>
    rw [copyBytesLoop]
    split
    · left; simp; omega
    · split
      · right; simp; omega
      · rw [List.length_append, copy2Bytes_length]
        by_cases h : rem ≤ 64
        · have e : rem - min rem 64 = 0 := by omega
          have z : copyBytesLoop off fuel 0 = [] := by cases fuel <;> simp [copyBytesLoop]
          rw [e, z]; simp; omega
        · have e : rem - min rem 64 = rem - 64 := by omega
          rw [e]
          rcases ih (rem - 64) (by omega) with h2 | h2 <;> omega

theorem copyBytes_ne_nil (off : Nat) {len : Nat} (h : len ≠ 0) : copyBytes off len ≠ [] := by
  obtain ⟨n, rfl⟩ := Nat.exists_eq_succ_of_ne_zero h
  unfold copyBytes copyBytesLoop
  rw [if_neg h]
  split <;> simp [copy1Bytes, copy2Bytes]

theorem copyBytes_length (off : Nat) {len : Nat} (h : 4 ≤ len) : (copyBytes off len).length + 1 ≤ len := by
  rcases copyBytesLoop_length off len len (Nat.le_refl _) with h2 | h2
  · omega
  · exact h2.1

/-! ## The pending literal (R201, R204) -/

theorem pendingBytes_length (upTo : Nat) (s : State) :
    (pendingBytes upTo s).length ≤ upTo - s.LIT + 5 := by
  have := literalHead_length (upTo - s.LIT - 1)
  unfold pendingBytes
  split
  · simp
  · rw [List.length_append, inBytes_length]; omega

theorem pendingBytes_congr {upTo : Nat} {s t : State} (hl : t.LIT = s.LIT) (hi : t.IN = s.IN) (he : t.epoch = s.epoch) :
    pendingBytes upTo t = pendingBytes upTo s := by
  unfold pendingBytes; rw [hl, inBytes_congr hi he]

/-- Everything flushing the pending literal can end in. -/
theorem flushLiteral_cases (upTo : Nat) (s : State) :
    flushLiteral upTo s = .go (emitted (pendingBytes upTo s) s) ∨
    (2 ^ 32 ≤ upTo - s.LIT - 1 ∧ flushLiteral upTo s = .raised .invalidInput s) ∨
    flushLiteral upTo s = .refuse .outCapacity := by
  unfold flushLiteral pendingBytes
  by_cases h : s.LIT = upTo
  · left; simp [h]
  · rw [if_pos h, if_neg h]; exact emitLiteral_cases s.LIT (upTo - s.LIT) s

theorem flushLiteral_go {upTo : Nat} {s : State} (hc : upTo - s.LIT - 1 < 2 ^ 32)
    (h : Capacity.fits s.caps.outCap (s.W + (pendingBytes upTo s).length) = true) :
    flushLiteral upTo s = .go (emitted (pendingBytes upTo s) s) := by
  unfold flushLiteral
  unfold pendingBytes at h ⊢
  by_cases hl : s.LIT = upTo
  · simp [hl]
  · rw [if_pos hl, if_neg hl] at *
    exact emitLiteral_go hc (by simpa using h)

theorem flushLiteral_refuse {upTo : Nat} {s : State} (hl : s.LIT ≠ upTo) (hc : upTo - s.LIT - 1 < 2 ^ 32)
    (h : Capacity.fits s.caps.outCap (s.W + (pendingBytes upTo s).length) = false) :
    flushLiteral upTo s = .refuse .outCapacity := by
  unfold flushLiteral emitLiteral
  unfold pendingBytes at h
  rw [if_neg hl] at h
  rw [if_pos hl, if_pos hc]
  refine emitAll_refuse (fun e => ?_) h
  have := literalHead_length (upTo - s.LIT - 1)
  rw [(List.append_eq_nil_iff.mp e).1] at this
  exact absurd this.1 (by decide)

/-! ## A scan step (R196 to R203) -/

/-- Where the match of candidate `t` at the scan cursor ends, with its candidate's cursor. -/
def matchEnd (t : Nat) (s : State) : Nat × Nat :=
  extendLoop s.readIn s.N (s.N - (s.CS + Config.minMatch)) (s.CS + Config.minMatch) (t + Config.minMatch)

/-- What a hit emits. -/
def hitBytes (t : Nat) (s : State) : List Byte :=
  pendingBytes s.CS s ++ copyBytes ((matchEnd t s).1 - (matchEnd t s).2) ((matchEnd t s).1 - s.CS)

/-- The state after a hit with candidate `t`. -/
def hitDone (t : Nat) (s : State) : State :=
  { s with
    H := (lookup s).H
    IDX := (lookup s).IDX
    CAND := (lookup s).CAND
    TABLE := (lookup s).TABLE
    CT := (matchEnd t s).2
    S0 := s.CS
    CS := (matchEnd t s).1
    LIT := (matchEnd t s).1
    REM := 0
    W := s.W + (hitBytes t s).length
    OUT := Store.writeList s.OUT s.W (hitBytes t s) }

/-- The state after a miss. -/
def missDone (s : State) : State :=
  { s with
    H := (lookup s).H, IDX := (lookup s).IDX, CAND := (lookup s).CAND, TABLE := (lookup s).TABLE, CS := s.CS + 1 }

/-- The end of a match: at least four bytes on, both cursors moved together, over equal bytes. -/
theorem matchEnd_spec {t : Nat} {s : State} (hs : s.CS + 3 < s.N)
    (h4 : ∀ j, j < 4 → s.readIn (s.CS + j) = s.readIn (t + j)) :
    ∃ len, matchEnd t s = (s.CS + len, t + len) ∧ 4 ≤ len ∧ s.CS + len ≤ s.N ∧
      (∀ j, j < len → s.readIn (s.CS + j) = s.readIn (t + j)) ∧
      (s.CS + len = s.N ∨ s.readIn (s.CS + len) ≠ s.readIn (t + len)) := by
  obtain ⟨e, h1, h2, h3, h5⟩ := extendLoop_spec s.readIn s.N (s.N - (s.CS + Config.minMatch)) (s.CS + Config.minMatch)
    (t + Config.minMatch) (by omega) (by simp only [Config.minMatch]; omega)
  have em : Config.minMatch = 4 := rfl
  rw [em] at h1 h2 h3 h5
  refine ⟨4 + e, ?_, by omega, by omega, ?_, ?_⟩
  · show extendLoop _ _ _ _ _ = _
    rw [em, h1]; congr 1 <;> omega
  · intro j hj
    by_cases hj4 : j < 4
    · exact h4 j hj4
    · have := h3 (j - 4) (by omega)
      have e1 : s.CS + 4 + (j - 4) = s.CS + j := by omega
      have e2 : t + 4 + (j - 4) = t + j := by omega
      rwa [e1, e2] at this
  · have e1 : s.CS + 4 + e = s.CS + (4 + e) := by omega
    have e2 : t + 4 + e = t + (4 + e) := by omega
    rwa [e1, e2] at h5

/-- A candidate whose four bytes are equal has a match length. -/
theorem exists_matchLength {p : Nat} {s : State} (hs : s.CS + 3 < s.N)
    (h4 : ∀ j, j < 4 → s.readIn (p + j) = s.readIn (s.CS + j)) : ∃ len, MatchLength s p len := by
  obtain ⟨len, -, h1, h2, h3, h5⟩ := matchEnd_spec (t := p) hs fun j hj => (h4 j hj).symm
  exact ⟨len, h1, h2, fun j hj => (h3 j hj).symm, h5.imp_right Ne.symm⟩

/-- There is only one. -/
theorem MatchLength.unique {s : State} {p a b : Nat} (ha : MatchLength s p a) (hb : MatchLength s p b) : a = b := by
  have h1 := ha.inside
  have h2 := hb.inside
  rcases Nat.lt_trichotomy a b with h | h | h
  · rcases ha.longest with e | e
    · omega
    · exact absurd (hb.equal a h) e
  · exact h
  · rcases hb.longest with e | e
    · omega
    · exact absurd (ha.equal b h) e

theorem MatchLength.matchEnd_eq {s : State} {p len : Nat} (h : MatchLength s p len) :
    matchEnd p s = (s.CS + len, p + len) := by
  have h1 : 4 ≤ len := h.min
  have h2 := h.inside
  obtain ⟨l, e, g1, g2, g3, g5⟩ := matchEnd_spec (t := p) (s := s) (by omega) fun j hj => (h.equal j (by omega)).symm
  rw [e, h.unique ⟨g1, g2, fun j hj => (g3 j hj).symm, g5.imp_right Ne.symm⟩]

theorem MatchLength.hitBytes_eq {s : State} {p len : Nat} (h : MatchLength s p len) : hitBytes p s = hitOutput p len s := by
  unfold hitBytes hitOutput
  rw [h.matchEnd_eq]
  dsimp only
  rw [Nat.add_sub_add_right, Nat.add_sub_cancel_left]

/-- The state after a match is extended and its copy emitted (R202, R203). -/
def copied (s : State) : State :=
  { s with
    CT := (matchEnd s.CT s).2
    S0 := s.CS
    CS := (matchEnd s.CT s).1
    LIT := (matchEnd s.CT s).1
    REM := 0
    W := s.W + (copyBytes ((matchEnd s.CT s).1 - (matchEnd s.CT s).2) ((matchEnd s.CT s).1 - s.CS)).length
    OUT := Store.writeList s.OUT s.W
      (copyBytes ((matchEnd s.CT s).1 - (matchEnd s.CT s).2) ((matchEnd s.CT s).1 - s.CS)) }

theorem matchCopy_cases (s : State) : matchCopy s = .go (copied s) ∨ ∃ r, matchCopy s = .refuse r := by
  unfold matchCopy
  dsimp only
  rcases emitCopy_cases ((extendMatch s).CS - (extendMatch s).CT) ((extendMatch s).CS - (extendMatch s).S0)
    (extendMatch s) with ⟨-, h⟩ | h | ⟨-, h⟩
  · left; rw [h]; rfl
  · right; exact ⟨_, by rw [h]; rfl⟩
  · right; exact ⟨_, by rw [h]; rfl⟩

theorem matchCopy_go {s : State} (hd : (matchEnd s.CT s).1 - (matchEnd s.CT s).2 < 65536)
    (hw : Capacity.fits s.caps.outCap (s.W +
      (copyBytes ((matchEnd s.CT s).1 - (matchEnd s.CT s).2) ((matchEnd s.CT s).1 - s.CS)).length) = true) :
    matchCopy s = .go (copied s) := by
  rcases matchCopy_cases s with h | ⟨r, h⟩
  · exact h
  · have hd' : (extendMatch s).CS - (extendMatch s).CT < 65536 := hd
    have hw' : Capacity.fits (extendMatch s).caps.outCap ((extendMatch s).W +
      (copyBytes ((extendMatch s).CS - (extendMatch s).CT) ((extendMatch s).CS - (extendMatch s).S0)).length) = true := hw
    unfold matchCopy at h
    dsimp only at h
    rw [emitCopy_go hd' hw', andThen_go] at h
    cases h

theorem matchCopy_refuse {s : State} (hd : (matchEnd s.CT s).1 - (matchEnd s.CT s).2 < 65536)
    (hb : copyBytes ((matchEnd s.CT s).1 - (matchEnd s.CT s).2) ((matchEnd s.CT s).1 - s.CS) ≠ [])
    (hw : Capacity.fits s.caps.outCap (s.W +
      (copyBytes ((matchEnd s.CT s).1 - (matchEnd s.CT s).2) ((matchEnd s.CT s).1 - s.CS)).length) = false) :
    matchCopy s = .refuse .outCapacity := by
  have h : emitCopy ((extendMatch s).CS - (extendMatch s).CT) ((extendMatch s).CS - (extendMatch s).S0) (extendMatch s) =
      .refuse .outCapacity := emitCopy_refuse hd hb hw
  unfold matchCopy
  dsimp only
  rw [h]; rfl

/-- The state a hit has reached when it flushes the pending literal. -/
def hitFound (t : Nat) (s : State) : State := { lookup s with CT := t }

theorem copied_flushed (t : Nat) (s : State) : copied (emitted (pendingBytes s.CS s) (hitFound t s)) = hitDone t s := by
  have e : matchEnd t (emitted (pendingBytes s.CS s) (hitFound t s)) = matchEnd t s := rfl
  unfold copied hitDone hitBytes
  rw [List.length_append, writeList_append, ← Nat.add_assoc]
  show State.mk .. = State.mk ..
  rfl

/-- Everything a scan step can end in. -/
theorem scanStep_cases (s : State) :
    (hitCandidate (lookup s) = none ∧ scanStep s = .go (missDone s)) ∨
    ∃ t, hitCandidate (lookup s) = some t ∧
      (scanStep s = .go (hitDone t s) ∨
       (2 ^ 32 ≤ s.CS - s.LIT - 1 ∧ scanStep s = .raised .invalidInput (hitFound t s)) ∨
       ∃ r, scanStep s = .refuse r) := by
  cases hc : hitCandidate (lookup s) with
  | none => exact .inl ⟨rfl, by unfold scanStep; dsimp only; rw [hc]; rfl⟩
  | some t =>
    refine .inr ⟨t, rfl, ?_⟩
    have e : scanStep s = (flushLiteral s.CS (hitFound t s)).andThen matchCopy := by
      unfold scanStep; dsimp only; rw [hc]; rfl
    rw [e]
    rcases flushLiteral_cases s.CS (hitFound t s) with h | ⟨hl, h⟩ | h
    · have hp : pendingBytes s.CS (hitFound t s) = pendingBytes s.CS s := pendingBytes_congr rfl rfl rfl
      rw [h, hp, andThen_go]
      rcases matchCopy_cases (emitted (pendingBytes s.CS s) (hitFound t s)) with h2 | h2
      · exact .inl (by rw [h2, copied_flushed])
      · exact .inr (.inr h2)
    · exact .inr (.inl ⟨hl, by rw [h]; rfl⟩)
    · exact .inr (.inr ⟨_, by rw [h]; rfl⟩)

/-- A hit completes where its literal, its distance and the room allow. -/
theorem scanStep_hit {t : Nat} {s : State} (hc : hitCandidate (lookup s) = some t) (hl : s.CS - s.LIT - 1 < 2 ^ 32)
    (hd : (matchEnd t s).1 - (matchEnd t s).2 < 65536)
    (hw : Capacity.fits s.caps.outCap (s.W + (hitBytes t s).length) = true) : scanStep s = .go (hitDone t s) := by
  have e : scanStep s = (flushLiteral s.CS (hitFound t s)).andThen matchCopy := by
    unfold scanStep; dsimp only; rw [hc]; rfl
  have hp : pendingBytes s.CS (hitFound t s) = pendingBytes s.CS s := pendingBytes_congr rfl rfl rfl
  unfold hitBytes at hw
  rw [List.length_append] at hw
  rw [e, flushLiteral_go (s := hitFound t s) hl (fits_mono hw (by
    rw [hp]; show s.W + (pendingBytes s.CS s).length ≤ _; omega)), hp, andThen_go, matchCopy_go hd, copied_flushed]
  exact fits_mono hw (by rw [← Nat.add_assoc]; exact Nat.le_refl _)

/-- A hit whose bytes pass the room is refused (R31), at its literal or at its copy. -/
theorem scanStep_refuse {t : Nat} {s : State} (hc : hitCandidate (lookup s) = some t) (hl : s.CS - s.LIT - 1 < 2 ^ 32)
    (hd : (matchEnd t s).1 - (matchEnd t s).2 < 65536)
    (hb : copyBytes ((matchEnd t s).1 - (matchEnd t s).2) ((matchEnd t s).1 - s.CS) ≠ [])
    (hw : Capacity.fits s.caps.outCap (s.W + (hitBytes t s).length) = false) : scanStep s = .refuse .outCapacity := by
  have e : scanStep s = (flushLiteral s.CS (hitFound t s)).andThen matchCopy := by
    unfold scanStep; dsimp only; rw [hc]; rfl
  have hp : pendingBytes s.CS (hitFound t s) = pendingBytes s.CS s := pendingBytes_congr rfl rfl rfl
  rw [e]
  cases hf : Capacity.fits s.caps.outCap (s.W + (pendingBytes s.CS s).length) with
  | true =>
    rw [flushLiteral_go (s := hitFound t s) hl (by rw [hp]; exact hf), andThen_go, hp]
    refine matchCopy_refuse hd hb ?_
    rw [← hw]
    show Capacity.fits s.caps.outCap (s.W + (pendingBytes s.CS s).length + _) = _
    unfold hitBytes
    rw [List.length_append, ← Nat.add_assoc]
    rfl
  | false =>
    by_cases hlit : s.LIT = s.CS
    · have hgo : flushLiteral s.CS (hitFound t s) = .go (hitFound t s) := by
        unfold flushLiteral; exact if_neg (not_not_intro hlit)
      rw [hgo, andThen_go]
      refine matchCopy_refuse hd hb ?_
      rw [← hw]
      show Capacity.fits s.caps.outCap (s.W + _) = _
      unfold hitBytes pendingBytes
      rw [if_pos hlit, List.nil_append]
      rfl
    · rw [flushLiteral_refuse (s := hitFound t s) hlit hl (by rw [hp]; exact hf)]; rfl

/-! ## The end of the scan, and the first step (R191 to R194, R204) -/

/-- The state in which `COMPRESS` ends after its last literal. -/
def scanDone (s : State) : State :=
  { s with
    W := s.W + (pendingBytes s.N s).length
    OUT := Store.writeList s.OUT s.W (pendingBytes s.N s)
    OUT_LEN := BitVec.ofNat 64 (s.W + (pendingBytes s.N s).length)
    STATUS := .ok
    PHASE := .done }

theorem finishScan_cases (s : State) :
    finishScan s = .go (scanDone s) ∨ (2 ^ 32 ≤ s.N - s.LIT - 1 ∧ finishScan s = .raised .invalidInput s) ∨
    finishScan s = .refuse .outCapacity := by
  unfold finishScan
  rcases flushLiteral_cases s.N s with h | ⟨hl, h⟩ | h
  · exact .inl (by rw [h]; rfl)
  · exact .inr (.inl ⟨hl, by rw [h]; rfl⟩)
  · exact .inr (.inr (by rw [h]; rfl))

theorem finishScan_refuse {s : State} (hl : s.LIT ≠ s.N) (hc : s.N - s.LIT - 1 < 2 ^ 32)
    (h : Capacity.fits s.caps.outCap (s.W + (pendingBytes s.N s).length) = false) :
    finishScan s = .refuse .outCapacity := by
  unfold finishScan
  rw [flushLiteral_refuse hl hc h]; rfl

theorem finishScan_go {s : State} (hc : s.N - s.LIT - 1 < 2 ^ 32)
    (h : Capacity.fits s.caps.outCap (s.W + (pendingBytes s.N s).length) = true) : finishScan s = .go (scanDone s) := by
  unfold finishScan
  rw [flushLiteral_go hc h]; rfl

/-- The header of the block: the varint of the length (R192). -/
def headerBytes (s : State) : List Byte := putuvarintBytes (BitVec.ofNat 64 s.IN_LEN.toNat)

/-- The state after the header (R191, R192). -/
def headerEmitted (s : State) : State :=
  { s with
    N := s.IN_LEN.toNat
    W := (headerBytes s).length
    OUT := Store.writeList s.OUT 0 (headerBytes s)
    PV := (putuvarintLoop 9 (BitVec.ofNat 64 s.IN_LEN.toNat)).2 }

theorem headerEmitted_eq (s : State) :
    { emitted (headerBytes s) { s with N := s.IN_LEN.toNat, W := 0 } with
      PV := (putuvarintLoop 9 (BitVec.ofNat 64 s.IN_LEN.toNat)).2 } = headerEmitted s := by
  simp only [emitted, headerEmitted, Nat.zero_add]

/-- What a short input emits after the header (R193). -/
def shortBytes (s : State) : List Byte :=
  if s.N = 0 then [] else literalHead (s.N - 1) ++ s.inBytes 0 s.N

/-- The state in which a short input ends (R193). -/
def shortDone (s : State) : State :=
  { s with
    W := s.W + (shortBytes s).length
    OUT := Store.writeList s.OUT s.W (shortBytes s)
    OUT_LEN := BitVec.ofNat 64 (s.W + (shortBytes s).length)
    STATUS := .ok
    PHASE := .done }

theorem shortInput_cases {s : State} (h : s.N ≤ Config.shortInputMax) :
    shortInput s = .go (shortDone s) ∨ shortInput s = .refuse .outCapacity := by
  unfold shortInput shortDone shortBytes
  by_cases h0 : s.N = 0
  · left
    rw [if_neg (not_not.mpr h0), if_pos h0, andThen_go]; rfl
  · rw [if_pos h0, if_neg h0]
    rcases emitLiteral_cases 0 s.N s with h1 | ⟨h1, -⟩ | h1
    · left; rw [h1]; rfl
    · simp only [Config.shortInputMax] at h; omega
    · right; rw [h1]; rfl

theorem shortInput_go {s : State} (h : s.N ≤ Config.shortInputMax)
    (hw : Capacity.fits s.caps.outCap (s.W + (shortBytes s).length) = true) : shortInput s = .go (shortDone s) := by
  rcases shortInput_cases h with h1 | h1
  · exact h1
  · unfold shortInput at h1
    unfold shortBytes at hw
    by_cases h0 : s.N = 0
    · rw [if_neg (not_not.mpr h0), andThen_go] at h1; cases h1
    · rw [if_neg h0, List.length_append, inBytes_length] at hw
      simp only [Config.shortInputMax] at h
      rw [if_pos h0, emitLiteral_go (by omega) hw, andThen_go] at h1
      cases h1

/-- Everything the first step of `COMPRESS` can end in. -/
theorem compressBegin_cases (s : State) :
    (Config.maxInputLen < s.IN_LEN.toNat ∧ compressBegin s = .raised .invalidInput { s with N := s.IN_LEN.toNat }) ∨
    (s.IN_LEN.toNat ≤ Config.shortInputMax ∧ compressBegin s = .go (shortDone (headerEmitted s))) ∨
    (Config.shortInputMax < s.IN_LEN.toNat ∧ s.IN_LEN.toNat ≤ Config.maxInputLen ∧
      compressBegin s = .go (startScan (headerEmitted s))) ∨
    (s.IN_LEN.toNat ≤ Config.maxInputLen ∧ compressBegin s = .refuse .outCapacity) := by
  unfold compressBegin
  dsimp only
  by_cases h1 : s.IN_LEN.toNat > Config.maxInputLen
  · exact .inl ⟨h1, by rw [if_pos h1]⟩
  · rw [if_neg h1]
    rcases putuvarint_cases (BitVec.ofNat 64 s.IN_LEN.toNat) { s with N := s.IN_LEN.toNat, W := 0 } with h | h
    · rw [h, andThen_go, ← headerBytes, headerEmitted_eq]
      have hn : (headerEmitted s).N = s.IN_LEN.toNat := rfl
      unfold afterHeader
      by_cases h2 : s.IN_LEN.toNat ≤ Config.shortInputMax
      · rw [if_pos (by rw [hn]; exact h2)]
        rcases shortInput_cases (s := headerEmitted s) h2 with h3 | h3
        · exact .inr (.inl ⟨h2, h3⟩)
        · exact .inr (.inr (.inr ⟨by omega, h3⟩))
      · rw [if_neg (by rw [hn]; exact h2)]
        exact .inr (.inr (.inl ⟨by omega, by omega, rfl⟩))
    · exact .inr (.inr (.inr ⟨by omega, by rw [h]; rfl⟩))

/-- The first step completes where there is room for what it emits. -/
theorem compressBegin_go {s : State} (h : s.IN_LEN.toNat ≤ Config.maxInputLen)
    (hw : Capacity.fits s.caps.outCap (headerBytes s).length = true) :
    compressBegin s = afterHeader (headerEmitted s) := by
  unfold compressBegin
  dsimp only
  rw [if_neg (by omega), putuvarint_go (s := { s with N := s.IN_LEN.toNat, W := 0 })
    (by show Capacity.fits _ (0 + (headerBytes s).length) = true; rwa [Nat.zero_add]), andThen_go, ← headerBytes,
    headerEmitted_eq]

/-! ## Room (R31) -/

theorem keepsRoom_flushLiteral (upTo : Nat) : KeepsRoom (flushLiteral upTo) := by
  intro s t c h hc hw
  unfold flushLiteral at h
  split at h
  · exact keepsRoom_emitLiteral _ _ s t c h hc hw
  · cases h; exact ⟨hw, rfl⟩

theorem keepsRoom_matchCopy : KeepsRoom matchCopy := by
  intro s t c h hc hw
  obtain ⟨u, h1, h2⟩ := andThen_eq_go h
  cases h2
  exact keepsRoom_emitCopy _ _ (extendMatch s) u c h1 hc hw

theorem keepsRoom_scanStep : KeepsRoom scanStep := by
  intro s t c h hc hw
  unfold scanStep at h
  dsimp only at h
  split at h
  · cases h; exact ⟨hw, rfl⟩
  · next p _ =>
    obtain ⟨u, h1, h2⟩ := andThen_eq_go h
    obtain ⟨a, b⟩ := keepsRoom_flushLiteral _ _ u c h1 hc hw
    obtain ⟨a2, b2⟩ := keepsRoom_matchCopy u t c h2 (by rw [b]; exact hc) a
    exact ⟨a2, b2.trans b⟩

theorem keepsRoom_compressDone : KeepsRoom compressDone :=
  keepsRoom_go (fun s => succeed (BitVec.ofNat 64 s.W) s) (fun _ => Nat.le_refl _) (fun _ => rfl)

theorem keepsRoom_finishScan : KeepsRoom finishScan := fun s =>
  ((keepsRoom_flushLiteral s.N).andThen keepsRoom_compressDone) s

theorem keepsRoom_shortInput : KeepsRoom shortInput := by
  intro s t c h hc hw
  obtain ⟨u, h1, h2⟩ := andThen_eq_go h
  have hu : u.W ≤ c ∧ u.caps = s.caps := by
    split at h1
    · exact keepsRoom_emitLiteral _ _ s u c h1 hc hw
    · cases h1; exact ⟨hw, rfl⟩
  obtain ⟨a, b⟩ := keepsRoom_compressDone u t c h2 (by rw [hu.2]; exact hc) hu.1
  exact ⟨a, b.trans hu.2⟩

theorem keepsRoom_compressBegin : KeepsRoom compressBegin := by
  intro s t c h hc hw
  unfold compressBegin at h
  dsimp only at h
  split at h
  · cases h
  · obtain ⟨u, h1, h2⟩ := andThen_eq_go h
    obtain ⟨a, b⟩ := keepsRoom_putuvarint _ _ u c h1 hc (Nat.zero_le c)
    unfold afterHeader at h2
    split at h2
    · obtain ⟨a2, b2⟩ := keepsRoom_shortInput u t c h2 (by rw [b]; exact hc) a
      exact ⟨a2, b2.trans b⟩
    · cases h2; exact ⟨a, b⟩

end Sys2Proof.Machine
end

