-- ==== Sys2Proof/Laws/Step.lean ====
section
/-! SUPPORT. What a step is, by the phase and the host's move: the engine's instruction while the core runs and the host is
silent, the host's move otherwise. -/

namespace Sys2Proof.Machine

/-! ## The engine's step -/

theorem step_run {s : State} (hp : s.PHASE = .run) (hh : s.host = []) : step s = engineStep s := by
  unfold step machineStep hostTurnRun
  rw [hp, hh]

/-- The first step of an operation (R22, R25). -/
theorem engineStep_begin {s : State} (h : s.stage = .begin) : engineStep s = exec (decodeOp s.OP) s := by
  unfold engineStep engineInstr engineFetch atChunk
  rw [h]; rfl

/-- A step during a scan (R196). -/
theorem engineStep_scan {s : State} (h : s.stage = .scan) : engineStep s = exec .compress s := by
  unfold engineStep engineInstr engineFetch atChunk
  rw [h]; rfl

/-- A chunk step (R152). -/
theorem engineStep_chunk {s : State} (h : s.stage = .chunks) (hs : s.S < s.IN_LEN.toNat) :
    engineStep s = exec (chunkAt s) (fetchChunk s) := by
  have ha : atChunk s = true := by unfold atChunk; rw [h]; simpa using hs
  unfold engineStep engineInstr engineFetch
  rw [h, ha]; rfl

/-- The end step (R165). -/
theorem engineStep_end {s : State} (h : s.stage = .chunks) (hs : ¬ s.S < s.IN_LEN.toNat) :
    engineStep s = endStep s := by
  have ha : atChunk s = false := by unfold atChunk; rw [h]; simpa using hs
  unfold engineStep engineInstr engineFetch
  rw [h, ha]
  show execDecompress s = _
  unfold execDecompress
  rw [h]; exact if_neg hs

/-- The chunk step of `DECOMPRESS` runs the chunk at `S` after the fetch (R152). -/
theorem chunkStep_eq (s : State) : chunkStep s = exec (chunkAt s) (fetchChunk s) := by
  have hw : (chunkAt s).fixedBytes ≠ 0 := by
    have := (decodeWindow_fixedBytes (s.blockByte s.S) (s.blockByte (s.S + 1)) (s.blockByte (s.S + 2))
      (s.blockByte (s.S + 3)) (s.blockByte (s.S + 4))).1
    unfold chunkAt; omega
  unfold chunkStep
  split <;> simp_all [exec, Instr.fixedBytes]

/-! ## The bytes of the block -/

theorem blockByte_lt {s : State} {i : Nat} (h : i < s.IN_LEN.toNat) : s.blockByte i = s.readIn i := if_pos h

/-- The chunk at `S` is what the decoder reads from the rest of the block; where the rest is too short for the chunk's fixed
part the decoder says so. -/
theorem decodeChunk_block {s : State} (hs : s.S < s.IN_LEN.toNat) :
    decodeChunk (s.inBytes s.S (s.IN_LEN.toNat - s.S)) =
      if s.S + (chunkAt s).fixedBytes ≤ s.IN_LEN.toNat then
        .ok (chunkAt s) (s.inBytes (s.S + (chunkAt s).fixedBytes) (s.IN_LEN.toNat - (s.S + (chunkAt s).fixedBytes)))
      else .reject (.truncated (chunkAt s).mnemonic) := by
  have byte : ∀ j, (s.inBytes (s.S + 1) (s.IN_LEN.toNat - s.S - 1)).getD j 0 = s.blockByte (s.S + (j + 1)) := by
    intro j
    by_cases hj : j < s.IN_LEN.toNat - s.S - 1
    · rw [List.getD_eq_getElem?_getD, inBytes_getElem? s _ _ _ hj, blockByte_lt (by omega)]
      show s.readIn _ = s.readIn _
      congr 1; omega
    · rw [List.getD_eq_getElem?_getD, List.getElem?_eq_none (by rw [inBytes_length]; omega)]
      unfold State.blockByte
      rw [if_neg (by omega)]; rfl
  have drop : ∀ n a k, (s.inBytes a n).drop k = s.inBytes (a + k) (n - k) := by
    intro n
    induction n with
    | zero => intro a k; simp [State.inBytes]
    | succ n ih =>
      intro a k
      cases k with
      | zero => rfl
      | succ k =>
        rw [State.inBytes, List.drop_succ_cons, ih]
        congr 1 <;> omega
  have hlen : s.IN_LEN.toNat - s.S = (s.IN_LEN.toNat - s.S - 1) + 1 := by omega
  have hpos : 1 ≤ (chunkAt s).fixedBytes := by
    have := (decodeWindow_fixedBytes (s.blockByte s.S) (s.blockByte (s.S + 1)) (s.blockByte (s.S + 2))
      (s.blockByte (s.S + 3)) (s.blockByte (s.S + 4))).1
    unfold chunkAt; exact this
  rw [hlen, State.inBytes, decodeChunk_cons (i := chunkAt s)
    (by unfold chunkAt; rw [byte, byte, byte, byte, blockByte_lt hs]), inBytes_length, drop]
  by_cases hf : s.S + (chunkAt s).fixedBytes ≤ s.IN_LEN.toNat
  · rw [if_pos hf, if_pos (by omega)]
    congr 2 <;> omega
  · rw [if_neg hf, if_neg (by omega)]

/-- A chunk whose length or offset bytes are missing raises Corrupt (R154 to R157, R160, R161). -/
theorem exec_truncated {i : Instr} {s : State} (h2 : 2 ≤ i.fixedBytes) (h : s.IN_LEN.toNat < s.S + i.fixedBytes) :
    exec i s = .next (raise .corrupt s) := by
  have hp : ∀ n, n = i.fixedBytes → fixedPartPresent n s = false := by
    intro n hn; simp only [fixedPartPresent, decide_eq_false_iff_not]; omega
  cases i with
  | lit m => simp [Instr.fixedBytes] at h2
  | lit1 x => simp [exec, execLit1, hp 2 rfl]
  | lit2 x => simp [exec, execLit2, hp 3 rfl]
  | lit3 x => simp [exec, execLit3, hp 4 rfl]
  | lit4 x => simp [exec, execLit4, hp 5 rfl]
  | copy1 l off => simp [exec, execCopy1, hp 2 rfl]
  | copy2 m off => simp [exec, execCopy2, hp 3 rfl]
  | copy4 m => simp [Instr.fixedBytes] at h2
  | decompress => simp [Instr.fixedBytes] at h2
  | compress => simp [Instr.fixedBytes] at h2
  | uvarint => simp [Instr.fixedBytes] at h2
  | putuvarint => simp [Instr.fixedBytes] at h2

/-! ## The host's step -/

/-- With the core not running the step is the host's (R26, R262). -/
theorem step_idle {s : State} (hp : s.PHASE ≠ .run) : step s = hostTurnIdle s := by
  unfold step machineStep
  cases h : s.PHASE with
  | run => exact absurd h hp
  | idle => rfl
  | done => rfl

theorem step_idle_move {s : State} {m : HostMove} {rest : List HostMove} (hp : s.PHASE ≠ .run) (hh : s.host = m :: rest) :
    step s = hostMoveIdle m { s with host := rest } := by
  rw [step_idle hp]; unfold hostTurnIdle; rw [hh]

/-- With the core running the host's move decides who has the step (R286). -/
theorem step_run_move {s : State} {m : HostMove} {rest : List HostMove} (hp : s.PHASE = .run) (hh : s.host = m :: rest) :
    step s = match hostMoveRun m rest s with
      | .engine s1 => engineStep s1
      | .host o => o := by
  have ht : hostTurnRun s = hostMoveRun m rest s := by unfold hostTurnRun; rw [hh]
  unfold step machineStep
  rw [hp, ht] <;> (cases hostMoveRun m rest s <;> rfl)

end Sys2Proof.Machine
end

