-- ==== Sys2Proof/Laws/Varint.lean ====
section
/-! SUPPORT. What the varint decoder answers on a varint, on a truncated one and on an overflow (R131 to R133), and what the
encoder's bytes are (R136). -/

namespace Sys2Proof.Machine

/-! ## Groups -/

theorem groupsValue_lt (rd : Nat → Byte) (k : Nat) : groupsValue rd k < 2 ^ (7 * k) := by
  induction k with
  | zero => simp [groupsValue]
  | succ k ih =>
    have h : (rd k).toNat % 128 < 128 := Nat.mod_lt _ (by omega)
    have e : 2 ^ (7 * (k + 1)) = 2 ^ (7 * k) * 128 := by rw [Nat.mul_add, Nat.pow_add]
    rw [groupsValue, e]
    nlinarith [Nat.two_pow_pos (7 * k)]

theorem groupsValue_congr {rd rd' : Nat → Byte} {k : Nat} (h : ∀ i, i < k → rd i = rd' i) :
    groupsValue rd k = groupsValue rd' k := by
  induction k with
  | zero => rfl
  | succ k ih => rw [groupsValue, groupsValue, ih (fun i hi => h i (by omega)), h k (by omega)]

/-- The first group is the least significant one. -/
theorem groupsValue_succ (rd : Nat → Byte) (k : Nat) :
    groupsValue rd (k + 1) = (rd 0).toNat % 128 + 128 * groupsValue (fun i => rd (i + 1)) k := by
  induction k with
  | zero => simp [groupsValue]
  | succ k ih =>
    rw [groupsValue, ih, groupsValue]
    have e : 2 ^ (7 * (k + 1)) = 128 * 2 ^ (7 * k) := by rw [Nat.mul_add, Nat.pow_add]; omega
    rw [e]; ring

theorem isVarint_congr {rd rd' : Nat → Byte} {k : Nat} (h : ∀ i, i < k → rd i = rd' i) (hv : IsVarint rd k) :
    IsVarint rd' k where
  pos := hv.pos
  short := hv.short
  cont := fun i hi => by rw [← h i (by omega)]; exact hv.cont i hi
  last := by rw [← h (k - 1) (by have := hv.pos; omega)]; exact hv.last
  tenth := fun hk => by rw [← h 9 (by omega)]; exact hv.tenth hk

/-- A varint ends at its first byte without continuation bit, so its length is determined. -/
theorem isVarint_unique {rd : Nat → Byte} {j k : Nat} (hj : IsVarint rd j) (hk : IsVarint rd k) : j = k := by
  have a := hj.last; have b := hk.last; have := hj.pos; have := hk.pos
  rcases Nat.lt_trichotomy j k with h | h | h
  · have := hk.cont (j - 1) (by omega); omega
  · exact h
  · have := hj.cont (k - 1) (by omega); omega

/-! ## The decoder -/

/-- One group joins the accumulator by `or` as by addition. -/
theorem or_shift_toNat (acc : Word64) (x : Byte) (n : Nat) (ha : acc.toNat < 2 ^ n) (hx : x.toNat * 2 ^ n < 2 ^ 64) :
    (acc ||| (x.zext64 <<< n)).toNat = acc.toNat + x.toNat * 2 ^ n := by
  have hx' : x.zext64.toNat = x.toNat := by
    have := x.isLt; simp only [Byte.zext64, BitVec.toNat_setWidth]; omega
  rw [BitVec.toNat_or, BitVec.toNat_shiftLeft, hx', Nat.shiftLeft_eq, Nat.mod_eq_of_lt hx, Nat.or_comm,
    Nat.mul_comm x.toNat, ← Nat.two_pow_add_eq_or_of_lt ha, Nat.add_comm]

theorem low7_toNat (b : Byte) : (b &&& 0x7f#8).toNat = b.toNat % 128 := by
  rw [BitVec.toNat_and]; exact Nat.and_two_pow_sub_one_eq_mod b.toNat 7

/-- Past the leading continuation bytes the loop stands with the groups read so far in the accumulator. -/
theorem uvarintLoop_skip (rd : Nat → Byte) (len n fuel : Nat) (hn : n ≤ 9) (hl : n ≤ len)
    (hc : ∀ i, i < n → 128 ≤ (rd i).toNat) :
    ∃ acc : Word64, acc.toNat = groupsValue rd n ∧
      uvarintLoop rd len (n + fuel) 0 0 0 = uvarintLoop rd len fuel acc (7 * n) n := by
  induction n generalizing fuel with
  | zero => exact ⟨0, rfl, by rw [Nat.zero_add, Nat.mul_zero]⟩
  | succ n ih =>
    obtain ⟨acc, ha, hr⟩ := ih (fuel + 1) (by omega) (by omega) (fun i hi => hc i (by omega))
    have hb := hc n (by omega)
    refine ⟨acc ||| (((rd n) &&& 0x7f#8).zext64 <<< (7 * n)), ?_, ?_⟩
    · rw [or_shift_toNat acc _ (7 * n) (by rw [ha]; exact groupsValue_lt rd n), low7_toNat, ha, groupsValue]
      rw [low7_toNat]
      have h1 : (rd n).toNat % 128 < 128 := Nat.mod_lt _ (by omega)
      have h2 : 2 ^ (7 * n) ≤ 2 ^ 56 := Nat.pow_le_pow_right (by omega) (by omega)
      have : (rd n).toNat % 128 * 2 ^ (7 * n) ≤ 127 * 2 ^ 56 := Nat.mul_le_mul (by omega) h2
      omega
    · have e : n + 1 + fuel = n + (fuel + 1) := by omega
      rw [e, hr, uvarintLoop, if_neg (by omega), if_neg (by simp [Config.maxVarintBytes]; omega), if_neg (by omega)]
      congr 1

/-- On a varint of `k` bytes inside the input the decoder answers its value and `k` (R92, R131). -/
theorem uvarintLoop_ok {rd : Nat → Byte} {len k : Nat} (h : IsVarint rd k) (hl : k ≤ len) :
    ∃ v : Word64, v.toNat = groupsValue rd k ∧ (uvarintLoop rd len 11 0 0 0).result = .ok v k := by
  obtain ⟨n, rfl⟩ : ∃ n, k = n + 1 := ⟨k - 1, by have := h.pos; omega⟩
  have hs := h.short
  obtain ⟨acc, ha, hr⟩ := uvarintLoop_skip rd len n (11 - n) (by omega) (by omega) (fun i hi => h.cont i (by omega))
  have e : n + (11 - n) = (10 - n) + 1 + n := by omega
  have e2 : 11 = n + (11 - n) := by omega
  have hlast : (rd n).toNat < 128 := by have := h.last; simpa using this
  have hten : ¬ (n = 9 ∧ 1 < (rd n).toNat) := by
    rintro ⟨rfl, h1⟩; have := h.tenth rfl; omega
  obtain ⟨f, hf⟩ : ∃ f, 11 - n = f + 1 := ⟨10 - n, by omega⟩
  refine ⟨acc ||| ((rd n).zext64 <<< (7 * n)), ?_, ?_⟩
  · have h7 := groupsValue_lt rd n
    rw [or_shift_toNat acc _ (7 * n) (by rw [ha]; exact h7), ha, groupsValue, Nat.mod_eq_of_lt hlast]
    by_cases hn : n = 9
    · subst hn
      have := h.tenth rfl
      have : (rd 9).toNat * 2 ^ (7 * 9) ≤ 1 * 2 ^ 63 := Nat.mul_le_mul (by omega) (by norm_num)
      omega
    · have h2 : 2 ^ (7 * n) ≤ 2 ^ 56 := Nat.pow_le_pow_right (by omega) (by omega)
      have : (rd n).toNat * 2 ^ (7 * n) ≤ 127 * 2 ^ 56 := Nat.mul_le_mul (by omega) h2
      omega
  · rw [e2, hr, hf, uvarintLoop, if_neg (by omega), if_neg (by simp [Config.maxVarintBytes]; omega), if_pos hlast,
      if_neg hten]

/-- The input ends before a terminating byte: TRUNC (R132). -/
theorem uvarintLoop_trunc {rd : Nat → Byte} {len : Nat} (hl : len ≤ 10) (hc : ∀ i, i < len → 128 ≤ (rd i).toNat) :
    (uvarintLoop rd len 11 0 0 0).result = .trunc := by
  by_cases h10 : len = 10
  · subst h10
    obtain ⟨acc, -, hr⟩ := uvarintLoop_skip rd 10 9 2 (by omega) (by omega) (fun i hi => hc i (by omega))
    rw [hr]
    have := hc 9 (by omega)
    simp [uvarintLoop, Config.maxVarintBytes]
    rw [if_neg (by omega)]
  · obtain ⟨acc, -, hr⟩ := uvarintLoop_skip rd len len (11 - len) (by omega) (by omega) hc
    obtain ⟨f, hf⟩ : ∃ f, 11 - len = f + 1 := ⟨10 - len, by omega⟩
    have e2 : 11 = len + (11 - len) := by omega
    rw [e2, hr, hf, uvarintLoop, if_pos rfl]

/-- An eleventh byte is read, or the tenth terminates with a value above 1: OVF (R133). -/
theorem uvarintLoop_ovf {rd : Nat → Byte} {len : Nat} (hl : 10 ≤ len) (hc : ∀ i, i < 9 → 128 ≤ (rd i).toNat)
    (h : (128 ≤ (rd 9).toNat ∧ 11 ≤ len) ∨ (1 < (rd 9).toNat ∧ (rd 9).toNat < 128)) :
    (uvarintLoop rd len 11 0 0 0).result = .ovf := by
  obtain ⟨acc, -, hr⟩ := uvarintLoop_skip rd len 9 2 (by omega) (by omega) hc
  rw [hr, uvarintLoop, if_neg (by omega), if_neg (by simp [Config.maxVarintBytes])]
  rcases h with ⟨h1, h2⟩ | ⟨h1, h2⟩
  · rw [if_neg (by omega), uvarintLoop, if_neg (by omega), if_pos (show 9 + 1 = Config.maxVarintBytes from rfl)]
  · rw [if_pos h2, if_pos ⟨rfl, h1⟩]

/-- Every input is one of the three. -/
theorem varint_trichotomy (rd : Nat → Byte) (len : Nat) :
    (∃ k, IsVarint rd k ∧ k ≤ len) ∨ (len ≤ 10 ∧ ∀ i, i < len → 128 ≤ (rd i).toNat) ∨
    (10 ≤ len ∧ (∀ i, i < 9 → 128 ≤ (rd i).toNat) ∧
      ((128 ≤ (rd 9).toNat ∧ 11 ≤ len) ∨ (1 < (rd 9).toNat ∧ (rd 9).toNat < 128))) := by
  by_cases hex : ∃ i, i < len ∧ i ≤ 9 ∧ (rd i).toNat < 128
  · have hmin := Nat.find_spec hex
    set n := Nat.find hex with hn
    have hbefore : ∀ i, i < n → 128 ≤ (rd i).toNat := by
      intro i hi
      have := Nat.find_min hex hi
      by_contra hlt
      exact this ⟨by omega, by omega, by omega⟩
    by_cases h9 : n = 9 ∧ 1 < (rd 9).toNat
    · right; right
      obtain ⟨h9, hv⟩ := h9
      rw [h9] at hmin hbefore
      exact ⟨by omega, hbefore, .inr ⟨hv, hmin.2.2⟩⟩
    · left
      refine ⟨n + 1, ⟨by omega, by omega, fun i hi => hbefore i (by omega), by simpa using hmin.2.2, ?_⟩, by omega⟩
      intro h10
      have h9' : n = 9 := by omega
      by_contra hgt
      exact h9 ⟨h9', by omega⟩
  · right
    have hall : ∀ i, i < len → i ≤ 9 → 128 ≤ (rd i).toNat := by
      intro i hi h9
      by_contra hlt
      exact hex ⟨i, hi, h9, by omega⟩
    by_cases hl : len ≤ 10
    · exact .inl ⟨hl, fun i hi => hall i hi (by omega)⟩
    · exact .inr ⟨by omega, fun i hi => hall i (by omega) (by omega), .inl ⟨hall 9 (by omega) (by omega), by omega⟩⟩

/-! ## The encoder -/

/-- The byte of a list at an index, 0 outside it. -/
def listByte (bs : List Byte) (i : Nat) : Byte := bs.getD i 0

/-- What the encoder's loop emits for a value that its rounds can hold: a varint of it, of the shortest length (R93, R136). -/
theorem putuvarintLoop_spec (fuel : Nat) (hf : fuel ≤ 9) (pv : Word64) (h : pv.toNat < 2 ^ (7 * (fuel + 1))) :
    let bs := (putuvarintLoop fuel pv).1
    1 ≤ bs.length ∧ bs.length ≤ fuel + 1 ∧ (∀ i, i + 1 < bs.length → 128 ≤ (listByte bs i).toNat) ∧
    (listByte bs (bs.length - 1)).toNat < 128 ∧ groupsValue (listByte bs) bs.length = pv.toNat ∧
    (bs.length = 1 ∨ 2 ^ (7 * (bs.length - 1)) ≤ pv.toNat) ∧ pv.toNat < 2 ^ (7 * bs.length) := by
  induction fuel generalizing pv with
  | zero =>
    have h128 : pv.toNat < 128 := by simpa using h
    have e : (pv.setWidth 8).toNat = pv.toNat := by rw [BitVec.toNat_setWidth]; omega
    simp only [putuvarintLoop, listByte, List.length_cons, List.length_nil, groupsValue]
    simp [e]; omega
  | succ fuel ih =>
    unfold putuvarintLoop
    by_cases h128 : pv.toNat < 0x80
    · have e : (pv.setWidth 8).toNat = pv.toNat := by rw [BitVec.toNat_setWidth]; omega
      simp only [h128, if_true, listByte, List.length_cons, List.length_nil, groupsValue]
      simp [e]; omega
    · simp only [h128, if_false]
      have hs : (pv >>> 7).toNat = pv.toNat / 128 := by
        rw [BitVec.toNat_ushiftRight, Nat.shiftRight_eq_div_pow]
      have hlt : (pv >>> 7).toNat < 2 ^ (7 * (fuel + 1)) := by
        rw [hs, Nat.div_lt_iff_lt_mul (by omega)]
        have e : 2 ^ (7 * (fuel + 1 + 1)) = 2 ^ (7 * (fuel + 1)) * 128 := by rw [Nat.mul_add 7 (fuel + 1), Nat.pow_add]
        omega
      obtain ⟨a1, a2, a3, a4, a5, a6, a7⟩ := ih (by omega) (pv >>> 7) hlt
      generalize (putuvarintLoop fuel (pv >>> 7)).1 = bs at *
      have hb : (0x80#8 ||| (pv.setWidth 7).setWidth 8).toNat = 128 + pv.toNat % 128 := by
        rw [BitVec.toNat_or]
        have e7 : ((pv.setWidth 7).setWidth 8).toNat = pv.toNat % 128 := by
          simp only [BitVec.toNat_setWidth]; omega
        rw [e7]
        have := Nat.two_pow_add_eq_or_of_lt (i := 7) (b := pv.toNat % 128) (Nat.mod_lt _ (by omega)) 1
        simpa using this.symm
      set b : Byte := 0x80#8 ||| (pv.setWidth 7).setWidth 8 with hbdef
      have tail : ∀ i, listByte (b :: bs) (i + 1) = listByte bs i := fun i => rfl
      have head : listByte (b :: bs) 0 = b := rfl
      have hdiv : pv.toNat = 128 * (pv.toNat / 128) + pv.toNat % 128 := (Nat.div_add_mod _ _).symm
      refine ⟨by simp, by simpa using a2, ?_, ?_, ?_, ?_, ?_⟩
      · intro i hi
        cases i with
        | zero => rw [head, hb]; omega
        | succ i => rw [tail]; exact a3 i (by simpa using hi)
      · have e : (b :: bs).length - 1 = (bs.length - 1) + 1 := by simp; omega
        rw [e, tail]; exact a4
      · have e : (b :: bs).length = bs.length + 1 := rfl
        rw [e, groupsValue_succ]
        have : (fun i => listByte (b :: bs) (i + 1)) = listByte bs := rfl
        rw [this, a5, head, hb, hs]; omega
      · right
        have e : (b :: bs).length - 1 = bs.length := by simp
        rw [e]
        rcases a6 with h1 | h1
        · rw [h1]; omega
        · rw [hs] at h1
          have e2 : 2 ^ (7 * bs.length) = 2 ^ (7 * (bs.length - 1)) * 128 := by
            rw [show (128 : Nat) = 2 ^ 7 from rfl, ← Nat.pow_add]
            congr 1; omega
          omega
      · have e : (b :: bs).length = bs.length + 1 := rfl
        rw [hs] at a7
        have e2 : 2 ^ (7 * (bs.length + 1)) = 2 ^ (7 * bs.length) * 128 := by rw [Nat.mul_add, Nat.pow_add]
        rw [e, e2]; omega

/-- The encoder's bytes are a varint of the value, the shortest one (R93, R136). -/
theorem putuvarintBytes_spec (v : Word64) :
    let bs := putuvarintBytes v
    IsVarint (listByte bs) bs.length ∧ groupsValue (listByte bs) bs.length = v.toNat ∧
    (bs.length = 1 ∨ 2 ^ (7 * (bs.length - 1)) ≤ v.toNat) ∧ v.toNat < 2 ^ (7 * bs.length) := by
  obtain ⟨a1, a2, a3, a4, a5, a6, a7⟩ := putuvarintLoop_spec 9 (by omega) v (by have := v.isLt; omega)
  refine ⟨⟨a1, a2, a3, a4, ?_⟩, a5, a6, a7⟩
  intro h10
  by_contra hgt
  have h10' : (putuvarintLoop 9 v).1.length = 10 := h10
  rw [h10'] at a4 a5
  have := v.isLt
  rw [groupsValue] at a5
  have a4' : (listByte (putuvarintLoop 9 v).1 9).toNat < 128 := a4
  rw [Nat.mod_eq_of_lt a4'] at a5
  have h2 : 2 ≤ (listByte (putuvarintLoop 9 v).1 9).toNat := by
    have : ¬ (listByte (putuvarintBytes v) 9).toNat ≤ 1 := hgt
    unfold putuvarintBytes at this; omega
  have : 2 * 2 ^ (7 * 9) ≤ (listByte (putuvarintLoop 9 v).1 9).toNat * 2 ^ (7 * 9) := Nat.mul_le_mul_right _ h2
  omega

end Sys2Proof.Machine
end

