-- ==== Sys2Proof/Laws/Exec.lean ====
section
/-! SUPPORT. Everything the four host operations can end in, one lemma each, for the provers to cite in place of unfolding
the meanings. -/

namespace Sys2Proof.Machine

/-! ## UVARINT and PUTUVARINT (R139) -/

/-- The state after the decoder has run and its outputs are written. -/
def uvarintRan (s : State) : State := setVarintOutputs (uvarintRun s).result (setVarintRegs (uvarintRun s) s)

theorem execUvarint_cases (s : State) :
    (∃ v n, (uvarintRun s).result = .ok v n ∧ exec .uvarint s = .next (succeed 0 (uvarintRan s))) ∨
    ((uvarintRun s).result = .trunc ∧ exec .uvarint s = .next (raise .corrupt (uvarintRan s))) ∨
    ((uvarintRun s).result = .ovf ∧ exec .uvarint s = .next (raise .corrupt (uvarintRan s))) := by
  show (∃ v n, _ ∧ execUvarint s = _) ∨ (_ ∧ execUvarint s = _) ∨ (_ ∧ execUvarint s = _)
  unfold execUvarint uvarintRan
  dsimp only
  cases h : (uvarintRun s).result with
  | ok v n => exact .inl ⟨v, n, rfl, rfl⟩
  | trunc => exact .inr (.inl ⟨rfl, rfl⟩)
  | ovf => exact .inr (.inr ⟨rfl, rfl⟩)

/-- The state in which `PUTUVARINT` ends. -/
def putuvarintDone (s : State) : State :=
  { s with
    W := (putuvarintBytes s.ARG).length
    OUT := Store.writeList s.OUT 0 (putuvarintBytes s.ARG)
    PV := (putuvarintLoop 9 s.ARG).2
    OUT_LEN := BitVec.ofNat 64 (putuvarintBytes s.ARG).length
    STATUS := .ok
    PHASE := .done }

theorem putuvarint_end (s : State) :
    succeed (BitVec.ofNat 64 (emitted (putuvarintBytes s.ARG) { s with W := 0 }).W)
      { emitted (putuvarintBytes s.ARG) { s with W := 0 } with PV := (putuvarintLoop 9 s.ARG).2 } = putuvarintDone s := by
  simp only [emitted, succeed, putuvarintDone, Nat.zero_add]

theorem execPutuvarint_cases (s : State) :
    exec .putuvarint s = .next (putuvarintDone s) ∨ exec .putuvarint s = .refused .outCapacity := by
  show execPutuvarint s = _ ∨ execPutuvarint s = _
  unfold execPutuvarint
  rcases putuvarint_cases s.ARG { s with W := 0 } with h | h
  · left; rw [h, andThen_go, outcome_go, ← putuvarint_end]
  · right; rw [h]; rfl

theorem execPutuvarint_next {s : State} (h : Capacity.fits s.caps.outCap (putuvarintBytes s.ARG).length = true) :
    exec .putuvarint s = .next (putuvarintDone s) := by
  show execPutuvarint s = _
  unfold execPutuvarint
  rw [putuvarint_go (s := { s with W := 0 }) (by show Capacity.fits _ (0 + _) = true; rwa [Nat.zero_add]), andThen_go,
    outcome_go, ← putuvarint_end]

/-! ## DECOMPRESS (R150, R151, R165) -/

/-- The state after the header's varint is decoded (R151, R140). -/
def headerRan (s : State) : State := { setVarintRegs (uvarintRun s) s with VSTAT := (uvarintRun s).result.vstat }

/-- The state after an accepted header. -/
def headerDone (v : Word64) (n : Nat) (s : State) : State :=
  { headerRan s with DLEN := v.setWidth 32, D := 0, S := n, OUT := [], stage := .chunks }

theorem headerStep_cases (s : State) :
    ((uvarintRun s).result = .trunc ∧ headerStep s = .next (raise .corrupt (headerRan s))) ∨
    ((uvarintRun s).result = .ovf ∧ headerStep s = .next (raise .corrupt (headerRan s))) ∨
    ∃ v n, (uvarintRun s).result = .ok v n ∧
      ((Config.maxDecodedLen < v.toNat ∧ headerStep s = .next (raise .tooLarge (headerRan s))) ∨
       (v.toNat ≤ Config.maxDecodedLen ∧ Capacity.fits s.caps.outCap v.toNat = true ∧
         headerStep s = .next (headerDone v n s)) ∨
       (v.toNat ≤ Config.maxDecodedLen ∧ Capacity.fits s.caps.outCap v.toNat = false ∧
         headerStep s = .refused .outCapacity)) := by
  unfold headerStep
  dsimp only
  cases h : (uvarintRun s).result with
  | trunc => left; exact ⟨rfl, by unfold headerRan; rw [h]⟩
  | ovf => right; left; exact ⟨rfl, by unfold headerRan; rw [h]⟩
  | ok v n =>
    right; right
    refine ⟨v, n, rfl, ?_⟩
    dsimp only
    by_cases h1 : v.toNat > Config.maxDecodedLen
    · left; exact ⟨h1, by rw [if_pos h1]; unfold headerRan; rw [h]⟩
    · rw [if_neg h1]
      right
      cases h2 : Capacity.fits s.caps.outCap v.toNat with
      | true =>
        left
        refine ⟨by omega, rfl, ?_⟩
        unfold headerDone headerRan
        rw [h]
        exact if_pos h2
      | false =>
        right
        refine ⟨by omega, rfl, ?_⟩
        exact if_neg (by show ¬ Capacity.fits s.caps.outCap v.toNat = true; rw [h2]; decide)

theorem endStep_cases (s : State) :
    (s.D ≠ s.DLEN.toNat ∧ endStep s = .next (raise .corrupt s)) ∨
    (s.D = s.DLEN.toNat ∧ endStep s = .next (succeed (s.DLEN.setWidth 64) s)) := by
  unfold endStep
  by_cases h : s.D ≠ s.DLEN.toNat
  · left; exact ⟨h, if_pos h⟩
  · right; exact ⟨by omega, if_neg h⟩

theorem execDecompress_header {s : State} (h : s.stage ≠ .chunks) : exec .decompress s = headerStep s := by
  show execDecompress s = _
  unfold execDecompress
  cases hs : s.stage with
  | begin => rfl
  | scan => rfl
  | chunks => exact absurd hs h

theorem execDecompress_chunk {s : State} (h : s.stage = .chunks) (hs : s.S < s.IN_LEN.toNat) :
    exec .decompress s = exec (chunkAt s) (fetchChunk s) := by
  show execDecompress s = _
  unfold execDecompress
  rw [h, ← chunkStep_eq]; exact if_pos hs

theorem execDecompress_end {s : State} (h : s.stage = .chunks) (hs : ¬ s.S < s.IN_LEN.toNat) :
    exec .decompress s = endStep s := by
  show execDecompress s = _
  unfold execDecompress
  rw [h]; exact if_neg hs

/-- The tag parser gives a chunk and no host operation. -/
theorem chunkAt_isChunk (s : State) : isChunk (chunkAt s) = true := by
  have h := (decodeWindow_fixedBytes (s.blockByte s.S) (s.blockByte (s.S + 1)) (s.blockByte (s.S + 2))
    (s.blockByte (s.S + 3)) (s.blockByte (s.S + 4))).1
  unfold chunkAt
  revert h
  cases decodeWindow (s.blockByte s.S) (s.blockByte (s.S + 1)) (s.blockByte (s.S + 2)) (s.blockByte (s.S + 3))
    (s.blockByte (s.S + 4)) <;> simp [Instr.fixedBytes, isChunk]

/-! ## COMPRESS (R190 to R204) -/

theorem execCompress_begin {s : State} (h : s.stage ≠ .scan) : exec .compress s = (compressBegin s).outcome := by
  show execCompress s = _
  unfold execCompress
  cases hs : s.stage with
  | begin => rfl
  | chunks => rfl
  | scan => exact absurd hs h

theorem execCompress_step {s : State} (h : s.stage = .scan) (hs : s.CS + 3 < s.N) :
    exec .compress s = (scanStep s).outcome := by
  show execCompress s = _
  unfold execCompress
  rw [h]
  show (if _ then _ else _ : Flow).outcome = _
  rw [if_pos hs]

theorem execCompress_end {s : State} (h : s.stage = .scan) (hs : ¬ s.CS + 3 < s.N) :
    exec .compress s = (finishScan s).outcome := by
  show execCompress s = _
  unfold execCompress
  rw [h]
  show (if _ then _ else _ : Flow).outcome = _
  rw [if_neg hs]

/-- Everything a step of `COMPRESS` can end in. -/
theorem execCompress_cases (s : State) :
    (s.stage ≠ .scan ∧ Config.maxInputLen < s.IN_LEN.toNat ∧
      exec .compress s = .next (raise .invalidInput { s with N := s.IN_LEN.toNat })) ∨
    (s.stage ≠ .scan ∧ s.IN_LEN.toNat ≤ Config.shortInputMax ∧
      exec .compress s = .next (shortDone (headerEmitted s))) ∨
    (s.stage ≠ .scan ∧ Config.shortInputMax < s.IN_LEN.toNat ∧ s.IN_LEN.toNat ≤ Config.maxInputLen ∧
      exec .compress s = .next (startScan (headerEmitted s))) ∨
    (s.stage = .scan ∧ s.CS + 3 < s.N ∧ hitCandidate (lookup s) = none ∧ exec .compress s = .next (missDone s)) ∨
    (s.stage = .scan ∧ s.CS + 3 < s.N ∧
      ∃ t, hitCandidate (lookup s) = some t ∧ exec .compress s = .next (hitDone t s)) ∨
    (s.stage = .scan ∧ s.CS + 3 < s.N ∧ 2 ^ 32 ≤ s.CS - s.LIT - 1 ∧
      ∃ t, exec .compress s = .next (raise .invalidInput (hitFound t s))) ∨
    (s.stage = .scan ∧ s.N ≤ s.CS + 3 ∧ exec .compress s = .next (scanDone s)) ∨
    (s.stage = .scan ∧ s.N ≤ s.CS + 3 ∧ 2 ^ 32 ≤ s.N - s.LIT - 1 ∧
      exec .compress s = .next (raise .invalidInput s)) ∨
    ∃ r, exec .compress s = .refused r := by
  by_cases h : s.stage = .scan
  · by_cases hs : s.CS + 3 < s.N
    · rw [execCompress_step h hs]
      rcases scanStep_cases s with ⟨h1, h2⟩ | ⟨t, h1, h2 | ⟨h2, h3⟩ | ⟨r, h2⟩⟩
      · exact .inr (.inr (.inr (.inl ⟨h, hs, h1, by rw [h2]; rfl⟩)))
      · exact .inr (.inr (.inr (.inr (.inl ⟨h, hs, t, h1, by rw [h2]; rfl⟩))))
      · exact .inr (.inr (.inr (.inr (.inr (.inl ⟨h, hs, h2, t, by rw [h3]; rfl⟩)))))
      · exact .inr (.inr (.inr (.inr (.inr (.inr (.inr (.inr ⟨r, by rw [h2]; rfl⟩)))))))
    · rw [execCompress_end h hs]
      rcases finishScan_cases s with h2 | ⟨h2, h3⟩ | h2
      · exact .inr (.inr (.inr (.inr (.inr (.inr (.inl ⟨h, by omega, by rw [h2]; rfl⟩))))))
      · exact .inr (.inr (.inr (.inr (.inr (.inr (.inr (.inl ⟨h, by omega, h2, by rw [h3]; rfl⟩)))))))
      · exact .inr (.inr (.inr (.inr (.inr (.inr (.inr (.inr ⟨_, by rw [h2]; rfl⟩)))))))
  · rw [execCompress_begin h]
    rcases compressBegin_cases s with ⟨h1, h2⟩ | ⟨h1, h2⟩ | ⟨h1, h2, h3⟩ | ⟨h1, h2⟩
    · exact .inl ⟨h, h1, by rw [h2]; rfl⟩
    · exact .inr (.inl ⟨h, h1, by rw [h2]; rfl⟩)
    · exact .inr (.inr (.inl ⟨h, h1, h2, by rw [h3]; rfl⟩))
    · exact .inr (.inr (.inr (.inr (.inr (.inr (.inr (.inr ⟨_, by rw [h2]; rfl⟩)))))))

end Sys2Proof.Machine
end

