-- ==== Sys2Proof/Laws/PerInstr.lean ====
section
/-! SUPPORT. Statements for all instructions, one lemma per constructor. Family `EncodedSize`: the code of an instruction
has the size its format gives it (R95, R104, R111). -/

namespace Sys2Proof.Laws.EncodedSize

/-- A chunk's code is as many bytes as its fixed part has; a host operation's code is two bits and no byte. -/
def Statement (i : Instr) : Prop := i.chunkBytes.length = i.fixedBytes

theorem lit (m : BitVec 6) : Statement (.lit m) := rfl
theorem lit1 (x : BitVec 8) : Statement (.lit1 x) := rfl
theorem lit2 (x : BitVec 16) : Statement (.lit2 x) := rfl
theorem lit3 (x : BitVec 24) : Statement (.lit3 x) := rfl
theorem lit4 (x : BitVec 32) : Statement (.lit4 x) := rfl
theorem copy1 (l : BitVec 3) (off : BitVec 11) : Statement (.copy1 l off) := rfl
theorem copy2 (m : BitVec 6) (off : BitVec 16) : Statement (.copy2 m off) := rfl
theorem copy4 (m : BitVec 6) : Statement (.copy4 m) := rfl
theorem decompress : Statement .decompress := rfl
theorem compress : Statement .compress := rfl
theorem uvarint : Statement .uvarint := rfl
theorem putuvarint : Statement .putuvarint := rfl

end Sys2Proof.Laws.EncodedSize
end

