-- ==== Sys2Proof/Laws/Run.lean ====
section
/-! SUPPORT. Runs of several steps: how `steps` splits, what START leaves, that a finished core with a silent host stays as it
is, and that a property every step keeps holds along a run. -/

namespace Sys2Proof.Machine

/-! ## Steps -/

@[simp] theorem steps_zero (s : State) : steps 0 s = .next s := rfl

theorem steps_succ_next {n : Nat} {s t : State} (h : step s = .next t) : steps (n + 1) s = steps n t := by
  rw [steps, h]

/-- A run that goes on took its first step. -/
theorem steps_succ_eq_next {n : Nat} {s t : State} (h : steps (n + 1) s = .next t) :
    ∃ u, step s = .next u ∧ steps n u = .next t := by
  rw [steps] at h
  cases hs : step s with
  | next u => rw [hs] at h; exact ⟨u, rfl, h⟩
  | fault r => rw [hs] at h; cases h
  | refused r => rw [hs] at h; cases h

theorem steps_add {m n : Nat} {s t : State} (h : steps m s = .next t) : steps (m + n) s = steps n t := by
  induction m generalizing s with
  | zero => cases h; rw [Nat.zero_add]
  | succ m ih =>
    obtain ⟨u, h1, h2⟩ := steps_succ_eq_next h
    have e : m + 1 + n = (m + n) + 1 := by omega
    rw [e, steps_succ_next h1, ih h2]

/-- A property that every step keeps holds along a run. -/
theorem steps_keep {P : State → Prop} (hP : ∀ s t, P s → step s = .next t → P t) {n : Nat} {s t : State} (h0 : P s)
    (h : steps n s = .next t) : P t := by
  induction n generalizing s with
  | zero => cases h; exact h0
  | succ n ih =>
    obtain ⟨u, h1, h2⟩ := steps_succ_eq_next h
    exact ih (hP s u h0 h1) h2

/-- A core that is not running and whose host is silent stays as it is (R262, R285). -/
theorem step_rest {s : State} (hp : s.PHASE ≠ .run) (hh : s.host = []) : step s = .next s := by
  rw [step_idle hp]; unfold hostTurnIdle; rw [hh]

theorem steps_rest {s : State} (hp : s.PHASE ≠ .run) (hh : s.host = []) (n : Nat) : steps n s = .next s := by
  induction n with
  | zero => rfl
  | succ n ih => rw [steps_succ_next (step_rest hp hh), ih]

/-! ## START -/

/-- The state START leaves (R25), with the host silent from then on. -/
def started (s : State) : State := startUnit (clearResults { s with host := [] })

/-- What START leaves, whatever the operation. -/
structure Begun (op : BitVec 2) (s : State) : Prop where
  phase  : s.PHASE = .run
  host   : s.host = []
  stage  : s.stage = .begin
  op     : s.OP = op
  out    : s.OUT = []
  status : s.STATUS = .ok
  vstat  : s.VSTAT = .ok
  value  : s.VALUE = 0
  nbytes : s.NBYTES = 0
  outLen : s.OUT_LEN = 0

theorem started_eq (s : State) :
    started s = { s with
      host := [], PHASE := .run, STATUS := .ok, VSTAT := .ok, VALUE := 0, NBYTES := 0, OUT_LEN := 0, OUT := []
      stage := .begin, D := (started s).D, ACC := (started s).ACC, SH := (started s).SH, VI := (started s).VI
      W := (started s).W, N := (started s).N, PV := (started s).PV } := by
  unfold started startUnit
  split
  · rfl
  · split
    · rfl
    · split
      · rfl
      · rfl

theorem started_begun (s : State) : Begun s.OP (started s) := by
  rw [started_eq]
  exact ⟨rfl, rfl, rfl, rfl, rfl, rfl, rfl, rfl, rfl, rfl⟩

theorem step_start {s : State} (hp : s.PHASE ≠ .run) (hh : s.host = [.start]) :
    step s = if Capacity.fits s.caps.inCap s.IN_LEN.toNat then .next (started s) else .refused .inCapacity := by
  rw [step_idle_move hp hh]; rfl

/-- The first step from a host about to START. -/
theorem step_aboutToStart {op : BitVec 2} {s : State} (h : AboutToStart op s) : step s = .next (started s) := by
  rw [step_start h.notRunning h.host, h.inUnbounded]; rfl

theorem steps_aboutToStart {op : BitVec 2} {s : State} (h : AboutToStart op s) (n : Nat) :
    steps (n + 1) s = steps n (started s) := steps_succ_next (step_aboutToStart h)

@[simp] theorem started_IN_LEN (s : State) : (started s).IN_LEN = s.IN_LEN := by rw [started_eq]
@[simp] theorem started_OP (s : State) : (started s).OP = s.OP := by rw [started_eq]
@[simp] theorem started_ARG (s : State) : (started s).ARG = s.ARG := by rw [started_eq]
@[simp] theorem started_caps (s : State) : (started s).caps = s.caps := by rw [started_eq]
@[simp] theorem started_draws (s : State) : (started s).draws = s.draws := by rw [started_eq]
@[simp] theorem started_IN (s : State) : (started s).IN = s.IN := by rw [started_eq]
@[simp] theorem started_epoch (s : State) : (started s).epoch = s.epoch := by rw [started_eq]
@[simp] theorem started_readIn (s : State) (i : Nat) : (started s).readIn i = s.readIn i :=
  readIn_congr (started_IN s) (started_epoch s) i

/-! ## The decoder's count lies inside the input -/

theorem uvarintRun_ok {s : State} {v : Word64} {n : Nat} (h : (uvarintRun s).result = .ok v n) :
    IsVarint s.readIn n ∧ n ≤ s.IN_LEN.toNat ∧ v.toNat = groupsValue s.readIn n := by
  rcases varint_trichotomy s.readIn s.IN_LEN.toNat with ⟨k, hk, hl⟩ | ⟨hl, hc⟩ | ⟨hl, hc, hx⟩
  · obtain ⟨w, h1, h2⟩ := uvarintLoop_ok hk hl
    have h3 : (uvarintRun s).result = .ok w k := h2
    rw [h] at h3; cases h3
    exact ⟨hk, hl, h1⟩
  · have h3 : (uvarintRun s).result = .trunc := uvarintLoop_trunc hl hc
    rw [h] at h3; cases h3
  · have h3 : (uvarintRun s).result = .ovf := uvarintLoop_ovf hl hc hx
    rw [h] at h3; cases h3

/-! ## A chunk step during DECOMPRESS -/

/-- Everything a chunk step keeps or moves: it ends the operation with an error, or it leaves the core in the same stage,
both cursors further on and inside their bounds, and `OUT` dense if it was. -/
theorem chunk_step {i : Instr} {s t : State} (hi : isChunk i = true) (h : exec i s = .next t) :
    (∃ e, t.PHASE = .done ∧ t = raise e t) ∨
    (t = { s with S := t.S, D := t.D, X := t.X, LEN := t.LEN, OFF := t.OFF, OUT := t.OUT, draws := t.draws } ∧
      s.D + 1 ≤ t.D ∧ t.D ≤ s.DLEN.toNat ∧ s.S + 2 ≤ t.S ∧ t.S ≤ s.IN_LEN.toNat ∧
      (Store.dense s.OUT s.D → Store.dense t.OUT t.D)) := by
  rcases chunk_cases i hi s with ⟨k, x, h1, h2, h3, h4, h5, h6⟩ | ⟨k, len, off, h1, h2, h3, h4, h5, h6⟩ |
    ⟨e, x, len, off, c, h1, -⟩
  · rw [h1] at h; cases h
    refine .inr ⟨rfl, ?_, h5, ?_, h6, fun hd => ?_⟩
    · show s.D + 1 ≤ s.D + _; omega
    · show s.S + 2 ≤ s.S + k + _; omega
    · have := dense_writeList hd (s.inBytes (s.S + k) (literalLen x).toNat)
      rw [inBytes_length] at this; exact this
  · rw [h1] at h; cases h
    have hd := copyLoop_frame off.toNat len.toNat (copyFetched k len off s)
    refine .inr ⟨?_, ?_, ?_, ?_, ?_, fun hd => ?_⟩
    · rw [hd]; rfl
    · rw [copyLoop_D]; show s.D + 1 ≤ s.D + _; omega
    · rw [copyLoop_D]; exact h5
    · rw [hd]; show s.S + 2 ≤ s.S + k; omega
    · rw [hd]; exact h6
    · rw [copyLoop_D]; exact copyLoop_dense off.toNat len.toNat (s := copyFetched k len off s) hd
  · rw [h1] at h; cases h
    exact .inl ⟨e, rfl, rfl⟩

/-- `exec` of a chunk always answers a next state. -/
theorem chunk_next {i : Instr} (hi : isChunk i = true) (s : State) : ∃ t, exec i s = .next t := by
  rcases chunk_cases i hi s with ⟨k, x, h, -⟩ | ⟨k, len, off, h, -⟩ | ⟨e, x, len, off, c, h, -⟩
  · exact ⟨_, h⟩
  · exact ⟨_, h⟩
  · exact ⟨_, h⟩

end Sys2Proof.Machine
end

