-- ==== Sys2Proof/Laws/RoundTrip.lean ====
section
/-! SUPPORT. How a piece of a chunk stream turns into a piece of output: `Decodes x p q cs` says that the chunks `cs`,
wherever they stand in a block, take `DECOMPRESS` from `p` bytes of `x` produced to `q` bytes of it. Such pieces compose;
a literal and a copy chunk are such pieces. -/

namespace Sys2Proof.Machine

/-- The bytes of `IN` from an index to the end are the rest of the input. -/
theorem inBytes_eq_drop {s : State} {y : List Byte} (h : ∀ i, i < y.length → some (s.readIn i) = y[i]?) (k n : Nat)
    (hk : k + n = y.length) : s.inBytes k n = y.drop k := by
  induction n generalizing k with
  | zero => rw [List.drop_of_length_le (by omega)]; rfl
  | succ n ih =>
    have hk' : k < y.length := by omega
    have hr := h k hk'
    rw [List.getElem?_eq_getElem hk', Option.some.injEq] at hr
    rw [List.drop_eq_getElem_cons hk', State.inBytes, hr, ih (k + 1) (by omega)]

/-- Consecutive bytes of `IN` are a piece of the input. -/
theorem inBytes_eq_take {s : State} {y : List Byte} (h : ∀ i, i < y.length → some (s.readIn i) = y[i]?) (k n : Nat)
    (hk : k + n ≤ y.length) : s.inBytes k n = (y.drop k).take n := by
  induction n generalizing k with
  | zero => rfl
  | succ n ih =>
    have hk' : k < y.length := by omega
    have hr := h k hk'
    rw [List.getElem?_eq_getElem hk', Option.some.injEq] at hr
    rw [List.drop_eq_getElem_cons hk', List.take_succ_cons, State.inBytes, hr, ih (k + 1) (by omega)]

/-- `DECOMPRESS` of the block `y` stands before the chunk at `k` with the first `p` bytes of `x` produced. -/
structure AtByte (x y : List Byte) (p k : Nat) (s : State) : Prop where
  phase    : s.PHASE = .run
  host     : s.host = []
  stage    : s.stage = .chunks
  len      : s.IN_LEN.toNat = y.length
  input    : ∀ i, i < y.length → some (s.readIn i) = y[i]?
  cursor   : s.S = k
  written  : s.D = p
  total    : s.DLEN.toNat = x.length
  inside   : p ≤ x.length
  produced : ∀ a, a < p → Store.read s.OUT a = x[a]?

/-- The chunks `cs` take the first `p` bytes of `x` to the first `q`. -/
def Decodes (x : List Byte) (p q : Nat) (cs : List Byte) : Prop :=
  ∀ y k s rest, AtByte x y p k s → y.drop k = cs ++ rest → k ≤ y.length →
    ∃ n t, steps n s = .next t ∧ AtByte x y q (k + cs.length) t

theorem Decodes.nil {x : List Byte} {p : Nat} : Decodes x p p [] := fun _ _ s _ h _ _ => ⟨0, s, rfl, h⟩

theorem Decodes.append {x cs ds : List Byte} {p q r : Nat} (h1 : Decodes x p q cs) (h2 : Decodes x q r ds) :
    Decodes x p r (cs ++ ds) := by
  intro y k s rest h hd hk
  rw [List.append_assoc] at hd
  have hl : (y.drop k).length = (cs ++ (ds ++ rest)).length := by rw [hd]
  simp only [List.length_drop, List.length_append] at hl
  obtain ⟨n, t, a, b⟩ := h1 y k s _ h hd hk
  obtain ⟨m, u, c, d⟩ := h2 y _ t rest b (by rw [← List.drop_drop, hd, List.drop_left]) (by omega)
  refine ⟨n + m, u, by rw [steps_add a, c], ?_⟩
  rw [List.length_append, ← Nat.add_assoc]; exact d

/-- The step at a chunk that decodes to `i` runs `i`. -/
theorem step_atByte {x y rest : List Byte} {p k : Nat} {s : State} {i : Instr} (h : AtByte x y p k s)
    (hd : y.drop k = i.chunkBytes ++ rest) (h1 : 1 ≤ i.fixedBytes)
    (hi : decodeChunk (i.chunkBytes ++ rest) = .ok i rest) : step s = exec i (fetchChunk s) := by
  have hl : (y.drop k).length = (i.chunkBytes ++ rest).length := by rw [hd]
  simp only [List.length_drop, List.length_append, chunkBytes_length] at hl
  have hs : s.S < s.IN_LEN.toNat := by rw [h.cursor, h.len]; omega
  have hb := decodeChunk_block hs
  rw [inBytes_eq_drop h.input _ _ (by rw [h.cursor, h.len]; omega), h.cursor, hd, hi] at hb
  rw [step_run h.phase h.host, engineStep_chunk h.stage hs]
  split at hb
  · cases hb; rfl
  · cases hb

/-- A literal chunk whose meaning is `LiteralEffect` produces its payload. -/
theorem decodes_literal {x : List Byte} {p n : Nat} (hn : p + n ≤ x.length) (i : Instr) (hf : 1 ≤ i.fixedBytes)
    (hi : ∀ rest, decodeChunk (i.chunkBytes ++ rest) = .ok i rest)
    (hex : ∀ s : State, s.S + i.fixedBytes + n ≤ s.IN_LEN.toNat → s.D + n ≤ s.DLEN.toNat →
      ∃ t, exec i s = .next t ∧ LiteralEffect s t i.fixedBytes n) :
    Decodes x p (p + n) (i.chunkBytes ++ (x.drop p).take n) := by
  intro y k s rest h hd hk
  have hl : (y.drop k).length = (i.chunkBytes ++ (x.drop p).take n ++ rest).length := by rw [hd]
  simp only [List.length_drop, List.length_append, chunkBytes_length, List.length_take] at hl
  have hmin : min n (x.length - p) = n := by omega
  rw [hmin] at hl
  have hr := step_atByte h (by rw [List.append_assoc] at hd; exact hd) hf (hi _)
  obtain ⟨t, ht, e1, e2⟩ := hex (fetchChunk s)
    (by show s.S + _ + _ ≤ s.IN_LEN.toNat; rw [h.cursor, h.len]; omega)
    (by show s.D + _ ≤ s.DLEN.toNat; rw [h.written, h.total]; omega)
  refine ⟨1, t, by rw [steps_succ_next (hr.trans ht)]; rfl, ?_⟩
  refine ⟨by rw [e1]; exact h.phase, by rw [e1]; exact h.host, by rw [e1]; exact h.stage, by rw [e1]; exact h.len, ?_, ?_,
    ?_, by rw [e1]; exact h.total, hn, ?_⟩
  · intro j hj
    have e : t.readIn j = s.readIn j := readIn_congr (by rw [e1]; rfl) (by rw [e1]; rfl) j
    rw [e]; exact h.input j hj
  · rw [e1]
    show s.S + _ + _ = _
    rw [h.cursor, List.length_append, chunkBytes_length, List.length_take, List.length_drop, hmin]; omega
  · rw [e1]; show s.D + _ = _; rw [h.written]
  · intro a ha
    rw [e2 a]
    show (if s.D ≤ a ∧ a < s.D + n then some (s.readIn (s.S + _ + (a - s.D))) else Store.read s.OUT a) = _
    rw [h.written, h.cursor]
    split
    · rw [h.input _ (by omega)]
      have e : y[k + i.fixedBytes + (a - p)]? = (y.drop k)[i.fixedBytes + (a - p)]? := by
        rw [List.getElem?_drop]; congr 1; omega
      rw [e, hd, List.getElem?_append_left (by simp [chunkBytes_length]; omega),
        List.getElem?_append_right (by rw [chunkBytes_length]; omega), chunkBytes_length,
        List.getElem?_take_of_lt (by omega), List.getElem?_drop]
      congr 1; omega
    · exact h.produced a (by omega)

/-- A copy chunk whose meaning is `CopyEffect` produces bytes that repeat those `off` before them. -/
theorem decodes_copy {x : List Byte} {p off n : Nat} (h1 : 1 ≤ off) (ho : off ≤ p) (hn : p + n ≤ x.length)
    (hm : ∀ j, j < n → x[p + j]? = x[p - off + j]?) (i : Instr) (hf : 1 ≤ i.fixedBytes)
    (hi : ∀ rest, decodeChunk (i.chunkBytes ++ rest) = .ok i rest)
    (hex : ∀ s : State, s.S + i.fixedBytes ≤ s.IN_LEN.toNat → off ≤ s.D → s.D + n ≤ s.DLEN.toNat →
      (∀ a, s.D - off ≤ a → a < s.D → ∃ b, Store.read s.OUT a = some b) →
      ∃ t, exec i s = .next t ∧ CopyEffect s t i.fixedBytes n off) :
    Decodes x p (p + n) i.chunkBytes := by
  have hmod : ∀ j, j < n → x[p + j]? = x[p - off + j % off]? := by
    intro j
    induction j using Nat.strongRecOn with
    | _ j ih =>
      intro hj
      by_cases hjo : j < off
      · rw [Nat.mod_eq_of_lt hjo]; exact hm j hj
      · rw [hm j hj, show p - off + j = p + (j - off) by omega, ih (j - off) (by omega) (by omega),
          ← Nat.mod_eq_sub_mod (by omega)]
  intro y k s rest h hd hk
  have hl : (y.drop k).length = (i.chunkBytes ++ rest).length := by rw [hd]
  simp only [List.length_drop, List.length_append, chunkBytes_length] at hl
  have hr := step_atByte h hd hf (hi _)
  obtain ⟨t, ht, e1, e2, e3⟩ := hex (fetchChunk s)
    (by show s.S + _ ≤ s.IN_LEN.toNat; rw [h.cursor, h.len]; omega) (by show off ≤ s.D; rw [h.written]; exact ho)
    (by show s.D + _ ≤ s.DLEN.toNat; rw [h.written, h.total]; omega)
    (by
      show ∀ a, s.D - off ≤ a → a < s.D → ∃ b, Store.read s.OUT a = some b
      intro a _ ha
      rw [h.written] at ha
      rw [h.produced a ha]; exact ⟨x[a], List.getElem?_eq_getElem (by omega)⟩)
  refine ⟨1, t, by rw [steps_succ_next (hr.trans ht)]; rfl, ?_⟩
  refine ⟨by rw [e1]; exact h.phase, by rw [e1]; exact h.host, by rw [e1]; exact h.stage, by rw [e1]; exact h.len, ?_, ?_,
    ?_, by rw [e1]; exact h.total, hn, ?_⟩
  · intro j hj
    have e : t.readIn j = s.readIn j := readIn_congr (by rw [e1]; rfl) (by rw [e1]; rfl) j
    rw [e]; exact h.input j hj
  · rw [e1]; show s.S + _ = _; rw [h.cursor, chunkBytes_length]
  · rw [e1]; show s.D + _ = _; rw [h.written]
  · intro a ha
    by_cases hap : a < p
    · rw [e3 a (.inl (by show a < s.D; rw [h.written]; exact hap))]; exact h.produced a hap
    · have e : Store.read t.OUT (s.D + (a - p)) = Store.read s.OUT (s.D - off + (a - p) % off) := e2 (a - p) (by omega)
      rw [h.written, show p + (a - p) = a by omega] at e
      have hlt := Nat.mod_lt (a - p) h1
      rw [e, h.produced _ (by omega), ← hmod (a - p) (by omega)]
      congr 1; omega

end Sys2Proof.Machine
end

