-- ==== Sys2Proof/Tests/Slice0.lean ====
section
/-! SUPPORT. The model's own tests. Expected values come from the formats of spec/30_encoding.md and the vectors of
spec/95_test_vectors.md (the vector is named at each test). The theorems named witness_… show, for each statement with
hypotheses, states and operands that meet them, at a boundary value for each clause. -/

namespace Sys2Proof.Machine.Tests

-- One proof after another: with all of them at once the package as one file asks for too many threads.
set_option Elab.async false

/-! ## Helpers -/

/-- A running core at a stage of the operation `op`, with the bytes `bs` as its valid input. -/
def input (op : BitVec 2) (stage : Stage) (bs : List Byte) : State :=
  { State.reset with
    PHASE := .run, OP := op, stage := stage, IN := Store.writeList [] 0 bs, IN_LEN := BitVec.ofNat 64 bs.length }

/-- A running `DECOMPRESS` in its chunk steps: `S` at `cur`, the bytes `out` produced so far, `DLEN` = `dlen`. -/
def chunkState (bs : List Byte) (cur : Nat) (out : List Byte) (dlen : Word32) : State :=
  { input 0 .chunks bs with S := cur, OUT := Store.writeList [] 0 out, D := out.length, DLEN := dlen }

/-- A core about to START the operation `op` on the bytes `bs`. -/
def idle (op : BitVec 2) (bs : List Byte) : State :=
  { input op .begin bs with PHASE := .idle, host := [.start] }

/-- A running `COMPRESS` in its scan at `CS` = `cur`, with `LIT` = `lit`, in the smallest table. -/
def scanState (bs : List Byte) (cur lit : Nat) (table : Store Word32) : State :=
  { input 1 .scan bs with
    N := bs.length, CS := cur, LIT := lit, TSIZE := 256, SHIFT := 24, W := 1, OUT := [(0, 0)], TABLE := table }

/-- An output buffer of `c` cells, and an input buffer of four bytes. -/
def outRoom (c : Nat) : Capacity := { inCap := none, outCap := some c }
def inRoom4 : Capacity := { inCap := some 4, outCap := none }

/-- The outcome is a next state with the property. -/
def gives (o : Host.Outcome State Fault Refusal) (p : State → Bool) : Bool :=
  match o with
  | .next t => p t
  | .fault _ => false
  | .refused _ => false

/-- The next state, where there is one. -/
def after (o : Host.Outcome State Fault Refusal) : State :=
  match o with
  | .next t => t
  | .fault _ => State.reset
  | .refused _ => State.reset

/-- `OUT[0 .. n)` of the cells that hold a byte. -/
def outBytes (s : State) : List Byte := s.OUT.map Prod.snd

theorem idle_ne_run : Phase.idle ≠ .run := by decide
theorem done_ne_run : Phase.done ≠ .run := by decide

/-! ## Ill-formed terms (R96) -/

theorem test_lit_sixty_is_illformed : (Instr.lit 60).wellFormed = false := by decide
theorem test_lit_sixtythree_is_illformed : (Instr.lit 63).wellFormed = false := by decide
theorem test_lit_fiftynine_is_wellformed : (Instr.lit 59).wellFormed = true := by decide

/-- The ends of the range of `IN_CAP` (R12). -/
theorem test_inCap_range : Config.inCapAllowed (some 0) = false ∧ Config.inCapAllowed (some 1) = true ∧
    Config.inCapAllowed (some 0xffffffffffffffff) = true ∧ Config.inCapAllowed (some 0x10000000000000000) = false := by
  decide

/-! ## Decoding words written out from the formats -/

/-- L0 `mmmmmm00` with `m` = 000100 and the length of V-L2. -/
theorem test_decode_lit : decodeTableWord 8 0b00010000 = some (.lit 4) := by decide
/-- L1 `11110000 xxxxxxxx`, V-L4: the second byte is bits 15 to 8. -/
theorem test_decode_lit1 : decodeTableWord 16 0x3cf0 = some (.lit1 60) := by decide
/-- L2, V-L10: `f4 2b 01`. -/
theorem test_decode_lit2 : decodeTableWord 24 0x012bf4 = some (.lit2 299) := by decide
/-- L3, V-M8: `f8 00 00 01`. -/
theorem test_decode_lit3 : decodeTableWord 32 0x010000f8 = some (.lit3 65536) := by decide
/-- L4, V-M10: `fc 00 00 00 01`. -/
theorem test_decode_lit4 : decodeTableWord 40 0x01000000fc = some (.lit4 16777216) := by decide
/-- C1 `ooolll01 pppppppp` with `ooo` = 101, `lll` = 110, `pppppppp` = 00000011. -/
theorem test_decode_copy1 : decodeTableWord 16 0b0000001110111001 = some (.copy1 6 0b10100000011) := by decide
/-- C2 `mmmmmm10 pppppppp qqqqqqqq`, V-K21: `2e ff 07`. -/
theorem test_decode_copy2 : decodeTableWord 24 0x07ff2e = some (.copy2 11 2047) := by decide
/-- C4: every tag byte with `B[1:0]` = 11, V-E13 and V-E14. -/
theorem test_decode_copy4 : decodeChunk [0x03] = .ok (.copy4 0) [] ∧ decodeTableWord 8 0xff = some (.copy4 63) := by
  decide
/-- The `OP` codes of R22, in the table's two bits and in a whole byte. -/
theorem test_decode_op :
    decodeTableWord 2 0 = some .decompress ∧ decodeTableWord 2 1 = some .compress ∧
    decodeTableWord 2 2 = some .uvarint ∧ decodeTableWord 2 3 = some .putuvarint ∧
    decodeTableWord 8 0 = some .decompress ∧ decodeTableWord 8 3 = some .putuvarint := by decide
/-- A chunk whose second offset byte is missing is rejected by name (V-D20). -/
theorem test_decode_truncated : decodeChunk [0x0a, 0x02] = .reject (.truncated "COPY2") := by decide
/-- No byte is no chunk. -/
theorem test_decode_empty : decodeChunk [] = .reject .noTagByte := by decide

/-! ## One step of each instruction -/

/-- V-L2, the chunk at 1. -/
theorem test_lit : gives (step (chunkState [0x05, 0x10, 0x68, 0x65, 0x6c, 0x6c, 0x6f] 1 [] 5)) (fun t =>
    decide (outBytes t = [0x68, 0x65, 0x6c, 0x6c, 0x6f]) && decide (t.S = 7) && decide (t.D = 5) && decide (t.M = 4)) =
    true := by decide +kernel
/-- V-L18: the payload is truncated. -/
theorem test_lit_truncated : gives (step (chunkState [0x02, 0x04, 0x61] 1 [] 2)) (fun t =>
    decide (t.STATUS = .corrupt) && decide (t.PHASE = .done) && decide (t.OUT = [])) = true := by decide +kernel
/-- V-L6. -/
theorem test_lit1 : gives (step (chunkState [0x01, 0xf0, 0x00, 0x7a] 1 [] 1)) (fun t =>
    decide (outBytes t = [0x7a]) && decide (t.S = 4)) = true := by decide +kernel
/-- V-L7. -/
theorem test_lit2 : gives (step (chunkState [0x01, 0xf4, 0x00, 0x00, 0x7a] 1 [] 1)) (fun t =>
    decide (outBytes t = [0x7a]) && decide (t.S = 5)) = true := by decide +kernel
/-- V-L8. -/
theorem test_lit3 : gives (step (chunkState [0x01, 0xf8, 0x00, 0x00, 0x00, 0x7a] 1 [] 1)) (fun t =>
    decide (outBytes t = [0x7a]) && decide (t.S = 6)) = true := by decide +kernel
/-- V-L14: a missing length byte is Corrupt before the length is looked at. -/
theorem test_lit4_missing : gives (step (chunkState [0x01, 0xfc, 0xff, 0xff, 0xff] 1 [] 1)) (fun t =>
    decide (t.STATUS = .corrupt)) = true := by decide +kernel
/-- V-L16 and V-L17: the edge of the signed length test. -/
theorem test_lit4_edge :
    gives (step (chunkState [0x01, 0xfc, 0xff, 0xff, 0xff, 0x7f] 1 [] 1)) (fun t => decide (t.STATUS = .unsupported)) =
      true ∧
    gives (step (chunkState [0x01, 0xfc, 0xfe, 0xff, 0xff, 0x7f] 1 [] 1)) (fun t => decide (t.STATUS = .corrupt)) =
      true := by decide +kernel
/-- V-D6: the overlapping copy repeats its pattern. -/
theorem test_copy1_overlap : gives (step (chunkState [0x08, 0x04, 0x61, 0x62, 0x09, 0x02] 4 [0x61, 0x62] 8)) (fun t =>
    decide (outBytes t = [0x61, 0x62, 0x61, 0x62, 0x61, 0x62, 0x61, 0x62]) && decide (t.S = 6)) = true := by
  decide +kernel
/-- V-D13: an offset beyond the output. -/
theorem test_copy1_beyond : gives (step (chunkState [0x05, 0x00, 0x61, 0x01, 0x02] 3 [0x61] 5)) (fun t =>
    decide (t.STATUS = .corrupt) && decide (t.OUT_LEN = 0)) = true := by decide +kernel
/-- V-D8. -/
theorem test_copy2 : gives (step (chunkState [0x05, 0x04, 0x61, 0x62, 0x0a, 0x02, 0x00] 4 [0x61, 0x62] 5)) (fun t =>
    decide (outBytes t = [0x61, 0x62, 0x61, 0x62, 0x61]) && decide (t.S = 7)) = true := by decide +kernel
/-- V-E15: `COPY4` after the output is full. -/
theorem test_copy4 : gives (step (chunkState [0x01, 0x00, 0x61, 0x03] 3 [0x61] 1)) (fun t =>
    decide (t.STATUS = .unsupported) && decide (t.OUT = [])) = true := by decide +kernel
/-- P1, the header step. -/
theorem test_decompress_header : gives (step (input 0 .begin [0x0b, 0x00, 0x61, 0x19, 0x01])) (fun t =>
    decide (t.DLEN = 11) && decide (t.S = 1) && decide (t.D = 0) && decide (t.VALUE = 0)) = true := by decide +kernel
/-- V-E2: the smallest rejected length. -/
theorem test_decompress_too_large : gives (step (input 0 .begin [0x80, 0x80, 0x80, 0x80, 0x08])) (fun t =>
    decide (t.STATUS = .tooLarge) && decide (t.VSTAT = .ok)) = true := by decide +kernel
/-- P6, the scan step at `CS` = 4. -/
theorem test_compress_hit : gives (exec .compress
      { scanState [0x61, 0x62, 0x63, 0x64, 0x61, 0x62, 0x63, 0x64] 4 0
          [(110, 3), (115, 1), (140, 2), (174, 0)] with OUT := [(0, 8)] }) (fun t =>
    decide (outBytes t = [0x08, 0x0c, 0x61, 0x62, 0x63, 0x64, 0x01, 0x04]) && decide (t.W = 8) && decide (t.LIT = 8) &&
    decide (t.TABLE = [(110, 3), (115, 1), (140, 2), (174, 4)]) && decide (t.CT = 4)) = true := by decide +kernel
/-- E2: the short-input path. -/
theorem test_compress_short : gives (step (input 1 .begin [0x61, 0x62])) (fun t =>
    decide (outBytes t = [0x02, 0x04, 0x61, 0x62]) && decide (t.OUT_LEN = 4) && decide (t.STATUS = .ok)) = true := by
  decide +kernel
/-- V-U9. -/
theorem test_uvarint : gives (step (input 2 .begin [0xe5, 0x8e, 0x26])) (fun t =>
    decide (t.VALUE = 624485) && decide (t.NBYTES = 3) && decide (t.OUT_LEN = 0)) = true := by decide +kernel
/-- V-U17: the tenth byte overflows. -/
theorem test_uvarint_overflow :
    gives (step (input 2 .begin [0xff, 0xff, 0xff, 0xff, 0xff, 0xff, 0xff, 0xff, 0xff, 0x02])) (fun t =>
    decide (t.VSTAT = .ovf) && decide (t.STATUS = .corrupt) && decide (t.VALUE = 0)) = true := by decide +kernel
/-- V-P5. -/
theorem test_putuvarint : gives (step { input 3 .begin [] with ARG := 300 }) (fun t =>
    decide (outBytes t = [0xac, 0x02]) && decide (t.OUT_LEN = 2)) = true := by decide +kernel
/-- V-P24. -/
theorem test_putuvarint_longest : gives (step { input 3 .begin [] with ARG := 0xffffffffffffffff }) (fun t =>
    decide (outBytes t = [0xff, 0xff, 0xff, 0xff, 0xff, 0xff, 0xff, 0xff, 0xff, 0x01])) = true := by decide +kernel

/-! ## Emission, hash and table size -/

/-- V-K22 and V-K25. -/
theorem test_emit_copy :
    copyBytes 2047 68 = [0xfe, 0xff, 0x07, 0xe1, 0xff] ∧ copyBytes 2048 68 = [0xfe, 0x00, 0x08, 0x0e, 0x00, 0x08] := by
  decide +kernel
/-- V-M3, V-M4 and V-M7. -/
theorem test_emit_literal :
    literalHead 59 = [0xec] ∧ literalHead 60 = [0xf0, 0x3c] ∧ literalHead 65535 = [0xf4, 0xff, 0xff] := by
  decide +kernel
/-- spec/95_test_vectors.md 2.8. -/
theorem test_hash : hashBucket 0x64636261 24 = 174 ∧ hashBucket 0x64636261 18 = 11176 := by decide +kernel
/-- spec/95_test_vectors.md 2.8. -/
theorem test_table_size : tableSize 256 = (256, 24) ∧ tableSize 257 = (512, 23) ∧ tableSize 100000 = (16384, 18) := by
  decide +kernel

/-- The listing of program P1 and the example of R110. -/
theorem test_listing :
    assemble [.len 11, .lit [0x61], .copy1 1 10] = some [0x0b, 0x00, 0x61, 0x19, 0x01] ∧
    assemble [.copy 1 99] = assemble [.copy2 1 64, .copy2 1 35] ∧ assemble [.lit [0x61], .len 11] = none := by
  decide +kernel

/-- Memory is in canonical form after reset, and writing keeps the indices rising. -/
theorem test_reset_memory_wf : Memory.wf State.reset.IN ∧ Memory.wf (Store.write [(2, (7 : Byte))] 0 9) := by decide

/-! ## Witnesses: encoding and the step -/

theorem witness_DecodeGivesBackEncodedInstruction : ∃ i : Instr, i.wellFormed = true := ⟨.lit 59, by decide⟩

theorem witness_DecodedChunkEncodesBack :
    (∃ bs i rest, decodeChunk bs = .ok i rest) ∧
    (∃ i : Instr, i.wellFormed = true ∧ encode i = .chunk i.chunkBytes) :=
  ⟨⟨[0xfd, 0xff, 0x00], .copy1 7 2047, [0x00], by decide⟩, ⟨.lit 59, by decide, rfl⟩⟩

/-- The longest `LIT` data, and one byte for the others; the largest operands of the copies. -/
theorem witness_ListedChunksDecode :
    (∃ data rest : List Byte, (ListItem.lit data).bytes = some (rest ++ data) ∧ data.length = 60) ∧
    (∃ data bs : List Byte, (ListItem.lit1 data).bytes = some bs) ∧
    (∃ data bs : List Byte, (ListItem.lit2 data).bytes = some bs) ∧
    (∃ data bs : List Byte, (ListItem.lit3 data).bytes = some bs) ∧
    (∃ data bs : List Byte, (ListItem.lit4 data).bytes = some bs) ∧
    (∃ (off len : Nat) (bs : List Byte), (ListItem.copy1 off len).bytes = some bs ∧ off = 2047 ∧ len = 11) ∧
    (∃ (off len : Nat) (bs : List Byte), (ListItem.copy2 off len).bytes = some bs ∧ off = 65535 ∧ len = 64) :=
  ⟨⟨List.replicate 60 0, [0xec], by decide +kernel, by decide⟩, ⟨[0x61], _, rfl⟩, ⟨[0x61], _, rfl⟩, ⟨[0x61], _, rfl⟩,
   ⟨[0x61], _, rfl⟩, ⟨2047, 11, _, rfl, rfl, rfl⟩, ⟨65535, 64, _, rfl, rfl, rfl⟩⟩

/-- A chunk that decodes, a chunk without its length byte at the last byte of the block, the end of the stream, the first
step, and a scan step. -/
theorem witness_StepRunsDecodedInstruction :
    (∃ s : State, s.PHASE = .run ∧ s.host = [] ∧ s.stage = .chunks ∧ s.S < s.IN_LEN.toNat ∧
      ∃ i rest, decodeChunk (s.inBytes s.S (s.IN_LEN.toNat - s.S)) = .ok i rest) ∧
    (∃ s : State, s.PHASE = .run ∧ s.host = [] ∧ s.stage = .chunks ∧ s.S < s.IN_LEN.toNat ∧
      ∃ e, decodeChunk (s.inBytes s.S (s.IN_LEN.toNat - s.S)) = .reject e) ∧
    (∃ s : State, s.PHASE = .run ∧ s.host = [] ∧ s.stage = .chunks ∧ s.S = s.IN_LEN.toNat) ∧
    (∃ s : State, s.PHASE = .run ∧ s.host = [] ∧ s.stage = .begin) ∧
    (∃ s : State, s.PHASE = .run ∧ s.host = [] ∧ s.stage = .scan) :=
  ⟨⟨chunkState [0x01, 0x00, 0x61] 1 [] 1, by decide, by decide, by decide, by decide, .lit 0, [0x61], by decide +kernel⟩,
   ⟨chunkState [0x01, 0xf0] 1 [] 1, by decide, by decide, by decide, by decide, .truncated "LIT1", by decide +kernel⟩,
   ⟨chunkState [0x00] 1 [] 0, by decide, by decide, by decide, by decide⟩,
   ⟨input 3 .begin [], by decide, by decide, by decide⟩,
   ⟨scanState [1, 2, 3, 4, 5] 0 0 [], by decide, by decide, by decide⟩⟩

/-! ## Witnesses: reset, START, the host -/

theorem witness_ResetLeavesHostRegistersZero :
    (∃ (s : State) (rest : List HostMove), s.host = .reset :: rest ∧ s.PHASE = .run) ∧
    (∃ s : State, s.PHASE ≠ .run ∧ s.host = []) :=
  ⟨⟨{ input 0 .begin [] with host := [.reset] }, [], rfl, rfl⟩, ⟨State.reset, by decide, rfl⟩⟩

theorem witness_StartClearsResultsAndRuns :
    (∃ (s : State) (rest : List HostMove), s.host = .start :: rest ∧ s.PHASE = .run) ∧
    (∃ (s : State) (rest : List HostMove), s.host = .start :: rest ∧ s.PHASE ≠ .run ∧
      ∃ c, s.caps.inCap = some c ∧ c < s.IN_LEN.toNat) ∧
    (∀ op : BitVec 2, ∃ (s : State) (rest : List HostMove), s.host = .start :: rest ∧ s.PHASE ≠ .run ∧
      (∀ c, s.caps.inCap = some c → s.IN_LEN.toNat ≤ c) ∧ s.OP = op) :=
  ⟨⟨{ idle 0 [] with PHASE := .run }, [], rfl, rfl⟩,
   ⟨{ idle 0 [1, 2] with caps := { inCap := some 1, outCap := none } }, [], rfl, by decide, 1, rfl, by decide⟩,
   fun op => ⟨{ idle op [1, 2] with caps := { inCap := some 2, outCap := none } }, [], rfl, idle_ne_run,
     fun c h => by cases h; exact Nat.le_refl 2, rfl⟩⟩

theorem witness_HostHasNoMoveDuringRun :
    ∀ m : HostMove, ∃ (s : State) (rest : List HostMove), s.PHASE = .run ∧ s.host = m :: rest :=
  fun m => ⟨{ input 0 .begin [] with host := [m] }, [], rfl, rfl⟩

/-- For a byte of the result, at the first index below and at `OUT_LEN`; the other clauses need a move only. -/
theorem witness_HostAccessOutsideRun :
    (∃ (s : State) (m : HostMove) (rest : List HostMove) (i : Nat) (b : Byte), s.PHASE ≠ .run ∧ s.host = m :: rest ∧
      s.caps.inCap = none ∧ s.caps.outCap = none ∧ m = .readOut i ∧ i < s.OUT_LEN.toNat ∧ Store.read s.OUT i = some b) ∧
    (∃ (s : State) (m : HostMove) (rest : List HostMove) (i : Nat), s.PHASE ≠ .run ∧ s.host = m :: rest ∧
      s.caps.inCap = none ∧ s.caps.outCap = none ∧ m = .readOut i ∧ s.OUT_LEN.toNat ≤ i) ∧
    (∀ m : HostMove, ∃ (s : State) (rest : List HostMove), s.PHASE ≠ .run ∧ s.host = m :: rest ∧
      s.caps.inCap = none ∧ s.caps.outCap = none) :=
  ⟨⟨{ State.reset with host := [.readOut 0], OUT_LEN := 1, OUT := [(0, 5)] }, .readOut 0, [], 0, 5,
      by decide, rfl, rfl, rfl, rfl, by decide, by decide⟩,
   ⟨{ State.reset with host := [.readOut 1], OUT_LEN := 1, OUT := [(0, 5)] }, .readOut 1, [], 1,
      by decide, rfl, rfl, rfl, rfl, by decide⟩,
   fun m => ⟨{ State.reset with host := [m] }, [], idle_ne_run, rfl, rfl, rfl⟩⟩

/-- Every code of `STATUS` and `VSTAT`, and both phases outside RUN. -/
theorem witness_HostReadsResultCodes : ∀ (m : HostMove) (st : Status) (v : VStat),
    (∃ (s : State) (rest : List HostMove), s.PHASE = .idle ∧ s.PHASE ≠ .run ∧ s.host = m :: rest) ∧
    (∃ (s : State) (rest : List HostMove), s.PHASE = .done ∧ s.PHASE ≠ .run ∧ s.host = m :: rest ∧ s.STATUS = st ∧
      s.VSTAT = v) :=
  fun m st v => ⟨⟨{ State.reset with host := [m] }, [], rfl, idle_ne_run, rfl⟩,
    ⟨{ State.reset with host := [m], PHASE := .done, STATUS := st, VSTAT := v }, [], rfl, done_ne_run, rfl, rfl, rfl⟩⟩

/-- A bounded `IN_CAP`; and the first index that does not exist, of `IN` for a read and a write, and of `OUT`. -/
theorem witness_IndexBeyondCapacityFaults :
    (∃ (s : State) (c : Nat), s.caps.inCap = some c ∧ c = 4) ∧
    (∃ (s : State) (m : HostMove) (rest : List HostMove) (c i : Nat), s.PHASE ≠ .run ∧ s.host = m :: rest ∧ c ≤ i ∧
      s.caps.inCap = some c ∧ m = .readIn i) ∧
    (∃ (s : State) (m : HostMove) (rest : List HostMove) (c i : Nat), s.PHASE ≠ .run ∧ s.host = m :: rest ∧ c ≤ i ∧
      s.caps.inCap = some c ∧ ∃ b, m = .writeIn i b) ∧
    (∃ (s : State) (m : HostMove) (rest : List HostMove) (c i : Nat), s.PHASE ≠ .run ∧ s.host = m :: rest ∧ c ≤ i ∧
      s.caps.outCap = some c ∧ m = .readOut i) :=
  ⟨⟨{ State.reset with caps := inRoom4 }, 4, rfl, rfl⟩,
   ⟨{ State.reset with host := [.readIn 4], caps := inRoom4 }, .readIn 4, [], 4, 4, by decide, rfl, by decide, rfl,
      rfl⟩,
   ⟨{ State.reset with host := [.writeIn 4 1], caps := inRoom4 }, .writeIn 4 1, [], 4, 4, by decide, rfl,
      by decide, rfl, 1, rfl⟩,
   ⟨{ State.reset with host := [.readOut 0], caps := outRoom 0 }, .readOut 0, [], 0, 0, by decide, rfl, by decide,
      rfl, rfl⟩⟩

/-! ## Witnesses: the Varint Codec -/

/-- The check of a varint, as a computation. -/
def varintCheck (rd : Nat → Byte) (k : Nat) : Bool :=
  decide (1 ≤ k) && decide (k ≤ 10) && (List.range (k - 1)).all (fun i => decide (128 ≤ (rd i).toNat)) &&
  decide ((rd (k - 1)).toNat < 128) && (decide (k ≠ 10) || decide ((rd 9).toNat ≤ 1))

theorem isVarint_of_check {rd : Nat → Byte} {k : Nat} (h : varintCheck rd k = true) : IsVarint rd k := by
  simp only [varintCheck, Bool.and_eq_true, decide_eq_true_eq, List.all_eq_true, List.mem_range, Bool.or_eq_true] at h
  obtain ⟨⟨⟨⟨h1, h2⟩, h3⟩, h4⟩, h5⟩ := h
  exact ⟨h1, h2, fun i hi => h3 i (by omega), h4, fun e => h5.resolve_left (fun hn => hn e)⟩

/-- One byte (V-U2, at the end of the input) and ten (V-U16). -/
theorem witness_UvarintDecodesVarint :
    (∃ s : State, IsVarint s.readIn 1 ∧ 1 ≤ s.IN_LEN.toNat) ∧ (∃ s : State, IsVarint s.readIn 10 ∧ 10 ≤ s.IN_LEN.toNat) :=
  ⟨⟨input 2 .begin [0x00], isVarint_of_check (by decide +kernel), by decide⟩,
   ⟨input 2 .begin [0xff, 0xff, 0xff, 0xff, 0xff, 0xff, 0xff, 0xff, 0xff, 0x01], isVarint_of_check (by decide +kernel),
     by decide⟩⟩

/-- V-U1, the empty input, and V-U22, ten bytes. -/
theorem witness_UvarintTruncatedIsTrunc :
    (∃ s : State, s.IN_LEN.toNat = 0 ∧ s.IN_LEN.toNat ≤ 10 ∧ ∀ i, i < s.IN_LEN.toNat → 128 ≤ (s.readIn i).toNat) ∧
    (∃ s : State, s.IN_LEN.toNat = 10 ∧ s.IN_LEN.toNat ≤ 10 ∧ ∀ i, i < s.IN_LEN.toNat → 128 ≤ (s.readIn i).toNat) :=
  ⟨⟨input 2 .begin [], by decide, by decide, by decide⟩,
   ⟨input 2 .begin (List.replicate 10 0x80), by decide, by decide, by decide +kernel⟩⟩

/-- V-U23, an eleventh byte, and V-U17 and V-U18, both ends of the tenth byte's range. -/
theorem witness_UvarintOverflowIsOvf :
    (∃ s : State, (∀ i, i < 9 → 128 ≤ (s.readIn i).toNat) ∧ 11 ≤ s.IN_LEN.toNat ∧ 128 ≤ (s.readIn 9).toNat) ∧
    (∃ s : State, (∀ i, i < 9 → 128 ≤ (s.readIn i).toNat) ∧ 10 ≤ s.IN_LEN.toNat ∧ 2 ≤ (s.readIn 9).toNat ∧
      (s.readIn 9).toNat ≤ 0x7f) ∧
    (∃ s : State, (∀ i, i < 9 → 128 ≤ (s.readIn i).toNat) ∧ 10 ≤ s.IN_LEN.toNat ∧ 2 ≤ (s.readIn 9).toNat ∧
      (s.readIn 9).toNat = 0x7f) :=
  ⟨⟨input 2 .begin (List.replicate 10 0x80 ++ [0x00]), by decide +kernel, by decide, by decide⟩,
   ⟨input 2 .begin (List.replicate 9 0xff ++ [0x02]), by decide +kernel, by decide, by decide, by decide⟩,
   ⟨input 2 .begin (List.replicate 9 0xff ++ [0x7f]), by decide +kernel, by decide, by decide, by decide⟩⟩

/-- One byte and ten bytes, with exactly that room. -/
theorem witness_PutuvarintEmitsShortestVarint :
    (∃ s : State, s.ARG.toNat < 2 ^ (7 * 1) ∧ s.caps.outCap = some 1 ∧ Capacity.fits s.caps.outCap 1 = true) ∧
    (∃ s : State, 2 ^ (7 * (10 - 1)) ≤ s.ARG.toNat ∧ s.ARG.toNat < 2 ^ (7 * 10) ∧ s.caps.outCap = some 10 ∧
      Capacity.fits s.caps.outCap 10 = true) :=
  ⟨⟨{ State.reset with caps := outRoom 1, ARG := 127 }, by decide, rfl, by decide⟩,
   ⟨{ State.reset with caps := outRoom 10, ARG := 0xffffffffffffffff }, by decide, by decide, rfl, by decide⟩⟩

/-- P8: `PUTUVARINT` of 300 and `UVARINT` of what it emits; then a padded input (V-U26) and the encoding of its value. -/
theorem witness_VarintRoundTrip :
    (∃ s t u : State, exec .putuvarint s = .next t ∧ t.OUT_LEN.toNat ≤ u.IN_LEN.toNat ∧
      ∀ i, i < t.OUT_LEN.toNat → Store.read t.OUT i = some (u.readIn i)) ∧
    (∃ u w s t : State, exec .uvarint u = .next w ∧ w.STATUS = .ok ∧ s.ARG = w.VALUE ∧ exec .putuvarint s = .next t) :=
  ⟨⟨{ State.reset with ARG := 300 }, after (exec .putuvarint { State.reset with ARG := 300 }),
      input 2 .begin [0xac, 0x02, 0xff], rfl, by decide +kernel, by decide +kernel⟩,
   ⟨input 2 .begin [0x80, 0x00], after (exec .uvarint (input 2 .begin [0x80, 0x00])), State.reset,
      after (exec .putuvarint State.reset), rfl, by decide +kernel, by decide +kernel, rfl⟩⟩

/-- V-C5 at `CS` = 1 before its hit: the match of its first byte has length 4. -/
theorem scan_matchLength : MatchLength (scanState [0x61, 0x61, 0x61, 0x61, 0x61] 1 0 [(242, 0)]) 0 4 where
  min := by decide
  inside := by decide
  equal := by decide +kernel
  longest := .inl rfl

/-- A header that declares one byte more than `OUT_CAP`; a varint of 128 for one cell, and any varint for none. Of
`COMPRESS`: no cell for the header, one cell for the header of 128 bytes, one cell too few for an input of two bytes (E2), for
a hit (V-C5) and for the last literal (V-C3); and an emission that ends at the capacity exactly (E2 with `OUT_CAP` = 4). -/
theorem witness_OutputBeyondCapacityIsRefused :
    (∃ (s : State) (c : Nat), s.caps.outCap = some c ∧ s.stage = .begin ∧ IsVarint s.readIn 1 ∧ 1 ≤ s.IN_LEN.toNat ∧
      groupsValue s.readIn 1 ≤ 0x7fffffff ∧ c < groupsValue s.readIn 1) ∧
    (∃ (s : State) (c : Nat), s.caps.outCap = some c ∧ 2 ^ (7 * c) ≤ s.ARG.toNat ∧ 1 ≤ c) ∧
    (∃ s : State, s.caps.outCap = some 0) ∧
    (∃ s : State, s.caps.outCap = some 0 ∧ s.stage = .begin ∧ s.IN_LEN.toNat ≤ 0xffffffff) ∧
    (∃ (s : State) (c : Nat), s.caps.outCap = some c ∧ s.stage = .begin ∧ s.IN_LEN.toNat ≤ 0xffffffff ∧ 1 ≤ c ∧
      2 ^ (7 * c) ≤ s.IN_LEN.toNat) ∧
    (∃ (s : State) (c : Nat), s.caps.outCap = some c ∧ s.stage = .begin ∧ 1 ≤ s.IN_LEN.toNat ∧ s.IN_LEN.toNat ≤ 4 ∧
      c + 1 = s.IN_LEN.toNat + 2) ∧
    (∃ (s : State) (c : Nat) (p : Word32) (len : Nat), s.caps.outCap = some c ∧ s.stage = .scan ∧ s.CS + 3 < s.N ∧
      s.N ≤ 0xffffffff ∧ 18 ≤ s.SHIFT ∧ s.readTable (bucketAt s) = some p ∧ p.toNat < s.CS ∧
      s.CS - p.toNat < 32768 ∧ MatchLength s p.toNat len ∧ c + 1 = s.W + (hitOutput p.toNat len s).length) ∧
    (∃ (s : State) (c : Nat), s.caps.outCap = some c ∧ s.stage = .scan ∧ s.N ≤ s.CS + 3 ∧ s.LIT < s.N ∧
      s.N ≤ 0xffffffff ∧ c + 1 = s.W + (pendingBytes s.N s).length) ∧
    (∃ (s : State) (c : Nat) (t : State), s.caps.outCap = some c ∧ s.W ≤ c ∧ exec .compress s = .next t ∧ t.W = c) :=
  ⟨⟨{ input 0 .begin [0x05] with caps := outRoom 4 }, 4, rfl, rfl, isVarint_of_check (by decide +kernel), by decide,
      by decide +kernel, by decide +kernel⟩,
   ⟨{ State.reset with caps := outRoom 1, ARG := 128 }, 1, rfl, by decide, by decide⟩,
   ⟨{ State.reset with caps := outRoom 0 }, rfl⟩,
   ⟨{ input 1 .begin [] with caps := outRoom 0 }, rfl, rfl, by decide⟩,
   ⟨{ input 1 .begin [] with IN_LEN := 128, caps := outRoom 1 }, 1, rfl, rfl, by decide, by decide, by decide⟩,
   ⟨{ input 1 .begin [0x61, 0x62] with caps := outRoom 3 }, 3, rfl, rfl, by decide, by decide, by decide⟩,
   ⟨{ scanState [0x61, 0x61, 0x61, 0x61, 0x61] 1 0 [(242, 0)] with caps := outRoom 4 }, 4, 0, 4, rfl, rfl, by decide,
      by decide, by decide, by decide +kernel, by decide, by decide,
      ⟨scan_matchLength.min, scan_matchLength.inside, scan_matchLength.equal, .inl rfl⟩, by decide +kernel⟩,
   ⟨{ scanState [0x68, 0x65, 0x6c, 0x6c, 0x6f] 2 0 [] with caps := outRoom 6 }, 6, rfl, rfl, by decide, by decide,
      by decide, by decide +kernel⟩,
   ⟨{ input 1 .begin [0x61, 0x62] with caps := outRoom 4 }, 4,
      after (exec .compress { input 1 .begin [0x61, 0x62] with caps := outRoom 4 }), rfl, by decide, rfl,
      by decide +kernel⟩⟩

/-! ## Witnesses: the Decompressor -/

/-- V-E4 with exactly the room it needs and with one cell less, V-E2, V-E5 and V-E9 and V-E10. -/
theorem witness_HeaderStepAcceptsOrRejects :
    (∃ s : State, s.stage = .begin ∧ IsVarint s.readIn 5 ∧ 5 ≤ s.IN_LEN.toNat ∧ groupsValue s.readIn 5 = 0x7fffffff ∧
      Capacity.fits s.caps.outCap (groupsValue s.readIn 5) = true) ∧
    (∃ s : State, s.stage = .begin ∧ IsVarint s.readIn 5 ∧ 5 ≤ s.IN_LEN.toNat ∧ groupsValue s.readIn 5 = 0x7fffffff ∧
      Capacity.fits s.caps.outCap (groupsValue s.readIn 5) = false) ∧
    (∃ s : State, s.stage = .begin ∧ IsVarint s.readIn 5 ∧ 5 ≤ s.IN_LEN.toNat ∧ groupsValue s.readIn 5 = 0x80000000) ∧
    (∃ s : State, s.stage = .begin ∧ s.IN_LEN.toNat ≤ 10 ∧ ∀ i, i < s.IN_LEN.toNat → 128 ≤ (s.readIn i).toNat) ∧
    (∃ s : State, s.stage = .begin ∧ (∀ i, i < 9 → 128 ≤ (s.readIn i).toNat) ∧ 11 ≤ s.IN_LEN.toNat ∧
      128 ≤ (s.readIn 9).toNat) ∧
    (∃ s : State, s.stage = .begin ∧ (∀ i, i < 9 → 128 ≤ (s.readIn i).toNat) ∧ 10 ≤ s.IN_LEN.toNat ∧
      2 ≤ (s.readIn 9).toNat ∧ (s.readIn 9).toNat ≤ 0x7f) :=
  ⟨⟨{ input 0 .begin [0xff, 0xff, 0xff, 0xff, 0x07] with caps := outRoom 0x7fffffff }, rfl,
      isVarint_of_check (by decide +kernel), by decide, by decide +kernel, by decide +kernel⟩,
   ⟨{ input 0 .begin [0xff, 0xff, 0xff, 0xff, 0x07] with caps := outRoom 0x7ffffffe }, rfl,
      isVarint_of_check (by decide +kernel), by decide, by decide +kernel, by decide +kernel⟩,
   ⟨input 0 .begin [0x80, 0x80, 0x80, 0x80, 0x08], rfl, isVarint_of_check (by decide +kernel), by decide,
      by decide +kernel⟩,
   ⟨input 0 .begin [], rfl, by decide, by decide⟩,
   ⟨input 0 .begin (List.replicate 10 0x80 ++ [0x00]), rfl, by decide +kernel, by decide, by decide⟩,
   ⟨input 0 .begin (List.replicate 9 0xff ++ [0x02]), rfl, by decide +kernel, by decide, by decide, by decide⟩⟩

/-- The longest literal of each form, in a block and an output that hold exactly it. -/
theorem witness_LiteralsMovePayload :
    (∃ (s : State) (m : BitVec 6), m.toNat = 59 ∧ s.S + 1 + (m.toNat + 1) ≤ s.IN_LEN.toNat ∧
      s.D + (m.toNat + 1) ≤ s.DLEN.toNat) ∧
    (∃ (s : State) (x : BitVec 8), x.toNat = 255 ∧ s.S + 2 + (x.toNat + 1) ≤ s.IN_LEN.toNat ∧
      s.D + (x.toNat + 1) ≤ s.DLEN.toNat) ∧
    (∃ (s : State) (x : BitVec 16), x.toNat = 65535 ∧ s.S + 3 + (x.toNat + 1) ≤ s.IN_LEN.toNat ∧
      s.D + (x.toNat + 1) ≤ s.DLEN.toNat) ∧
    (∃ (s : State) (x : BitVec 24), x.toNat = 16777215 ∧ s.S + 4 + (x.toNat + 1) ≤ s.IN_LEN.toNat ∧
      s.D + (x.toNat + 1) ≤ s.DLEN.toNat) ∧
    (∃ (s : State) (x : BitVec 32), x.toNat = 0x7ffffffe ∧ x.toNat < 0x7fffffff ∧
      s.S + 5 + (x.toNat + 1) ≤ s.IN_LEN.toNat ∧ s.D + (x.toNat + 1) ≤ s.DLEN.toNat) :=
  ⟨⟨{ State.reset with IN_LEN := 61, DLEN := 60 }, 59, by decide, by decide, by decide⟩,
   ⟨{ State.reset with IN_LEN := 258, DLEN := 256 }, 255, by decide, by decide, by decide⟩,
   ⟨{ State.reset with IN_LEN := 65539, DLEN := 65536 }, 65535, by decide, by decide, by decide⟩,
   ⟨{ State.reset with IN_LEN := 16777220, DLEN := 16777216 }, 16777215, by decide, by decide, by decide⟩,
   ⟨{ State.reset with IN_LEN := 0x80000004, DLEN := 0x7fffffff }, 0x7ffffffe, by decide, by decide, by decide,
      by decide⟩⟩

/-- One byte missing of the fixed part, of the room and of the payload, and the first illegal `LIT4` length. -/
theorem witness_LiteralErrorsInOrder :
    (∃ s : State, s.IN_LEN.toNat = 1 ∧ s.IN_LEN.toNat < s.S + 2) ∧
    (∃ s : State, s.IN_LEN.toNat = 2 ∧ s.IN_LEN.toNat < s.S + 3) ∧
    (∃ s : State, s.IN_LEN.toNat = 3 ∧ s.IN_LEN.toNat < s.S + 4) ∧
    (∃ s : State, s.IN_LEN.toNat = 4 ∧ s.IN_LEN.toNat < s.S + 5) ∧
    (∃ (s : State) (x : BitVec 32), s.S + 5 ≤ s.IN_LEN.toNat ∧ x.toNat = 0x7fffffff ∧ 0x7fffffff ≤ x.toNat) ∧
    (∃ (s : State) (m : BitVec 6), s.DLEN.toNat < s.D + (m.toNat + 1)) ∧
    (∃ (s : State) (m : BitVec 6), s.IN_LEN.toNat < s.S + 1 + (m.toNat + 1)) ∧
    (∃ (s : State) (x : BitVec 8), s.DLEN.toNat < s.D + (x.toNat + 1)) ∧
    (∃ (s : State) (x : BitVec 16), s.IN_LEN.toNat < s.S + 3 + (x.toNat + 1)) ∧
    (∃ (s : State) (x : BitVec 24), s.DLEN.toNat < s.D + (x.toNat + 1)) ∧
    (∃ (s : State) (x : BitVec 32), x.toNat = 0x7ffffffe ∧ x.toNat < 0x7fffffff ∧ s.DLEN.toNat < s.D + (x.toNat + 1)) ∧
    (∃ (s : State) (x : BitVec 32), x.toNat < 0x7fffffff ∧ s.IN_LEN.toNat < s.S + 5 + (x.toNat + 1)) :=
  ⟨⟨{ State.reset with IN_LEN := 1 }, by decide, by decide⟩, ⟨{ State.reset with IN_LEN := 2 }, by decide, by decide⟩,
   ⟨{ State.reset with IN_LEN := 3 }, by decide, by decide⟩, ⟨{ State.reset with IN_LEN := 4 }, by decide, by decide⟩,
   ⟨{ State.reset with IN_LEN := 5 }, 0x7fffffff, by decide, by decide, by decide⟩,
   ⟨{ State.reset with DLEN := 4 }, 4, by decide⟩, ⟨{ State.reset with IN_LEN := 5 }, 4, by decide⟩,
   ⟨{ State.reset with DLEN := 255 }, 255, by decide⟩, ⟨{ State.reset with IN_LEN := 3 }, 0, by decide⟩,
   ⟨State.reset, 0, by decide⟩, ⟨{ State.reset with DLEN := 0x7ffffffe }, 0x7ffffffe, by decide, by decide, by decide⟩,
   ⟨{ State.reset with IN_LEN := 5 }, 0, by decide, by decide⟩⟩

/-- `OFF` = `D` (V-D1) and `OFF` = 1, the whole room used. -/
theorem witness_CopiesRepeatPattern :
    (∃ (s : State) (l : BitVec 3) (off : BitVec 11), s.S + 2 ≤ s.IN_LEN.toNat ∧ 1 ≤ off.toNat ∧ off.toNat = s.D ∧
      off.toNat ≤ s.D ∧ s.D + (4 + l.toNat) = s.DLEN.toNat ∧ s.D + (4 + l.toNat) ≤ s.DLEN.toNat ∧
      ∀ a, s.D - off.toNat ≤ a → a < s.D → ∃ b, Store.read s.OUT a = some b) ∧
    (∃ (s : State) (m : BitVec 6) (off : BitVec 16), s.S + 3 ≤ s.IN_LEN.toNat ∧ off.toNat = 1 ∧ 1 ≤ off.toNat ∧
      off.toNat ≤ s.D ∧ m.toNat = 63 ∧ s.D + (1 + m.toNat) ≤ s.DLEN.toNat ∧
      ∀ a, s.D - off.toNat ≤ a → a < s.D → ∃ b, Store.read s.OUT a = some b) :=
  ⟨⟨chunkState [0x08, 0x0c, 0x61, 0x62, 0x63, 0x64, 0x01, 0x04] 6 [0x61, 0x62, 0x63, 0x64] 8, 0, 4, by decide, by decide,
      by decide, by decide, by decide, by decide,
      fun a _ h => (dense_read (n := 4) (by decide +kernel) a).2 h⟩,
   ⟨chunkState [0x41, 0x00, 0x61, 0xfe, 0x01, 0x00] 3 [0x61] 65, 63, 1, by decide, by decide, by decide, by decide,
      by decide, by decide, fun a _ h => (dense_read (n := 1) (by decide +kernel) a).2 h⟩⟩

/-- V-D21 and, with `COPY2` of 64 bytes, a first chunk that fills the output. -/
theorem witness_OffsetZeroCopyDraws :
    (∃ (s : State) (l : BitVec 3), (∀ a, s.D ≤ a → Store.read s.OUT a = none) ∧ s.S + 2 ≤ s.IN_LEN.toNat ∧
      s.D + (4 + l.toNat) ≤ s.DLEN.toNat) ∧
    (∃ (s : State) (m : BitVec 6), (∀ a, s.D ≤ a → Store.read s.OUT a = none) ∧ s.S + 3 ≤ s.IN_LEN.toNat ∧
      m.toNat = 63 ∧ s.D + (1 + m.toNat) ≤ s.DLEN.toNat) :=
  ⟨⟨chunkState [0x04, 0x01, 0x00] 1 [] 4, 0, fun _ _ => rfl, by decide, by decide⟩,
   ⟨chunkState [0x40, 0xfe, 0x00, 0x00] 1 [] 64, 63, fun _ _ => rfl, by decide, by decide, by decide⟩⟩

/-- V-D17, V-D12, V-D15 and the same three for `COPY2`. -/
theorem witness_CopyErrorsAreCorrupt :
    (∃ s : State, s.IN_LEN.toNat < s.S + 2) ∧ (∃ (s : State) (off : BitVec 11), s.D < off.toNat) ∧
    (∃ (s : State) (l : BitVec 3), s.DLEN.toNat < s.D + (4 + l.toNat)) ∧
    (∃ s : State, s.IN_LEN.toNat < s.S + 3) ∧ (∃ (s : State) (off : BitVec 16), s.D < off.toNat) ∧
    (∃ (s : State) (m : BitVec 6), s.DLEN.toNat < s.D + (1 + m.toNat)) :=
  ⟨⟨{ State.reset with IN_LEN := 1 }, by decide⟩, ⟨State.reset, 1, by decide⟩,
   ⟨chunkState [] 0 [0x61] 4, 0, by decide⟩, ⟨{ State.reset with IN_LEN := 2 }, by decide⟩,
   ⟨State.reset, 1, by decide⟩, ⟨State.reset, 0, by decide⟩⟩

theorem witness_TagThreeIsUnsupported :
    ∃ s : State, s.PHASE = .run ∧ s.host = [] ∧ s.stage = .chunks ∧ s.S < s.IN_LEN.toNat ∧ (s.readIn s.S).toNat % 4 = 3 :=
  ⟨chunkState [0x00, 0xff] 1 [] 0, rfl, rfl, rfl, by decide, by decide⟩

/-- V-E1, and V-E11 before its end step. -/
theorem witness_EndStepRequiresExactLength :
    (∃ s : State, s.PHASE = .run ∧ s.host = [] ∧ s.stage = .chunks ∧ s.S = s.IN_LEN.toNat ∧ s.D = s.DLEN.toNat) ∧
    (∃ s : State, s.PHASE = .run ∧ s.host = [] ∧ s.stage = .chunks ∧ s.S = s.IN_LEN.toNat ∧ s.D ≠ s.DLEN.toNat) :=
  ⟨⟨chunkState [0x00] 1 [] 0, rfl, rfl, rfl, by decide, by decide⟩,
   ⟨chunkState [0x02, 0x00, 0x61] 3 [0x61] 2, rfl, rfl, rfl, by decide, by decide⟩⟩

/-- A state in which a chunk of each of the seven kinds that can complete does so. -/
theorem witness_ChunksAdvanceCursors :
    ∀ i ∈ [Instr.lit 0, .lit1 0, .lit2 0, .lit3 0, .lit4 0, .copy1 0 1, .copy2 0 1],
      ∃ s t : State, s.PHASE = .run ∧ s.S < s.IN_LEN.toNat ∧ exec i s = .next t ∧ t.PHASE = .run ∧
        encode i = .chunk i.chunkBytes := by
  intro i hi
  refine ⟨chunkState [0, 0, 0, 0, 0, 0] 0 [0x61] 5, after (exec i (chunkState [0, 0, 0, 0, 0, 0] 0 [0x61] 5)), ?_⟩
  fin_cases hi <;> exact ⟨rfl, by decide, rfl, by decide +kernel, rfl⟩

theorem witness_FullOutputMakesEveryChunkFail : ∃ s : State, s.D = s.DLEN.toNat :=
  ⟨chunkState [0x01, 0x00, 0x61, 0x03] 3 [0x61] 1, by decide⟩

/-- One chunk that completes and one that raises. -/
theorem witness_ChunkFrame :
    (∃ (i : Instr) (s t : State), encode i = .chunk i.chunkBytes ∧ exec i s = .next t ∧ s.PHASE = .run ∧
      t.PHASE = .run) ∧
    (∃ (i : Instr) (s t : State), encode i = .chunk i.chunkBytes ∧ exec i s = .next t ∧ t.PHASE = .done) :=
  ⟨⟨.lit 0, chunkState [0x01, 0x00, 0x61] 1 [] 1, after (exec (.lit 0) (chunkState [0x01, 0x00, 0x61] 1 [] 1)), rfl, rfl,
      rfl, by decide +kernel⟩,
   ⟨.copy4 0, State.reset, after (exec (.copy4 0) State.reset), rfl, rfl, rfl⟩⟩

/-! ## Witnesses: errors -/

/-- V-U1: `UVARINT` fails in the varint decoder. -/
theorem witness_EveryErrorLeavesNoOutput :
    (∃ (i : Instr) (s t : State), s.STATUS = .ok ∧ s.VSTAT = .ok ∧ exec i s = .next t ∧ t.STATUS ≠ .ok ∧ t.VSTAT = .ok) ∧
    (∃ (i : Instr) (s t : State), s.STATUS = .ok ∧ s.VSTAT = .ok ∧ exec i s = .next t ∧ t.STATUS ≠ .ok ∧ t.VSTAT ≠ .ok) :=
  ⟨⟨.copy4 0, State.reset, after (exec (.copy4 0) State.reset), rfl, rfl, rfl, by decide, rfl⟩,
   ⟨.uvarint, input 2 .begin [], after (exec .uvarint (input 2 .begin [])), rfl, rfl, rfl, by decide +kernel,
      by decide +kernel⟩⟩

theorem witness_ErrorKindsPerOperation :
    ∀ i ∈ [Instr.putuvarint, .uvarint, .compress, .decompress], ∃ s t : State, s.STATUS = .ok ∧ exec i s = .next t := by
  intro i hi
  refine ⟨State.reset, after (exec i State.reset), ?_⟩
  fin_cases hi <;> exact ⟨rfl, rfl⟩

theorem witness_InputsAreImmutable : ∃ (i : Instr) (s t : State), exec i s = .next t :=
  ⟨.lit 0, chunkState [0x01, 0x00, 0x61] 1 [] 1, after (exec (.lit 0) (chunkState [0x01, 0x00, 0x61] 1 [] 1)), rfl⟩

/-! ## Witnesses: the Compressor -/

/-- V-C19. -/
theorem witness_TooLongInputIsInvalid : ∃ s : State, s.stage = .begin ∧ 0xffffffff < s.IN_LEN.toNat :=
  ⟨{ input 1 .begin [] with IN_LEN := 0x100000000 }, rfl, by decide⟩

/-- The empty input and both ends of the short lengths, with exactly the room of the block. -/
theorem witness_ShortInputIsOneLiteral :
    (∃ s : State, s.stage = .begin ∧ s.IN_LEN.toNat = 0 ∧ s.caps.outCap = some 1 ∧
      Capacity.fits s.caps.outCap 1 = true) ∧
    (∃ (s : State) (n : Nat), s.stage = .begin ∧ s.IN_LEN.toNat = n ∧ 1 ≤ n ∧ n = 1 ∧ s.caps.outCap = some 3 ∧
      Capacity.fits s.caps.outCap (n + 2) = true) ∧
    (∃ (s : State) (n : Nat), s.stage = .begin ∧ s.IN_LEN.toNat = n ∧ n ≤ 4 ∧ n = 4 ∧
      Capacity.fits s.caps.outCap (n + 2) = true) :=
  ⟨⟨{ input 1 .begin [] with caps := outRoom 1 }, rfl, by decide, rfl, by decide⟩,
   ⟨{ input 1 .begin [0x61] with caps := outRoom 3 }, 1, rfl, by decide, by decide, rfl, rfl, by decide⟩,
   ⟨input 1 .begin [0, 0, 0, 0], 4, rfl, by decide, by decide, rfl, rfl⟩⟩

/-- Both ends of the range of lengths, with exactly the room of their headers. -/
theorem witness_CompressStartsScan :
    (∃ s : State, s.stage = .begin ∧ s.IN_LEN.toNat = 5 ∧ 4 < s.IN_LEN.toNat ∧ s.IN_LEN.toNat ≤ 0xffffffff ∧
      s.caps.outCap = some 1 ∧ Capacity.fits s.caps.outCap 1 = true) ∧
    (∃ s : State, s.stage = .begin ∧ s.IN_LEN.toNat = 0xffffffff ∧ 4 < s.IN_LEN.toNat ∧ s.IN_LEN.toNat ≤ 0xffffffff ∧
      s.caps.outCap = some 5 ∧ Capacity.fits s.caps.outCap 5 = true) :=
  ⟨⟨{ input 1 .begin [1, 2, 3, 4, 5] with caps := outRoom 1 }, rfl, by decide, by decide, by decide, rfl, by decide⟩,
   ⟨{ input 1 .begin [] with IN_LEN := 0xffffffff, caps := outRoom 5 }, rfl, by decide, by decide, by decide, rfl,
      by decide⟩⟩

/-- The lengths on both sides of the largest table, and `2^j` for the smallest. -/
theorem witness_TableSizeIsSmallestPowerOfTwo :
    (∃ n : Nat, 4 < n ∧ n ≤ 16384 ∧ ∃ j, 8 ≤ j ∧ j ≤ 14 ∧ n ≤ 2 ^ j) ∧ (∃ n : Nat, 4 < n ∧ 16384 < n) :=
  ⟨⟨16384, by decide, by decide, 14, by decide, by decide, by decide⟩, ⟨16385, by decide, by decide⟩⟩

theorem witness_HashBucketIsTopBitsOfProduct :
    (∃ shift : Nat, 18 ≤ shift ∧ shift ≤ 24 ∧ shift = 18) ∧ (∃ shift : Nat, 18 ≤ shift ∧ shift ≤ 24 ∧ shift = 24) :=
  ⟨⟨18, by decide, by decide, rfl⟩, ⟨24, by decide, by decide, rfl⟩⟩

/-- An absent entry (V-C3 at `CS` = 0), an entry exactly 32768 back, and one whose last byte differs (V-C16's rule). -/
theorem witness_ScanMissAdvancesByOne :
    (∃ s : State, s.stage = .scan ∧ s.CS + 3 < s.N ∧ 18 ≤ s.SHIFT ∧ s.readTable (bucketAt s) = none) ∧
    (∃ (s : State) (p : Word32), s.stage = .scan ∧ s.CS + 3 < s.N ∧ 18 ≤ s.SHIFT ∧ s.readTable (bucketAt s) = some p ∧
      p.toNat < s.CS ∧ s.CS - p.toNat = 32768 ∧ 32768 ≤ s.CS - p.toNat) ∧
    (∃ (s : State) (p : Word32), s.stage = .scan ∧ s.CS + 3 < s.N ∧ 18 ≤ s.SHIFT ∧ s.readTable (bucketAt s) = some p ∧
      p.toNat < s.CS ∧ ∃ j, j < 4 ∧ s.readIn (p.toNat + j) ≠ s.readIn (s.CS + j)) :=
  ⟨⟨scanState [0x68, 0x65, 0x6c, 0x6c, 0x6f] 0 0 [], rfl, by decide, by decide, by decide +kernel⟩,
   ⟨{ scanState [] 32768 0 [(174, 0)] with
        N := 32772, IN := [(32768, 0x61), (32769, 0x62), (32770, 0x63), (32771, 0x64)] }, 0, rfl, by decide, by decide,
      by decide +kernel, by decide, by decide, by decide⟩,
   ⟨scanState [0x61, 0x61, 0x61, 0x62, 0x61, 0x62, 0x63, 0x64] 4 0 [(174, 0)], 0, rfl, by decide, by decide,
      by decide +kernel, by decide, 3, by decide, by decide⟩⟩

/-- V-C5 at `CS` = 1, distance 1, with a pending literal and exactly the room of what is emitted; and distance 32767 with no
pending literal. -/
theorem witness_ScanHitEmitsLiteralAndMatch :
    (∃ (s : State) (p : Word32) (len : Nat), s.stage = .scan ∧ s.CS + 3 < s.N ∧ s.N ≤ 0xffffffff ∧ 18 ≤ s.SHIFT ∧
      s.LIT ≤ s.CS ∧ s.readTable (bucketAt s) = some p ∧ p.toNat < s.CS ∧ s.CS - p.toNat = 1 ∧
      s.CS - p.toNat < 32768 ∧ (∀ j, j < 4 → s.readIn (p.toNat + j) = s.readIn (s.CS + j)) ∧
      MatchLength s p.toNat len ∧ s.caps.outCap = some (s.W + (hitOutput p.toNat len s).length) ∧
      Capacity.fits s.caps.outCap (s.W + (hitOutput p.toNat len s).length) = true) ∧
    (∃ (s : State) (p : Word32), s.stage = .scan ∧ s.CS + 3 < s.N ∧ s.N ≤ 0xffffffff ∧ 18 ≤ s.SHIFT ∧ s.LIT = s.CS ∧
      s.LIT ≤ s.CS ∧ s.caps.outCap = none ∧ s.readTable (bucketAt s) = some p ∧ p.toNat < s.CS ∧
      s.CS - p.toNat = 32767 ∧ s.CS - p.toNat < 32768 ∧
      ∀ j, j < 4 → s.readIn (p.toNat + j) = s.readIn (s.CS + j)) :=
  ⟨⟨{ scanState [0x61, 0x61, 0x61, 0x61, 0x61] 1 0 [(242, 0)] with caps := outRoom 5 }, 0, 4, rfl, by decide, by decide,
      by decide, by decide, by decide +kernel, by decide, by decide, by decide, by decide +kernel,
      ⟨scan_matchLength.min, scan_matchLength.inside, scan_matchLength.equal, .inl rfl⟩, by decide +kernel,
      by decide +kernel⟩,
   ⟨{ scanState [] 32767 32767 [(174, 0)] with
        N := 32771
        IN := [(0, 0x61), (1, 0x62), (2, 0x63), (3, 0x64), (32767, 0x61), (32768, 0x62), (32769, 0x63), (32770, 0x64)] },
      0, rfl, by decide, by decide, by decide, rfl, by decide, rfl, by decide +kernel, by decide, by decide, by decide,
      by decide +kernel⟩⟩

/-- Nothing pending; and V-C3, with exactly the room of its last literal. -/
theorem witness_ScanEndFlushesLiteral :
    (∃ s : State, s.stage = .scan ∧ s.N ≤ s.CS + 3 ∧ s.LIT = s.N ∧ s.LIT ≤ s.N ∧ s.N ≤ 0xffffffff ∧
      pendingBytes s.N s = [] ∧ Capacity.fits s.caps.outCap (s.W + (pendingBytes s.N s).length) = true) ∧
    (∃ s : State, s.stage = .scan ∧ s.N = s.CS + 3 ∧ s.N ≤ s.CS + 3 ∧ s.LIT < s.N ∧ s.LIT ≤ s.N ∧ s.N ≤ 0xffffffff ∧
      s.caps.outCap = some 7 ∧ s.W + (pendingBytes s.N s).length = 7 ∧
      Capacity.fits s.caps.outCap (s.W + (pendingBytes s.N s).length) = true) :=
  ⟨⟨scanState [0x61, 0x61, 0x61, 0x61, 0x61] 5 5 [], rfl, by decide, by decide, by decide, by decide, rfl, rfl⟩,
   ⟨{ scanState [0x68, 0x65, 0x6c, 0x6c, 0x6f] 2 0 [] with caps := outRoom 7 }, rfl, by decide, by decide, by decide,
      by decide, by decide, rfl, by decide +kernel, by decide +kernel⟩⟩

theorem witness_EmitCopySplitsIntoChunks : ∃ off : Nat, off < 65536 ∧ off = 65535 := ⟨65535, by decide, rfl⟩

theorem witness_EmitLiteralPicksShortestForm :
    (∃ n : Nat, 1 ≤ n ∧ n ≤ 4294967296 ∧ n = 1) ∧ (∃ n : Nat, 1 ≤ n ∧ n ≤ 4294967296 ∧ n = 4294967296) :=
  ⟨⟨1, by decide, by decide, rfl⟩, ⟨4294967296, by decide, by decide, rfl⟩⟩

theorem witness_EmissionIsAppendOnly :
    ∃ s t : State, s.stage = .scan ∧ exec .compress s = .next t ∧ t.STATUS = .ok ∧ s.W < t.W :=
  ⟨scanState [0x61, 0x61, 0x61, 0x61, 0x61] 1 0 [(242, 0)],
    after (exec .compress (scanState [0x61, 0x61, 0x61, 0x61, 0x61] 1 0 [(242, 0)])), rfl, rfl, by decide +kernel,
    by decide +kernel⟩

/-! ## Witnesses: the whole machine -/

/-- V-C5 at `CS` = 1, a state of a run. -/
def scanning : State := scanState [0x61, 0x61, 0x61, 0x61, 0x61] 1 0 [(242, 0)]

theorem scanning_inv : scanning.Inv where
  inWf := by decide +kernel
  outWf := by decide +kernel
  tableWf := by decide +kernel
  nbytes := by decide
  cleared := fun _ => ⟨rfl, rfl, rfl, rfl, rfl⟩
  fits := fun _ => rfl
  begun := fun _ h => by cases h
  chunks := fun _ h => by cases h
  scan := fun _ _ => {
    op := rfl, input := by decide, long := by decide, limit := by decide, pending := by decide, cursor := by decide
    tsize := by decide +kernel, shift := by decide +kernel, cells := by decide +kernel, emitted := by decide
    earlier := fun i p _ h => by
      have e : (if i = 242 then some (0 : Word32) else none) = some p := h
      split at e
      · cases e; decide
      · cases e }
  result := fun h => absurd rfl h
  failed := fun h => absurd rfl h

/-- V-D6 before its second chunk, a state of a run. -/
def decoding : State := chunkState [0x08, 0x04, 0x61, 0x62, 0x09, 0x02] 4 [0x61, 0x62] 8

theorem decoding_inv : decoding.Inv where
  inWf := by decide +kernel
  outWf := by decide +kernel
  tableWf := by decide +kernel
  nbytes := by decide
  cleared := fun _ => ⟨rfl, rfl, rfl, rfl, rfl⟩
  fits := fun _ => rfl
  begun := fun _ h => by cases h
  chunks := fun _ _ => {
    op := rfl, cursor := by decide, written := by decide, limit := by decide, cells := by decide +kernel, room := rfl }
  scan := fun _ h => by cases h
  result := fun h => absurd rfl h
  failed := fun h => absurd rfl h

theorem witness_StepKeepsInvariant :
    (∃ s t : State, s.Inv ∧ s.stage = .scan ∧ step s = .next t) ∧
    (∃ s t : State, s.Inv ∧ s.stage = .chunks ∧ step s = .next t) :=
  ⟨⟨scanning, after (step scanning), scanning_inv, rfl, rfl⟩, ⟨decoding, after (step decoding), decoding_inv, rfl, rfl⟩⟩

theorem witness_MatchDistanceInRange :
    ∃ (s : State) (c : Nat), s.Inv ∧ s.PHASE = .run ∧ s.stage = .scan ∧ s.CS + 3 < s.N ∧ hitCandidate (lookup s) = some c :=
  ⟨scanning, 0, scanning_inv, rfl, rfl, by decide, by decide +kernel⟩

theorem idle_aboutToStart (op : BitVec 2) (bs : List Byte) : AboutToStart op (idle op bs) :=
  { notRunning := idle_ne_run, host := rfl, op := rfl, inUnbounded := rfl
    outUnbounded := rfl }

/-- `IN[0 .. IN_LEN)` of `idle`. -/
theorem idle_holds (op : BitVec 2) (bs : List Byte) (h : bs.length < 2 ^ 64) : HoldsInput (idle op bs) bs where
  len := by
    show (BitVec.ofNat 64 bs.length).toNat = bs.length
    rw [BitVec.toNat_ofNat, Nat.mod_eq_of_lt h]
  bytes := fun i hi => by
    have e : Store.read (idle op bs).IN i = bs[i]? := by
      show Store.read (Store.writeList [] 0 bs) i = _
      rw [read_writeList]
      simp [hi]
    unfold State.readIn
    rw [e, List.getElem?_eq_getElem hi]

/-- E1: `COMPRESS` of the empty input. -/
theorem witness_CompressedSizeIsBounded :
    ∃ (s t : State) (n : Nat), AboutToStart 1 s ∧ steps (n + 1) s = .next t ∧ t.PHASE = .done :=
  ⟨idle 1 [], after (steps 2 (idle 1 [])), 1, idle_aboutToStart 1 [], rfl, by decide +kernel⟩

theorem witness_DecompressTerminates : ∃ s : State, AboutToStart 0 s := ⟨idle 0 [], idle_aboutToStart 0 []⟩

/-- The longest input. -/
theorem witness_CompressTerminatesAndSucceeds :
    ∃ s : State, AboutToStart 1 s ∧ s.IN_LEN.toNat ≤ 0xffffffff ∧ s.IN_LEN.toNat = 0xffffffff :=
  ⟨{ idle 1 [] with IN_LEN := 0xffffffff },
    { notRunning := by decide, host := rfl, op := rfl, inUnbounded := rfl, outUnbounded := rfl }, by decide, by decide⟩

/-- V-L1, three steps after START, and V-E5, one. -/
theorem witness_OutputLengthIsHeaderValue :
    (∃ (s t : State) (n : Nat), AboutToStart 0 s ∧ steps (n + 1) s = .next t ∧ t.PHASE = .done ∧ t.STATUS = .ok) ∧
    (∃ (s t : State) (n : Nat), AboutToStart 0 s ∧ steps (n + 1) s = .next t ∧ t.PHASE = .done ∧ t.STATUS ≠ .ok) :=
  ⟨⟨idle 0 [0x01, 0x00, 0x61], after (steps 4 (idle 0 [0x01, 0x00, 0x61])), 3, idle_aboutToStart 0 _, rfl,
      by decide +kernel, by decide +kernel⟩,
   ⟨idle 0 [], after (steps 2 (idle 0 [])), 1, idle_aboutToStart 0 _, rfl, by decide +kernel, by decide +kernel⟩⟩

/-- V-L1 and its longest proper part. -/
theorem witness_TruncatedBlockIsCorrupt :
    ∃ (s t s' : State) (x : List Byte) (m n : Nat), AboutToStart 0 s ∧ HoldsInput s x ∧ steps (n + 1) s = .next t ∧
      t.PHASE = .done ∧ t.STATUS = .ok ∧ m < x.length ∧ AboutToStart 0 s' ∧ HoldsInput s' (x.take m) ∧ m = 2 :=
  ⟨idle 0 [0x01, 0x00, 0x61], after (steps 4 (idle 0 [0x01, 0x00, 0x61])), idle 0 [0x01, 0x00], [0x01, 0x00, 0x61], 2, 3,
    idle_aboutToStart 0 _, idle_holds 0 _ (by decide), rfl, by decide +kernel, by decide +kernel, by decide,
    idle_aboutToStart 0 _, idle_holds 0 _ (by decide), rfl⟩

theorem witness_DecompressInvertsCompress :
    ∃ (s : State) (x : List Byte), AboutToStart 1 s ∧ HoldsInput s x ∧ x.length ≤ 0x7fffffff ∧ x = [0x61, 0x61, 0x61, 0x61, 0x61] :=
  ⟨idle 1 [0x61, 0x61, 0x61, 0x61, 0x61], _, idle_aboutToStart 1 _, idle_holds 1 _ (by decide), by decide, rfl⟩

/-- Two cores with the same input, one of them after an operation that left output, a table and a status. -/
theorem witness_NothingCarriesOver :
    ∃ s₁ s₂ : State, s₁.PHASE ≠ .run ∧ s₂.PHASE ≠ .run ∧ s₁.host = [.start] ∧ s₂.host = [.start] ∧
      s₁.OP = s₂.OP ∧ s₁.ARG = s₂.ARG ∧ s₁.IN_LEN = s₂.IN_LEN ∧ s₁.caps = s₂.caps ∧ s₁.draws = s₂.draws ∧
      (∀ i, i < s₁.IN_LEN.toNat → s₁.readIn i = s₂.readIn i) ∧ s₁ ≠ s₂ :=
  ⟨idle 1 [1, 2, 3, 4, 5],
    { idle 1 [1, 2, 3, 4, 5, 6] with
      IN_LEN := 5, PHASE := .done, STATUS := .corrupt, TABLE := [(0, 7), (300, 1)], OUT := [(0, 1)], CS := 9 },
    by decide, by decide, rfl, rfl, rfl, rfl, rfl, rfl, rfl, by decide +kernel, by decide +kernel⟩

end Sys2Proof.Machine.Tests
end

section
/-! Host accesses at and above a capacity (R12, R27, R28, R31, R60). -/

namespace Sys2Proof.Machine

/-- At an index at or above a bounded capacity, the cells up to and with that index do not fit. -/
theorem fits_succ_eq_false {cap : Option Nat} {c i : Nat} (hc : cap = some c) (hi : c ≤ i) :
    Capacity.fits cap (i + 1) = false := by
  subst hc
  exact decide_eq_false (Nat.not_le_of_lt (Nat.lt_succ_of_le hi))

theorem hostReadIn_fault {s : State} {c i : Nat} (hc : s.caps.inCap = some c) (hi : c ≤ i) :
    hostReadIn i s = .fault .noSuchInByte := by
  simp [hostReadIn, fits_succ_eq_false hc hi]

theorem hostWriteIn_fault {s : State} {c i : Nat} (b : Byte) (hc : s.caps.inCap = some c) (hi : c ≤ i) :
    hostWriteIn i b s = .fault .noSuchInByte := by
  simp [hostWriteIn, fits_succ_eq_false hc hi]

theorem hostReadOut_fault {s : State} {c i : Nat} (hc : s.caps.outCap = some c) (hi : c ≤ i) :
    hostReadOut i s = .fault .noSuchOutCell := by
  simp [hostReadOut, fits_succ_eq_false hc hi]

/-- Settles O12: the range of `IN_CAP` stands in the type of the capacities (`inCap_range`); outside RUN the pending move is
the step (`step_idle_move`), and each of the three accesses is a fault at an index that does not fit. -/
theorem indexBeyondCapacityFaults : Obligations.IndexBeyondCapacityFaults := by
  refine ⟨fun _ _ hc => inCap_range hc, fun s m rest c i hp hh hi => ?_⟩
  rw [step_idle_move hp hh]
  refine ⟨fun hc hm => ?_, fun hc hm => ?_⟩
  · obtain rfl | ⟨b, rfl⟩ := hm
    · exact hostReadIn_fault (s := { s with host := rest }) hc hi
    · exact hostWriteIn_fault (s := { s with host := rest }) b hc hi
  · subst hm
    exact hostReadOut_fault (s := { s with host := rest }) hc hi

end Sys2Proof.Machine
end

section
/-! The frames of the instructions: what a chunk leaves unchanged on every path, which statuses an instruction can leave, and
that none changes the inputs (R21, R24, R26, R33 to R36, R76, R240, R251). -/

namespace Sys2Proof.Machine

/-! ## The chunks -/

theorem isChunk_of_encode {i : Instr} (h : encode i = .chunk i.chunkBytes) : isChunk i = true := by
  cases i with
  | decompress | compress | uvarint | putuvarint => cases h
  | _ => rfl

/-- The registers and the array a chunk can write, on every path (R251). -/
theorem chunk_frame {i : Instr} {s t : State} (hi : isChunk i = true) (he : exec i s = .next t) :
    t = { s with S := t.S, D := t.D, X := t.X, LEN := t.LEN, OFF := t.OFF, OUT := t.OUT, draws := t.draws,
                 STATUS := t.STATUS, OUT_LEN := t.OUT_LEN, PHASE := t.PHASE } := by
  rcases chunk_cases i hi s with ⟨k, x, h, -⟩ | ⟨k, len, off, h, -⟩ | ⟨e, x, len, off, c, h, -⟩ <;> rw [h] at he <;> cases he
  · rfl
  · have hc := copyLoop_frame off.toNat len.toNat (copyFetched k len off s)
    rw [hc]; rfl
  · rfl

/-- A chunk that does not raise leaves the result registers and every `OUT` cell outside `[D, D + LEN)`. -/
theorem chunk_running {i : Instr} {s t : State} (hi : isChunk i = true) (he : exec i s = .next t) (ht : t.PHASE = .run) :
    t.STATUS = s.STATUS ∧ t.OUT_LEN = s.OUT_LEN ∧
      ∀ a, a < s.D ∨ s.D + t.LEN.toNat ≤ a → Store.read t.OUT a = Store.read s.OUT a := by
  rcases chunk_cases i hi s with ⟨k, x, h, -⟩ | ⟨k, len, off, h, -⟩ | ⟨e, x, len, off, c, h, -⟩ <;> rw [h] at he <;> cases he
  · refine ⟨rfl, rfl, fun a ha => ?_⟩
    have ha' : a < s.D ∨ s.D + (literalLen x).toNat ≤ a := ha
    show Store.read (Store.writeList s.OUT s.D _) a = _
    rw [read_writeList, inBytes_length, if_neg (by omega)]
  · have hc := copyLoop_frame off.toNat len.toNat (copyFetched k len off s)
    have hl : (copyLoop off.toNat len.toNat (copyFetched k len off s)).LEN = len := by rw [hc]; rfl
    refine ⟨by rw [hc]; rfl, by rw [hc]; rfl, fun a ha => ?_⟩
    rw [hl] at ha
    exact copyLoop_read_outside _ _ (copyFetched k len off s) a ha
  · cases ht

/-- Settles O29: the frame on every path is `chunk_frame`; a chunk that still runs has not raised (`chunk_running`). -/
theorem chunkFrame : Obligations.ChunkFrame := fun _ _ _ hi he =>
  ⟨chunk_frame (isChunk_of_encode hi) he, fun _ ht => chunk_running (isChunk_of_encode hi) he ht⟩

/-- The status a chunk leaves: the old one, Corrupt or Unsupported (R170). -/
theorem chunk_status {i : Instr} {s t : State} (hi : isChunk i = true) (he : exec i s = .next t) :
    t.STATUS = s.STATUS ∨ t.STATUS = .corrupt ∨ t.STATUS = .unsupported := by
  rcases chunk_cases i hi s with ⟨k, x, h, -⟩ | ⟨k, len, off, h, -⟩ | ⟨e, x, len, off, c, h, rfl | rfl⟩ <;> rw [h] at he <;>
    cases he
  · exact .inl rfl
  · exact .inl (by rw [copyLoop_frame]; rfl)
  · exact .inr (.inl rfl)
  · exact .inr (.inr rfl)

/-! ## DECOMPRESS, by step -/

/-- A step of `DECOMPRESS` is the header step, a chunk step or the end step (R150). -/
theorem execDecompress_cases (s : State) :
    (s.stage ≠ .chunks ∧ exec .decompress s = headerStep s) ∨
    (s.stage = .chunks ∧ s.S < s.IN_LEN.toNat ∧ exec .decompress s = exec (chunkAt s) (fetchChunk s)) ∨
    (s.stage = .chunks ∧ ¬ s.S < s.IN_LEN.toNat ∧ exec .decompress s = endStep s) := by
  by_cases h : s.stage = .chunks
  · by_cases hs : s.S < s.IN_LEN.toNat
    · exact .inr (.inl ⟨h, hs, execDecompress_chunk h hs⟩)
    · exact .inr (.inr ⟨h, hs, execDecompress_end h hs⟩)
  · exact .inl ⟨h, execDecompress_header h⟩

/-- The states `DECOMPRESS` can answer: an error after the header's varint, an accepted header, a chunk's next state, or the
end of the block (R151, R152, R165). -/
theorem execDecompress_next {s t : State} (he : exec .decompress s = .next t) :
    (∃ k, (k = .corrupt ∨ k = .tooLarge) ∧ t = raise k (headerRan s)) ∨ (∃ v n, t = headerDone v n s) ∨
    exec (chunkAt s) (fetchChunk s) = .next t ∨ t = raise .corrupt s ∨ t = succeed (s.DLEN.setWidth 64) s := by
  rcases execDecompress_cases s with ⟨-, h⟩ | ⟨-, -, h⟩ | ⟨-, -, h⟩ <;> rw [h] at he
  · rcases headerStep_cases s with ⟨-, h1⟩ | ⟨-, h1⟩ | ⟨v, n, -, ⟨-, h1⟩ | ⟨-, -, h1⟩ | ⟨-, -, h1⟩⟩ <;> rw [h1] at he <;>
      cases he
    · exact .inl ⟨_, .inl rfl, rfl⟩
    · exact .inl ⟨_, .inl rfl, rfl⟩
    · exact .inl ⟨_, .inr rfl, rfl⟩
    · exact .inr (.inl ⟨v, n, rfl⟩)
  · exact .inr (.inr (.inl he))
  · rcases endStep_cases s with ⟨-, h1⟩ | ⟨-, h1⟩ <;> rw [h1] at he <;> cases he
    · exact .inr (.inr (.inr (.inl rfl)))
    · exact .inr (.inr (.inr (.inr rfl)))

/-- The states `COMPRESS` can answer (R190 to R204). -/
theorem execCompress_next {s t : State} (he : exec .compress s = .next t) :
    (∃ u, t = raise .invalidInput u ∧ (u = { s with N := s.IN_LEN.toNat } ∨ (∃ p, u = hitFound p s) ∨ u = s)) ∨
    t = shortDone (headerEmitted s) ∨ t = startScan (headerEmitted s) ∨ t = missDone s ∨ (∃ p, t = hitDone p s) ∨
    t = scanDone s := by
  rcases execCompress_cases s with ⟨-, -, h⟩ | ⟨-, -, h⟩ | ⟨-, -, -, h⟩ | ⟨-, -, -, h⟩ | ⟨-, -, p, -, h⟩ | ⟨-, -, -, p, h⟩ |
    ⟨-, -, h⟩ | ⟨-, -, -, h⟩ | ⟨r, h⟩ <;> rw [h] at he <;> cases he
  · exact .inl ⟨_, rfl, .inl rfl⟩
  · exact .inr (.inl rfl)
  · exact .inr (.inr (.inl rfl))
  · exact .inr (.inr (.inr (.inl rfl)))
  · exact .inr (.inr (.inr (.inr (.inl ⟨p, rfl⟩))))
  · exact .inl ⟨_, rfl, .inr (.inl ⟨p, rfl⟩)⟩
  · exact .inr (.inr (.inr (.inr (.inr rfl))))
  · exact .inl ⟨_, rfl, .inr (.inr rfl)⟩

/-! ## Which errors (R24, R240) -/

theorem uvarint_status {s t : State} (he : exec .uvarint s = .next t) : t.STATUS = .ok ∨ t.STATUS = .corrupt := by
  rcases execUvarint_cases s with ⟨v, n, -, h⟩ | ⟨-, h⟩ | ⟨-, h⟩ <;> rw [h] at he <;> cases he
  · exact .inl rfl
  · exact .inr rfl
  · exact .inr rfl

theorem putuvarint_status {s t : State} (he : exec .putuvarint s = .next t) : t.STATUS = .ok := by
  rcases execPutuvarint_cases s with h | h <;> rw [h] at he <;> cases he
  rfl

theorem compress_status {s t : State} (hs : s.STATUS = .ok) (he : exec .compress s = .next t) :
    t.STATUS = .ok ∨ t.STATUS = .invalidInput := by
  rcases execCompress_next he with ⟨u, rfl, -⟩ | rfl | rfl | rfl | ⟨p, rfl⟩ | rfl
  · exact .inr rfl
  · exact .inl rfl
  · exact .inl hs
  · exact .inl hs
  · exact .inl hs
  · exact .inl rfl

theorem decompress_status {s t : State} (hs : s.STATUS = .ok) (he : exec .decompress s = .next t) :
    t.STATUS ≠ .invalidInput := by
  rcases execDecompress_next he with ⟨k, rfl | rfl, rfl⟩ | ⟨v, n, rfl⟩ | hc | rfl | rfl
  · rintro ⟨⟩
  · rintro ⟨⟩
  · show s.STATUS ≠ _; rw [hs]; rintro ⟨⟩
  · rcases chunk_status (chunkAt_isChunk s) hc with h | h | h <;> rw [h]
    · show s.STATUS ≠ _; rw [hs]; rintro ⟨⟩
    · rintro ⟨⟩
    · rintro ⟨⟩
  · rintro ⟨⟩
  · rintro ⟨⟩

/-- The chunks and the operations but `COMPRESS` never raise InvalidInput. -/
theorem status_ne_invalidInput {i : Instr} {s t : State} (hs : s.STATUS = .ok) (he : exec i s = .next t)
    (hi : i ≠ .compress) : t.STATUS ≠ .invalidInput := by
  have chunk : isChunk i = true → t.STATUS ≠ .invalidInput := fun hc => by
    rcases chunk_status hc he with h | h | h <;> rw [h]
    · rw [hs]; rintro ⟨⟩
    · rintro ⟨⟩
    · rintro ⟨⟩
  cases i with
  | decompress => exact decompress_status hs he
  | compress => exact absurd rfl hi
  | uvarint => rcases uvarint_status he with h | h <;> rw [h] <;> rintro ⟨⟩
  | putuvarint => rw [putuvarint_status he]; rintro ⟨⟩
  | _ => exact chunk rfl

/-- Settles O31: one lemma per host operation, and `chunk_status` for the chunks. -/
theorem errorKindsPerOperation : Obligations.ErrorKindsPerOperation := by
  refine fun i s t hs he => ⟨?_, ?_, ?_, status_ne_invalidInput hs he⟩
  · rintro rfl; exact putuvarint_status he
  · rintro rfl; exact uvarint_status he
  · rintro rfl; exact compress_status hs he

/-! ## The inputs (R26, R76) -/

/-- `t` has the inputs, the capacities and the host's side of `s`. -/
structure KeepsInputs (s t : State) : Prop where
  input  : t.IN = s.IN
  inLen  : t.IN_LEN = s.IN_LEN
  op     : t.OP = s.OP
  arg    : t.ARG = s.ARG
  caps   : t.caps = s.caps
  host   : t.host = s.host
  rdata  : t.rdata = s.rdata
  epoch  : t.epoch = s.epoch

theorem KeepsInputs.trans {s t u : State} (h : KeepsInputs s t) (h' : KeepsInputs t u) : KeepsInputs s u :=
  ⟨h'.input.trans h.input, h'.inLen.trans h.inLen, h'.op.trans h.op, h'.arg.trans h.arg, h'.caps.trans h.caps,
    h'.host.trans h.host, h'.rdata.trans h.rdata, h'.epoch.trans h.epoch⟩

theorem chunk_keepsInputs {i : Instr} {s t : State} (hi : isChunk i = true) (he : exec i s = .next t) : KeepsInputs s t := by
  rw [chunk_frame hi he]
  exact ⟨rfl, rfl, rfl, rfl, rfl, rfl, rfl, rfl⟩

theorem decompress_keepsInputs {s t : State} (he : exec .decompress s = .next t) : KeepsInputs s t := by
  rcases execDecompress_next he with ⟨k, -, rfl⟩ | ⟨v, n, rfl⟩ | hc | rfl | rfl
  · exact ⟨rfl, rfl, rfl, rfl, rfl, rfl, rfl, rfl⟩
  · exact ⟨rfl, rfl, rfl, rfl, rfl, rfl, rfl, rfl⟩
  · exact KeepsInputs.trans (t := fetchChunk s) ⟨rfl, rfl, rfl, rfl, rfl, rfl, rfl, rfl⟩
      (chunk_keepsInputs (chunkAt_isChunk s) hc)
  · exact ⟨rfl, rfl, rfl, rfl, rfl, rfl, rfl, rfl⟩
  · exact ⟨rfl, rfl, rfl, rfl, rfl, rfl, rfl, rfl⟩

theorem compress_keepsInputs {s t : State} (he : exec .compress s = .next t) : KeepsInputs s t := by
  rcases execCompress_next he with ⟨u, rfl, rfl | ⟨p, rfl⟩ | rfl⟩ | rfl | rfl | rfl | ⟨p, rfl⟩ | rfl <;>
    exact ⟨rfl, rfl, rfl, rfl, rfl, rfl, rfl, rfl⟩

theorem uvarint_keepsInputs {s t : State} (he : exec .uvarint s = .next t) : KeepsInputs s t := by
  rcases execUvarint_cases s with ⟨v, n, -, h⟩ | ⟨-, h⟩ | ⟨-, h⟩ <;> rw [h] at he <;> cases he <;>
    exact ⟨rfl, rfl, rfl, rfl, rfl, rfl, rfl, rfl⟩

theorem putuvarint_keepsInputs {s t : State} (he : exec .putuvarint s = .next t) : KeepsInputs s t := by
  rcases execPutuvarint_cases s with h | h <;> rw [h] at he <;> cases he
  exact ⟨rfl, rfl, rfl, rfl, rfl, rfl, rfl, rfl⟩

/-- No instruction changes the inputs. -/
theorem exec_keepsInputs {i : Instr} {s t : State} (he : exec i s = .next t) : KeepsInputs s t := by
  cases i with
  | decompress => exact decompress_keepsInputs he
  | compress => exact compress_keepsInputs he
  | uvarint => exact uvarint_keepsInputs he
  | putuvarint => exact putuvarint_keepsInputs he
  | _ => exact chunk_keepsInputs rfl he

/-- Settles O32: `exec_keepsInputs`, instruction by instruction from what each can end in. -/
theorem inputsAreImmutable : Obligations.InputsAreImmutable := fun _ _ _ he => by
  obtain ⟨hin, hlen, hop, harg, hcaps, hhost, hrd, hep⟩ := exec_keepsInputs he
  exact ⟨hin, hlen, hop, harg, hcaps, hhost, hrd, hep⟩

end Sys2Proof.Machine
end

section
/-! The shared tails of the chunks and the header step as equations, for proofs that compare two states or run one: the test
that decides, and the state each branch ends in (R151, R158, R159, R162). -/

namespace Sys2Proof.Machine

theorem literalTail_eq (k : Nat) (x : Word32) (s : State) : literalTail k x s =
    if (literalLen x).toNat = 0 ∨ 2 ^ 31 ≤ (literalLen x).toNat then .next (raise .unsupported (literalFetched k x s))
    else if s.DLEN.toNat - s.D < (literalLen x).toNat ∨ s.IN_LEN.toNat - (s.S + k) < (literalLen x).toNat then
      .next (raise .corrupt (literalFetched k x s))
    else .next (literalDone k x s) := by
  rcases literalTail_cases k x s with ⟨h1, h⟩ | ⟨h1, h2, h3, h⟩ | ⟨h1, h2, h3, h4, h⟩
  · rw [h, if_pos h1]
  · rw [h, if_neg (by omega), if_pos h3]
  · rw [h, if_neg (by omega), if_neg (by omega)]

theorem copyTail_eq (k : Nat) (len : Word32) (off : BitVec 16) (s : State) : copyTail k len off s =
    if s.D < off.toNat ∨ s.DLEN.toNat < s.D + len.toNat then .next (raise .corrupt (copyFetched k len off s))
    else .next (copyLoop off.toNat len.toNat (copyFetched k len off s)) := by
  rcases copyTail_cases k len off s with ⟨h1, h⟩ | ⟨h1, h2, h⟩
  · rw [h, if_pos h1]
  · rw [h, if_neg (by omega)]

theorem headerStep_of_trunc {s : State} (h : (uvarintRun s).result = .trunc) :
    headerStep s = .next (raise .corrupt (headerRan s)) := by
  rcases headerStep_cases s with ⟨-, h1⟩ | ⟨hr, -⟩ | ⟨v, n, hr, -⟩
  · exact h1
  · rw [h] at hr; cases hr
  · rw [h] at hr; cases hr

theorem headerStep_of_ovf {s : State} (h : (uvarintRun s).result = .ovf) :
    headerStep s = .next (raise .corrupt (headerRan s)) := by
  rcases headerStep_cases s with ⟨hr, -⟩ | ⟨-, h1⟩ | ⟨v, n, hr, -⟩
  · rw [h] at hr; cases hr
  · exact h1
  · rw [h] at hr; cases hr

theorem headerStep_of_ok {s : State} {v : Word64} {n : Nat} (h : (uvarintRun s).result = .ok v n) : headerStep s =
    if Config.maxDecodedLen < v.toNat then .next (raise .tooLarge (headerRan s))
    else if Capacity.fits s.caps.outCap v.toNat then .next (headerDone v n s) else .refused .outCapacity := by
  rcases headerStep_cases s with ⟨hr, -⟩ | ⟨hr, -⟩ | ⟨w, m, hr, h1⟩ <;> rw [h] at hr <;> cases hr
  rcases h1 with ⟨h2, h1⟩ | ⟨h2, h3, h1⟩ | ⟨h2, h3, h1⟩
  · rw [h1, if_pos h2]
  · rw [h1, if_neg (Nat.not_lt_of_le h2), if_pos h3]
  · rw [h1, if_neg (Nat.not_lt_of_le h2), h3]; rfl

end Sys2Proof.Machine
end

section
/-! The invariant along a step (R25, R26, R30, R32, R33, R134, R206, R208, R250): what each kind of state an operation can
reach needs to meet it, then the engine's step by the stage it stands in, then the host's moves. -/

namespace Sys2Proof.Machine

/-! ## What a state needs to meet the invariant -/

/-- A core that is not running meets the invariant when its result is dense, or, after an error, empty. -/
theorem inv_of_not_running {s : State} (hin : Memory.wf s.IN) (ht : Memory.wf s.TABLE) (hn : s.NBYTES.toNat ≤ 10)
    (hp : s.PHASE ≠ .run) (hok : s.STATUS = .ok → Store.dense s.OUT s.OUT_LEN.toNat)
    (herr : s.STATUS ≠ .ok → s.OUT_LEN = 0 ∧ s.OUT = []) : s.Inv where
  inWf := hin
  outWf := by
    by_cases h : s.STATUS = .ok
    · exact dense_wf (hok h)
    · rw [(herr h).2]; exact wf_nil
  tableWf := ht
  nbytes := hn
  cleared := fun h => absurd h hp
  fits := fun h => absurd h hp
  begun := fun h => absurd h hp
  chunks := fun h => absurd h hp
  scan := fun h => absurd h hp
  result := fun _ => hok
  failed := fun _ => herr

/-- An operation that ends well with a dense result meets the invariant. -/
theorem inv_of_ended {s : State} (hin : Memory.wf s.IN) (ht : Memory.wf s.TABLE) (hn : s.NBYTES.toNat ≤ 10)
    (hp : s.PHASE = .done) (hs : s.STATUS = .ok) (hd : Store.dense s.OUT s.OUT_LEN.toNat) : s.Inv :=
  inv_of_not_running hin ht hn (by rw [hp]; decide) (fun _ => hd) (fun h => absurd hs h)

theorem status_ne_ok (k : ErrKind) : k.status ≠ .ok := by cases k <;> decide

/-- An error leaves a state that meets the invariant (R250). -/
theorem inv_raise {s : State} (k : ErrKind) (hin : Memory.wf s.IN) (ht : Memory.wf s.TABLE) (hn : s.NBYTES.toNat ≤ 10) :
    (raise k s).Inv :=
  inv_of_not_running hin ht hn (by rw [raise_PHASE]; decide) (fun h => absurd h (status_ne_ok k)) (fun _ => ⟨rfl, rfl⟩)

/-- A running core meets the invariant when its result registers are as START left them and its stage's own part holds. -/
theorem inv_of_running {s t : State} (h : s.Inv) (hr : s.PHASE = .run)
    (hclear : t.STATUS = s.STATUS ∧ t.VSTAT = s.VSTAT ∧ t.VALUE = s.VALUE ∧ t.NBYTES = s.NBYTES ∧ t.OUT_LEN = s.OUT_LEN)
    (hcaps : t.caps = s.caps) (hlen : t.IN_LEN = s.IN_LEN) (hrun : t.PHASE = .run)
    (hin : Memory.wf t.IN) (ht : Memory.wf t.TABLE) (hstage : t.stage ≠ .begin)
    (hchunks : t.stage = .chunks → ChunksInv t) (hscan : t.stage = .scan → ScanInv t) : t.Inv where
  inWf := hin
  outWf := by
    cases hs : t.stage with
    | begin => exact absurd hs hstage
    | chunks => exact dense_wf (hchunks hs).cells
    | scan => exact dense_wf (hscan hs).cells
  tableWf := ht
  nbytes := by obtain ⟨_, _, _, hn, _⟩ := hclear; rw [hn]; exact h.nbytes
  cleared := fun _ => by
    obtain ⟨h1, h2, h3, h4, h5⟩ := hclear
    rw [h1, h2, h3, h4, h5]; exact h.cleared hr
  fits := fun _ => by rw [hcaps, hlen]; exact h.fits hr
  begun := fun _ hb => absurd hb hstage
  chunks := fun _ => hchunks
  scan := fun _ => hscan
  result := fun hp => absurd hrun hp
  failed := fun hp => absurd hrun hp

/-- The invariant does not speak of the host's moves, the value it last read and the draw counter. -/
theorem State.Inv.withHost {s : State} (h : s.Inv) (moves : List HostMove) (rd : Word64) (n : Nat) :
    ({ s with host := moves, rdata := rd, draws := n } : State).Inv where
  inWf := h.inWf
  outWf := h.outWf
  tableWf := h.tableWf
  nbytes := h.nbytes
  cleared := h.cleared
  fits := h.fits
  begun := h.begun
  chunks := fun hr hs =>
    have c := h.chunks hr hs
    ⟨c.op, c.cursor, c.written, c.limit, c.cells, c.room⟩
  scan := fun hr hs =>
    have c := h.scan hr hs
    ⟨c.op, c.input, c.long, c.limit, c.pending, c.cursor, c.tsize, c.shift, c.cells, c.emitted, c.earlier⟩
  result := h.result
  failed := h.failed

/-! ## The chunk stage (R30, R32, R70) -/

/-- An accepted header establishes the chunk stage's invariant (R151). -/
theorem chunksInv_headerDone {s : State} {v : Word64} {n : Nat} (hop : s.OP = 0#2) (hr : (uvarintRun s).result = .ok v n)
    (hv : v.toNat ≤ Config.maxDecodedLen) (hf : Capacity.fits s.caps.outCap v.toNat = true) :
    ChunksInv (headerDone v n s) := by
  have hd : (headerDone v n s).DLEN.toNat = v.toNat := by
    show (v.setWidth 32).toNat = _
    rw [BitVec.toNat_setWidth]
    simp only [Config.maxDecodedLen] at hv; omega
  obtain ⟨-, hcursor, -⟩ := uvarintRun_ok hr
  exact {
    op := hop
    cursor := hcursor
    written := Nat.zero_le _
    limit := by rw [hd]; exact hv
    cells := dense_nil
    room := by rw [hd]; exact hf }

/-- A chunk that goes on keeps the chunk stage's invariant (R169). -/
theorem chunksInv_chunk {i : Instr} {s t : State} (h : ChunksInv s) (hi : isChunk i = true)
    (he : exec i s = .next t) (ht : t.PHASE = .run) : ChunksInv t := by
  rcases chunk_step hi he with ⟨e, hd, -⟩ | ⟨hf, -, hD, -, hS, hdense⟩
  · rw [ht] at hd; cases hd
  · have hdl : t.DLEN = s.DLEN := by rw [hf]
    exact {
      op := by rw [hf]; exact h.op
      cursor := by rw [hf]; exact hS
      written := by rw [hdl]; exact hD
      limit := by rw [hdl]; exact h.limit
      cells := hdense h.cells
      room := by rw [hdl]; rw [hf]; exact h.room }

/-! ## The scan (R33, R206, R208) -/

/-- The header is the varint of `IN_LEN` itself (R192). -/
theorem headerBytes_eq (s : State) : headerBytes s = putuvarintBytes s.IN_LEN := by
  unfold headerBytes; rw [BitVec.ofNat_toNat, BitVec.setWidth_eq]

theorem headerBytes_length_le {s : State} (h : s.IN_LEN.toNat ≤ Config.maxInputLen) : (headerBytes s).length ≤ 5 := by
  obtain ⟨-, -, hshort, -⟩ := putuvarintBytes_spec s.IN_LEN
  rw [headerBytes_eq]
  rcases hshort with h1 | h1
  · omega
  · by_contra hlt
    have : 2 ^ (7 * 5) ≤ 2 ^ (7 * ((putuvarintBytes s.IN_LEN).length - 1)) := Nat.pow_le_pow_right (by omega) (by omega)
    simp only [Config.maxInputLen] at h; omega

theorem headerEmitted_dense {s : State} (ho : s.OUT = []) : Store.dense (headerEmitted s).OUT (headerEmitted s).W := by
  have h := dense_writeList (dense_nil (α := Byte)) (headerBytes s)
  rw [Nat.zero_add] at h
  show Store.dense (Store.writeList s.OUT 0 (headerBytes s)) _
  rw [ho]; exact h

/-- The first step of `COMPRESS` on a longer input establishes the scan's invariant (R191, R192, R194 to R196). -/
theorem scanInv_startScan {s : State} (hop : s.OP = 1#2) (ho : s.OUT = []) (hl : Config.shortInputMax < s.IN_LEN.toNat)
    (hm : s.IN_LEN.toNat ≤ Config.maxInputLen) : ScanInv (startScan (headerEmitted s)) where
  op := hop
  input := rfl
  long := hl
  limit := hm
  pending := Nat.le_refl _
  cursor := Nat.zero_le _
  tsize := rfl
  shift := rfl
  cells := headerEmitted_dense ho
  emitted := by
    show (headerBytes s).length ≤ 5 + 0 + 5 * (0 / 4)
    exact headerBytes_length_le hm
  earlier := fun i p hi hp => by
    have hc : Store.read (Store.clearBelow (tableSize s.IN_LEN.toNat).1 s.TABLE) i = some p := hp
    have hi' : i < (tableSize s.IN_LEN.toNat).1 := hi
    rw [read_clearBelow, if_pos hi'] at hc
    cases hc

/-- The bucket lies in the part of the table in use (R194, R197). -/
theorem ScanInv.bucketAt_lt {s : State} (h : ScanInv s) : bucketAt s < s.TSIZE := by
  obtain ⟨-, hle, hpow, -⟩ := tableSize_spec s.N
  rw [h.tsize, hpow]
  unfold bucketAt
  rw [h.shift, Nat.div_lt_iff_lt_mul (Nat.two_pow_pos _), ← Nat.pow_add, Nat.sub_add_cancel (by omega)]
  exact Nat.mod_lt _ (by decide)

theorem ScanInv.shift_ge {s : State} (h : ScanInv s) : 18 ≤ s.SHIFT := by rw [h.shift]; exact (tableSize_spec s.N).1

/-- After the lookup every entry in use lies at or before the scan cursor (R198, R206). -/
theorem ScanInv.lookup_earlier {s : State} (h : ScanInv s) {i : Nat} {p : Word32} (hi : i < s.TSIZE)
    (hp : (lookup s).readTable i = some p) : p.toNat ≤ s.CS := by
  rw [lookup_readTable h.shift_ge] at hp
  split at hp
  · cases hp
    rw [BitVec.toNat_ofNat]; exact Nat.mod_le _ _
  · exact Nat.le_of_lt (h.earlier i p hi hp)

theorem scanInv_missDone {s : State} (h : ScanInv s) (hs : s.CS + 3 < s.N) : ScanInv (missDone s) where
  op := h.op
  input := h.input
  long := h.long
  limit := h.limit
  pending := Nat.le_succ_of_le h.pending
  cursor := by show s.CS + 1 ≤ s.N; omega
  tsize := h.tsize
  shift := h.shift
  cells := h.cells
  emitted := h.emitted
  earlier := fun _ _ hi hp => Nat.lt_succ_of_le (h.lookup_earlier hi hp)

/-- The match a hit finds: its end lies at least four bytes on, inside the input, with both cursors moved together. -/
theorem matchEnd_of_hit {s : State} {t : Nat} (hs : s.CS + 3 < s.N) (hc : hitCandidate (lookup s) = some t) :
    ∃ len, MatchLength s t len ∧ matchEnd t s = (s.CS + len, t + len) := by
  obtain ⟨p, -, -, -, hw⟩ := hitCandidate_eq_some hc
  have hw' : s.readIn32 t = s.readIn32 s.CS := hw
  obtain ⟨len, hm⟩ := exists_matchLength hs ((readIn32_eq_iff s t s.CS).mp hw')
  exact ⟨len, hm, hm.matchEnd_eq⟩

/-- A hit emits at most its literal's bytes and five, and less than its match's length (R208). -/
theorem hitOutput_length_le {p len : Nat} (s : State) (hl : 4 ≤ len) :
    (hitOutput p len s).length ≤ (s.CS - s.LIT) + 4 + len := by
  have h1 := pendingBytes_length s.CS s
  have h2 := copyBytes_length (s.CS - p) hl
  unfold hitOutput
  rw [List.length_append]; omega

theorem scanInv_hitDone {s : State} {t : Nat} (h : ScanInv s) (hs : s.CS + 3 < s.N)
    (hc : hitCandidate (lookup s) = some t) : ScanInv (hitDone t s) := by
  obtain ⟨len, hm, he⟩ := matchEnd_of_hit hs hc
  have h4 : 4 ≤ len := hm.min
  have hin := hm.inside
  have hCS : (hitDone t s).CS = s.CS + len := by show (matchEnd t s).1 = _; rw [he]
  have hLIT : (hitDone t s).LIT = s.CS + len := hCS
  have hpend := h.pending
  exact {
    op := h.op
    input := h.input
    long := h.long
    limit := h.limit
    pending := by rw [hCS, hLIT]
    cursor := by rw [hCS]; exact hin
    tsize := h.tsize
    shift := h.shift
    cells := dense_writeList h.cells (hitBytes t s)
    emitted := by
      have hW : (hitDone t s).W = s.W + (hitOutput t len s).length := by rw [← hm.hitBytes_eq]; rfl
      have hl := hitOutput_length_le (p := t) s h4
      have hb := h.emitted
      rw [hW, hLIT]; omega
    earlier := fun i p hi hp => by
      have := h.lookup_earlier hi hp
      rw [hCS]; omega }

/-- The whole output of a scan fits the 64 bits of `OUT_LEN` (R208). -/
theorem ScanInv.outLen_toNat {s : State} (h : ScanInv s) :
    (scanDone s).OUT_LEN.toNat = s.W + (pendingBytes s.N s).length := by
  have h1 := pendingBytes_length s.N s
  have h2 := h.emitted
  have h3 := h.pending
  have h4 := h.cursor
  have h5 := h.limit
  simp only [Config.maxInputLen] at h5
  show (BitVec.ofNat 64 _).toNat = _
  rw [BitVec.toNat_ofNat, Nat.mod_eq_of_lt (by omega)]

theorem shortBytes_length_le (s : State) : (shortBytes s).length ≤ 5 + s.N := by
  have := literalHead_length (s.N - 1)
  unfold shortBytes
  split
  · simp
  · rw [List.length_append, inBytes_length]; omega

/-- A short input's output is dense up to `OUT_LEN` (R193). -/
theorem shortDone_dense {s : State} (ho : s.OUT = []) (hl : s.IN_LEN.toNat ≤ Config.shortInputMax) :
    Store.dense (shortDone (headerEmitted s)).OUT (shortDone (headerEmitted s)).OUT_LEN.toNat := by
  have h1 : (headerEmitted s).W ≤ 5 := headerBytes_length_le (Nat.le_trans hl (by decide))
  have h2 : (shortBytes (headerEmitted s)).length ≤ 5 + s.IN_LEN.toNat := shortBytes_length_le (headerEmitted s)
  have hlen : (shortDone (headerEmitted s)).OUT_LEN.toNat = (headerEmitted s).W + (shortBytes (headerEmitted s)).length := by
    show (BitVec.ofNat 64 _).toNat = _
    simp only [Config.shortInputMax] at hl
    rw [BitVec.toNat_ofNat, Nat.mod_eq_of_lt (by omega)]
  rw [hlen]
  exact dense_writeList (headerEmitted_dense ho) (shortBytes (headerEmitted s))

/-! ## UVARINT and PUTUVARINT (R134, R139) -/

/-- The decoder's count is at most 10 (R134). -/
theorem uvarintRan_nbytes (s : State) : (uvarintRan s).NBYTES.toNat ≤ 10 := by
  show (uvarintRun s).result.nbytes.toNat ≤ 10
  cases h : (uvarintRun s).result with
  | ok v n =>
    have hn := (uvarintRun_ok h).1.short
    show (BitVec.ofNat 4 n).toNat ≤ 10
    rw [BitVec.toNat_ofNat]; omega
  | trunc => decide
  | ovf => decide

theorem putuvarintDone_outLen (s : State) : (putuvarintDone s).OUT_LEN.toNat = (putuvarintBytes s.ARG).length := by
  have h := (putuvarintBytes_spec s.ARG).1.short
  show (BitVec.ofNat 64 _).toNat = _
  rw [BitVec.toNat_ofNat, Nat.mod_eq_of_lt (by omega)]

theorem putuvarintDone_dense {s : State} (ho : s.OUT = []) :
    Store.dense (putuvarintDone s).OUT (putuvarintDone s).OUT_LEN.toNat := by
  rw [putuvarintDone_outLen]
  have h := dense_writeList (dense_nil (α := Byte)) (putuvarintBytes s.ARG)
  rw [Nat.zero_add] at h
  show Store.dense (Store.writeList s.OUT 0 _) _
  rw [ho]; exact h

/-! ## The engine's step, by instruction -/

/-- The operation `OP` selects, by its code (R22). -/
theorem decodeOp_cases (op : BitVec 2) : op = 0#2 ∧ decodeOp op = .decompress ∨ op = 1#2 ∧ decodeOp op = .compress ∨
    op = 2#2 ∧ decodeOp op = .uvarint ∨ op = 3#2 ∧ decodeOp op = .putuvarint := by
  revert op; decide

section
variable {s t : State} (h : s.Inv) (hp : s.PHASE = .run)
include h

theorem inv_chunk (hst : s.stage = .chunks) (hp : s.PHASE = .run)
    (he : exec (chunkAt s) (fetchChunk s) = .next t) : t.Inv := by
  have hf := chunk_frame (chunkAt_isChunk s) he
  have hin : t.IN = s.IN := by rw [hf]; rfl
  have ht : t.TABLE = s.TABLE := by rw [hf]; rfl
  have hn : t.NBYTES = s.NBYTES := by rw [hf]; rfl
  rcases chunk_step (chunkAt_isChunk s) he with ⟨e, -, hr⟩ | ⟨hgo, -⟩
  · rw [hr]
    exact inv_raise e (by rw [hin]; exact h.inWf) (by rw [ht]; exact h.tableWf) (by rw [hn]; exact h.nbytes)
  · have hrun : t.PHASE = .run := by rw [hgo]; exact hp
    have hs : t.stage = .chunks := by rw [hgo]; exact hst
    obtain ⟨hop, hS, hD, hl, hcells, hroom⟩ := h.chunks hp hst
    have hc := chunksInv_chunk (s := fetchChunk s) ⟨hop, hS, hD, hl, hcells, hroom⟩ (chunkAt_isChunk s) he hrun
    refine inv_of_running h hp (by rw [hgo]; exact ⟨rfl, rfl, rfl, rfl, rfl⟩) (by rw [hgo]; rfl) (by rw [hgo]; rfl) hrun
      (by rw [hin]; exact h.inWf) (by rw [ht]; exact h.tableWf) ?_ (fun _ => hc) ?_ <;> rw [hs] <;> rintro ⟨⟩

include hp

theorem inv_header (hop : s.OP = 0#2) (hs : headerStep s = .next t) : t.Inv := by
  rcases headerStep_cases s with ⟨-, h1⟩ | ⟨-, h1⟩ | ⟨v, n, hr, ⟨-, h1⟩ | ⟨hv, hf, h1⟩ | ⟨-, -, h1⟩⟩ <;>
    rw [h1] at hs <;> cases hs
  · exact inv_raise _ h.inWf h.tableWf h.nbytes
  · exact inv_raise _ h.inWf h.tableWf h.nbytes
  · exact inv_raise _ h.inWf h.tableWf h.nbytes
  · have hv0 : (headerDone v n s).VSTAT = s.VSTAT := by
      show (uvarintRun s).result.vstat = _
      obtain ⟨-, hvs, -⟩ := h.cleared hp
      rw [hr, hvs]; rfl
    exact inv_of_running h hp ⟨rfl, hv0, rfl, rfl, rfl⟩ rfl rfl hp h.inWf h.tableWf (by rintro ⟨⟩)
      (fun _ => chunksInv_headerDone hop hr hv hf) (by rintro ⟨⟩)

theorem inv_endStep (hst : s.stage = .chunks) (hs : endStep s = .next t) : t.Inv := by
  rcases endStep_cases s with ⟨-, h1⟩ | ⟨hD, h1⟩ <;> rw [h1] at hs <;> cases hs
  · exact inv_raise _ h.inWf h.tableWf h.nbytes
  · refine inv_of_ended h.inWf h.tableWf h.nbytes rfl rfl ?_
    have hl : (s.DLEN.setWidth 64).toNat = s.DLEN.toNat := by
      have := s.DLEN.isLt
      rw [BitVec.toNat_setWidth]; omega
    show Store.dense s.OUT (s.DLEN.setWidth 64).toNat
    rw [hl, ← hD]; exact (h.chunks hp hst).cells

theorem inv_decompress (hop : s.OP = 0#2) (he : exec .decompress s = .next t) : t.Inv := by
  rcases execDecompress_cases s with ⟨-, h1⟩ | ⟨hc, -, h1⟩ | ⟨hc, -, h1⟩ <;> rw [h1] at he
  · exact inv_header h hp hop he
  · exact inv_chunk h hc hp he
  · exact inv_endStep h hp hc he

theorem inv_uvarint (hst : s.stage = .begin) (he : exec .uvarint s = .next t) : t.Inv := by
  have hn := uvarintRan_nbytes s
  rcases execUvarint_cases s with ⟨v, n, -, h1⟩ | ⟨-, h1⟩ | ⟨-, h1⟩ <;> rw [h1] at he <;> cases he
  · refine inv_of_ended h.inWf h.tableWf hn rfl rfl ?_
    show Store.dense s.OUT 0
    rw [h.begun hp hst]; exact dense_nil
  · exact inv_raise _ h.inWf h.tableWf hn
  · exact inv_raise _ h.inWf h.tableWf hn

theorem inv_putuvarint (hst : s.stage = .begin) (he : exec .putuvarint s = .next t) : t.Inv := by
  rcases execPutuvarint_cases s with h1 | h1 <;> rw [h1] at he <;> cases he
  exact inv_of_ended h.inWf h.tableWf h.nbytes rfl rfl (putuvarintDone_dense (h.begun hp hst))

/-- The first step of `COMPRESS`, or one of its scan. -/
theorem inv_compress (hst : s.stage = .begin ∧ s.OP = 1#2 ∨ s.stage = .scan) (he : exec .compress s = .next t) : t.Inv := by
  have first : s.stage ≠ .scan → s.OUT = [] ∧ s.OP = 1#2 := fun hns => by
    obtain ⟨hb, hop⟩ := hst.resolve_right hns
    exact ⟨h.begun hp hb, hop⟩
  have hlook : Memory.wf (lookup s).TABLE := wf_write h.tableWf _ _
  rcases execCompress_cases s with ⟨-, -, h1⟩ | ⟨hns, hl, h1⟩ | ⟨hns, hl, hm, h1⟩ | ⟨hs, hlt, -, h1⟩ | ⟨hs, hlt, p, hc, h1⟩ |
    ⟨-, -, -, p, h1⟩ | ⟨hs, -, h1⟩ | ⟨-, -, -, h1⟩ | ⟨r, h1⟩ <;> rw [h1] at he <;> cases he
  · exact inv_raise _ h.inWf h.tableWf h.nbytes
  · exact inv_of_ended h.inWf h.tableWf h.nbytes rfl rfl (shortDone_dense (first hns).1 hl)
  · exact inv_of_running h hp ⟨rfl, rfl, rfl, rfl, rfl⟩ rfl rfl hp h.inWf (wf_clearBelow h.tableWf _) (by rintro ⟨⟩)
      (by rintro ⟨⟩) (fun _ => scanInv_startScan (first hns).2 (first hns).1 hl hm)
  · refine inv_of_running h hp ⟨rfl, rfl, rfl, rfl, rfl⟩ rfl rfl hp h.inWf hlook ?_ ?_
      (fun _ => scanInv_missDone (h.scan hp hs) hlt) <;> show s.stage = _ → _ <;> rw [hs] <;> rintro ⟨⟩
  · refine inv_of_running h hp ⟨rfl, rfl, rfl, rfl, rfl⟩ rfl rfl hp h.inWf hlook ?_ ?_
      (fun _ => scanInv_hitDone (h.scan hp hs) hlt hc) <;> show s.stage = _ → _ <;> rw [hs] <;> rintro ⟨⟩
  · exact inv_raise _ h.inWf hlook h.nbytes
  · refine inv_of_ended h.inWf h.tableWf h.nbytes rfl rfl ?_
    rw [(h.scan hp hs).outLen_toNat]
    exact dense_writeList (h.scan hp hs).cells (pendingBytes s.N s)
  · exact inv_raise _ h.inWf h.tableWf h.nbytes

/-- The engine's step keeps the invariant, at each stage. -/
theorem inv_engineStep (he : engineStep s = .next t) : t.Inv := by
  cases hst : s.stage with
  | begin =>
    rw [engineStep_begin hst] at he
    rcases decodeOp_cases s.OP with ⟨hop, hd⟩ | ⟨hop, hd⟩ | ⟨-, hd⟩ | ⟨-, hd⟩ <;> rw [hd] at he
    · exact inv_decompress h hp hop he
    · exact inv_compress h hp (.inl ⟨hst, hop⟩) he
    · exact inv_uvarint h hp hst he
    · exact inv_putuvarint h hp hst he
  | chunks =>
    by_cases hs : s.S < s.IN_LEN.toNat
    · rw [engineStep_chunk hst hs] at he; exact inv_chunk h hst hp he
    · rw [engineStep_end hst hs] at he; exact inv_endStep h hp hst he
  | scan => rw [engineStep_scan hst] at he; exact inv_compress h hp (.inr hst) he

end

/-! ## The host's moves -/

/-- Settles O44: nothing runs, and nothing is written. -/
theorem resetMeetsInvariant : Obligations.ResetMeetsInvariant :=
  inv_of_not_running wf_nil wf_nil (Nat.zero_le _) (by rintro ⟨⟩) (fun _ => dense_nil) (fun h => absurd rfl h)

/-- RESET leads to the state after power-on but for the host's side and the counters (R40, R280). -/
theorem inv_hostReset (s : State) : (hostReset s).Inv :=
  inv_of_not_running wf_nil wf_nil (Nat.zero_le _) (by rintro ⟨⟩) (fun _ => dense_nil) (fun h => absurd rfl h)

/-- What START leaves, but for the working registers (R25). -/
theorem startUnit_clearResults_eq (s : State) :
    startUnit (clearResults s) = { clearResults s with
      D := (startUnit (clearResults s)).D, ACC := (startUnit (clearResults s)).ACC, SH := (startUnit (clearResults s)).SH
      VI := (startUnit (clearResults s)).VI, W := (startUnit (clearResults s)).W, N := (startUnit (clearResults s)).N
      PV := (startUnit (clearResults s)).PV } := by
  unfold startUnit
  split_ifs <;> rfl

theorem inv_hostStart {s t : State} (h : s.Inv) (he : hostStart s = .next t) : t.Inv := by
  unfold hostStart at he
  split at he
  · next hf =>
    cases he
    rw [startUnit_clearResults_eq]
    exact {
      inWf := h.inWf, outWf := wf_nil, tableWf := h.tableWf, nbytes := Nat.zero_le _
      cleared := fun _ => ⟨rfl, rfl, rfl, rfl, rfl⟩, fits := fun _ => hf, begun := fun _ _ => rfl
      chunks := by rintro - ⟨⟩
      scan := by rintro - ⟨⟩
      result := fun hr => absurd rfl hr
      failed := fun hr => absurd rfl hr }
  · cases he

/-- A host's write outside RUN leaves the result as it is; it may change an input register or a byte of `IN`. -/
theorem State.Inv.withInputs {s : State} (h : s.Inv) (hp : s.PHASE ≠ .run) (op : BitVec 2) (arg len : Word64) {m : Memory}
    (hm : Memory.wf m) : ({ s with OP := op, ARG := arg, IN_LEN := len, IN := m } : State).Inv :=
  inv_of_not_running hm h.tableWf h.nbytes hp (h.result hp) (h.failed hp)

theorem inv_hostReadIn {s t : State} {i : Nat} (h : s.Inv) (he : hostReadIn i s = .next t) : t.Inv := by
  unfold hostReadIn at he
  split at he
  · cases he; exact h.withHost _ _ _
  · cases he

theorem inv_hostWriteIn {s t : State} {i : Nat} {b : Byte} (h : s.Inv) (hp : s.PHASE ≠ .run)
    (he : hostWriteIn i b s = .next t) : t.Inv := by
  unfold hostWriteIn at he
  split at he
  · cases he; exact h.withInputs hp _ _ _ (wf_write h.inWf i b)
  · cases he

/-- A read of `OUT` changes the draw counter at most (R28). -/
theorem readOut_snd (s : State) (i : Nat) : ∃ n, (s.readOut i).2 = { s with draws := n } := by
  cases h : Store.read s.OUT i with
  | some b => exact ⟨s.draws, by rw [readOut_defined h]⟩
  | none => exact ⟨s.draws + 1, by rw [readOut_undefined h]; rfl⟩

theorem inv_hostReadOut {s t : State} {i : Nat} (h : s.Inv) (he : hostReadOut i s = .next t) : t.Inv := by
  unfold hostReadOut at he
  split at he
  · dsimp only at he
    split at he
    · obtain ⟨n, hn⟩ := readOut_snd s i
      rw [hn] at he; cases he; exact h.withHost _ _ _
    · cases he; exact h.withHost _ _ _
  · cases he

theorem inv_hostMoveIdle {s t : State} {m : HostMove} (h : s.Inv) (hp : s.PHASE ≠ .run) (he : hostMoveIdle m s = .next t) :
    t.Inv := by
  have get : ∀ {w : Nat} (v : BitVec w), hostGet v s = .next t → t.Inv := fun v hg => by
    cases hg; exact h.withHost _ _ _
  cases m with
  | wait | awaitDone => cases he; exact h
  | reset => cases he; exact inv_hostReset s
  | start => exact inv_hostStart h he
  | writeOp v | writeArg v | writeInLen v => cases he; exact h.withInputs hp _ _ _ h.inWf
  | writeIn i b => exact inv_hostWriteIn h hp he
  | readIn i => exact inv_hostReadIn h he
  | readOut i => exact inv_hostReadOut h he
  | readPhase | readOp | readArg | readInLen | readOutLen | readStatus | readVstat | readValue | readNbytes => exact get _ he

/-- A step of a running core is the engine's, a RESET or a read of `PHASE` (R286). -/
theorem step_run_cases {s t : State} (hp : s.PHASE = .run) (he : step s = .next t) :
    (∃ moves, engineStep { s with host := moves } = .next t) ∨ (∃ u, t = hostReset u) ∨
    ∃ moves v, t = { s with host := moves, rdata := v } := by
  cases hh : s.host with
  | nil =>
    rw [step_run hp hh] at he
    exact .inl ⟨s.host, he⟩
  | cons m rest =>
    rw [step_run_move hp hh] at he
    cases m with
    | wait => exact .inl ⟨rest, he⟩
    | awaitDone => exact .inl ⟨s.host, he⟩
    | reset => cases he; exact .inr (.inl ⟨_, rfl⟩)
    | readPhase => cases he; exact .inr (.inr ⟨rest, _, rfl⟩)
    | _ => cases he

/-- Settles O45: a step of a running core is the engine's (`inv_engineStep`, by stage), a RESET or a read of `PHASE`; outside
RUN it is the host's move (`inv_hostMoveIdle`). -/
theorem stepKeepsInvariant : Obligations.StepKeepsInvariant := by
  intro s t h he
  by_cases hp : s.PHASE = .run
  · rcases step_run_cases hp he with ⟨moves, he⟩ | ⟨u, rfl⟩ | ⟨moves, v, rfl⟩
    · exact inv_engineStep (h.withHost moves s.rdata s.draws) hp he
    · exact inv_hostReset u
    · exact h.withHost moves v s.draws
  · cases hh : s.host with
    | nil =>
      rw [step_rest hp hh] at he; cases he; exact h
    | cons m rest =>
      rw [step_idle_move hp hh] at he
      exact inv_hostMoveIdle (h.withHost rest s.rdata s.draws) hp he

end Sys2Proof.Machine
end

section
/-! What the emitting operations write, and where the model refuses them for want of room (R31, R93, R136, R139, R191 to
R204). -/

namespace Sys2Proof.Machine

/-! ## The varint of a value in OUT (R93, R136) -/

/-- A varint of `v` written from `OUT[0]` on: its bytes are read back, and no cell above it changes. -/
theorem read_putuvarintBytes (m : Memory) (v : Word64) :
    (∃ rd : Nat → Byte, IsVarint rd (putuvarintBytes v).length ∧ groupsValue rd (putuvarintBytes v).length = v.toNat ∧
      ∀ i, i < (putuvarintBytes v).length → Store.read (Store.writeList m 0 (putuvarintBytes v)) i = some (rd i)) ∧
    ∀ a, (putuvarintBytes v).length ≤ a → Store.read (Store.writeList m 0 (putuvarintBytes v)) a = Store.read m a := by
  obtain ⟨hv, hg, -, -⟩ := putuvarintBytes_spec v
  refine ⟨⟨listByte (putuvarintBytes v), hv, hg, fun i hi => ?_⟩, fun a ha => ?_⟩
  · rw [read_writeList, if_pos (by omega), Nat.sub_zero, List.getElem?_eq_getElem hi]
    unfold listByte
    rw [List.getD_eq_getElem _ _ hi]
  · rw [read_writeList, if_neg (by omega)]

theorem putuvarintBytes_ne_nil (v : Word64) : putuvarintBytes v ≠ [] := fun h => by
  have := (putuvarintBytes_spec v).1.pos
  rw [h] at this; exact absurd this (by decide)

/-- A value of `7·c` bits or more needs more than `c` bytes. -/
theorem lt_putuvarintBytes_length {v : Word64} {c : Nat} (h : c = 0 ∨ 2 ^ (7 * c) ≤ v.toNat) :
    c < (putuvarintBytes v).length := by
  obtain ⟨hv, -, -, hlt⟩ := putuvarintBytes_spec v
  rcases h with rfl | h
  · exact hv.pos
  · by_contra hc
    have : 2 ^ (7 * (putuvarintBytes v).length) ≤ 2 ^ (7 * c) := Nat.pow_le_pow_right (by omega) (by omega)
    omega

/-- Settles O17: `k` is the length of what the encoder emits (`putuvarintBytes_spec`), the end state is `putuvarintDone`. -/
theorem putuvarintEmitsShortestVarint : Obligations.PutuvarintEmitsShortestVarint := by
  intro s
  obtain ⟨hv, -, hshort, hlt⟩ := putuvarintBytes_spec s.ARG
  obtain ⟨hread, hkeep⟩ := read_putuvarintBytes s.OUT s.ARG
  exact ⟨(putuvarintBytes s.ARG).length, hv.pos, hv.short, hshort, hlt, fun hf =>
    ⟨putuvarintDone s, execPutuvarint_next hf, putuvarintDone_outLen s, hread, hkeep, rfl⟩⟩

/-! ## The start of a scan (R191 to R196) -/

theorem afterHeader_short {s : State} (h : s.N ≤ Config.shortInputMax) : afterHeader s = shortInput s := if_pos h

theorem afterHeader_long {s : State} (h : Config.shortInputMax < s.N) : afterHeader s = .go (startScan s) :=
  if_neg (Nat.not_le_of_lt h)

/-- Settles O35: the first step is `compressBegin_go`, its header the varint of `IN_LEN` (`headerBytes_eq`), its end state
`startScan (headerEmitted s)`. -/
theorem compressStartsScan : Obligations.CompressStartsScan := by
  intro s hst hl hm
  obtain ⟨hv, -, hshort, hlt⟩ := putuvarintBytes_spec s.IN_LEN
  obtain ⟨hread, hkeep⟩ := read_putuvarintBytes s.OUT s.IN_LEN
  rw [← headerBytes_eq] at *
  refine ⟨(headerBytes s).length, hv.pos, headerBytes_length_le hm, hshort, hlt, fun hf => ?_⟩
  have hex : exec .compress s = .next (startScan (headerEmitted s)) := by
    rw [execCompress_begin (by rw [hst]; rintro ⟨⟩), compressBegin_go hm hf,
      afterHeader_long (s := headerEmitted s) hl]; rfl
  refine ⟨startScan (headerEmitted s), hex, hread, hkeep, rfl, fun i hi => ?_, fun i hi => ?_, rfl⟩
  · exact (read_clearBelow _ _ _).trans (if_pos hi)
  · exact (read_clearBelow _ _ _).trans (if_neg (Nat.not_lt_of_le hi))

/-! ## A hit (R197 to R203) -/

/-- The hit test after the lookup, in terms of the bucket's entry and the bytes (R198, R199). -/
theorem hitCandidate_lookup {s : State} {p : Word32} (hs : 18 ≤ s.SHIFT) (hp : s.readTable (bucketAt s) = some p)
    (hd : s.CS - p.toNat < 32768) (h4 : ∀ j, j < 4 → s.readIn (p.toNat + j) = s.readIn (s.CS + j)) :
    hitCandidate (lookup s) = some p.toNat :=
  hitCandidate_some ((lookup_CAND_eq hs).trans hp) hd ((readIn32_eq_iff s p.toNat s.CS).mpr h4)

/-- Settles O39: the step is `scanStep_hit`, its end state `hitDone`, whose bytes are `hitOutput` of the match length
(`MatchLength.hitBytes_eq`). -/
theorem scanHitEmitsLiteralAndMatch : Obligations.ScanHitEmitsLiteralAndMatch := by
  intro s p hst hlt hN hs _ hp _ hd h4
  have hc := hitCandidate_lookup hs hp hd h4
  obtain ⟨len, hm⟩ := exists_matchLength hlt h4
  refine ⟨len, hitOutput p.toNat len s, hm, rfl, fun hf => ?_⟩
  rw [← hm.hitBytes_eq] at hf ⊢
  have hgo : exec .compress s = .next (hitDone p.toNat s) := by
    rw [execCompress_step hst hlt, scanStep_hit hc (by omega) (by rw [hm.matchEnd_eq]; dsimp only; omega) hf]; rfl
  refine ⟨hitDone p.toNat s, hgo, fun a => ?_, readIn32_toNat s s.CS, lookup_IDX_toNat hs, (lookup_CAND_eq hs).trans hp, ?_,
    fun i hi => ?_, ?_⟩
  · exact read_writeList s.OUT s.W a (hitBytes p.toNat s)
  · exact (lookup_readTable hs _).trans (if_pos rfl)
  · exact (lookup_readTable hs i).trans (if_neg hi)
  · have hend := hm.matchEnd_eq
    unfold hitDone
    rw [hend]

/-! ## Refusals for want of room (R31) -/

theorem fits_some_eq_false {cap : Option Nat} {c n : Nat} (hc : cap = some c) (h : c < n) : Capacity.fits cap n = false := by
  subst hc; exact decide_eq_false (Nat.not_le_of_lt h)

theorem putuvarint_refuse {v : Word64} {s : State}
    (h : Capacity.fits s.caps.outCap (s.W + (putuvarintBytes v).length) = false) :
    putuvarint v s = .refuse .outCapacity := by
  unfold putuvarint
  rw [emitAll_refuse (s := { s with PV := v }) (putuvarintBytes_ne_nil v) h]; rfl

theorem execPutuvarint_refused {s : State} (h : Capacity.fits s.caps.outCap (putuvarintBytes s.ARG).length = false) :
    exec .putuvarint s = .refused .outCapacity := by
  show execPutuvarint s = _
  unfold execPutuvarint
  rw [putuvarint_refuse (s := { s with W := 0 }) (by show Capacity.fits _ (0 + _) = false; rwa [Nat.zero_add])]; rfl

/-- The first step of `COMPRESS` is refused when the header does not fit. -/
theorem compressBegin_refuse {s : State} (hm : s.IN_LEN.toNat ≤ Config.maxInputLen)
    (h : Capacity.fits s.caps.outCap (headerBytes s).length = false) : compressBegin s = .refuse .outCapacity := by
  unfold compressBegin
  dsimp only
  rw [if_neg (Nat.not_lt_of_le hm), putuvarint_refuse (s := { s with N := s.IN_LEN.toNat, W := 0 })
    (by show Capacity.fits _ (0 + (headerBytes s).length) = false; rwa [Nat.zero_add])]; rfl

/-- A short input is refused when its literal does not fit. -/
theorem shortInput_refuse {s : State} (h0 : s.N ≠ 0) (hl : s.N ≤ Config.shortInputMax)
    (h : Capacity.fits s.caps.outCap (s.W + (shortBytes s).length) = false) : shortInput s = .refuse .outCapacity := by
  have hne : literalHead (s.N - 1) ++ s.inBytes 0 s.N ≠ [] := fun e => by
    have := (literalHead_length (s.N - 1)).1
    rw [(List.append_eq_nil_iff.mp e).1] at this; exact absurd this (by decide)
  simp only [Config.shortInputMax] at hl
  unfold shortBytes at h
  rw [if_neg h0] at h
  unfold shortInput emitLiteral
  rw [if_pos h0, if_pos (by omega), emitAll_refuse hne h]; rfl

/-- A short input's header is one byte and its literal's head another (R193). -/
theorem shortInput_length {s : State} (h1 : 1 ≤ s.IN_LEN.toNat) (h4 : s.IN_LEN.toNat ≤ 4) :
    (headerEmitted s).W + (shortBytes (headerEmitted s)).length = s.IN_LEN.toNat + 2 := by
  have hhead : (headerBytes s).length = 1 := by
    rw [headerBytes_eq]
    obtain ⟨hv, -, h | h, -⟩ := putuvarintBytes_spec s.IN_LEN
    · exact h
    · by_contra hne
      have hpos := hv.pos
      have : 2 ^ 7 ≤ 2 ^ (7 * ((putuvarintBytes s.IN_LEN).length - 1)) := Nat.pow_le_pow_right (by omega) (by omega)
      omega
  have hlit : (shortBytes (headerEmitted s)).length = 1 + s.IN_LEN.toNat := by
    show (if s.IN_LEN.toNat = 0 then [] else literalHead (s.IN_LEN.toNat - 1) ++ (headerEmitted s).inBytes 0 _).length = _
    unfold literalHead
    rw [if_neg (by omega), if_pos (by omega), List.length_append, inBytes_length]; rfl
  rw [hlit]
  show (headerBytes s).length + _ = _
  omega

theorem headerStep_refused {s : State} {c k : Nat} (hc : s.caps.outCap = some c) (hv : IsVarint s.readIn k)
    (hk : k ≤ s.IN_LEN.toNat) (hm : groupsValue s.readIn k ≤ 0x7fffffff) (hlt : c < groupsValue s.readIn k) :
    headerStep s = .refused .outCapacity := by
  obtain ⟨v, hval, hr⟩ := uvarintLoop_ok hv hk
  rw [headerStep_of_ok (s := s) hr, if_neg (by rw [hval]; exact Nat.not_lt_of_le hm), hval, fits_some_eq_false hc hlt]; rfl

theorem firstStep_refused {s : State} {c : Nat} (hc : s.caps.outCap = some c) (hst : s.stage = .begin)
    (hm : s.IN_LEN.toNat ≤ 0xffffffff)
    (h : c = 0 ∨ 2 ^ (7 * c) ≤ s.IN_LEN.toNat ∨
      (1 ≤ s.IN_LEN.toNat ∧ s.IN_LEN.toNat ≤ 4 ∧ c < s.IN_LEN.toNat + 2)) :
    exec .compress s = .refused .outCapacity := by
  rw [execCompress_begin (by rw [hst]; rintro ⟨⟩)]
  suffices hb : compressBegin s = .refuse .outCapacity by rw [hb]; rfl
  cases hf : Capacity.fits s.caps.outCap (headerBytes s).length with
  | false => exact compressBegin_refuse hm hf
  | true =>
    have hroom : (headerBytes s).length ≤ c := by rw [hc] at hf; exact of_decide_eq_true hf
    rw [headerBytes_eq] at hroom
    obtain h1 | ⟨h1, h4, hlt⟩ : (c = 0 ∨ 2 ^ (7 * c) ≤ s.IN_LEN.toNat) ∨ _ := or_assoc.mpr h
    · exact absurd (lt_putuvarintBytes_length h1) (Nat.not_lt_of_le hroom)
    · rw [compressBegin_go hm hf, afterHeader_short (s := headerEmitted s) h4]
      exact shortInput_refuse (s := headerEmitted s) (Nat.ne_of_gt h1) h4
        (by rw [shortInput_length h1 h4]; exact fits_some_eq_false hc hlt)

theorem hit_refused {s : State} {c len : Nat} {p : Word32} (hc : s.caps.outCap = some c) (hst : s.stage = .scan)
    (hlt : s.CS + 3 < s.N) (hN : s.N ≤ 0xffffffff) (hs : 18 ≤ s.SHIFT) (hp : s.readTable (bucketAt s) = some p)
    (hd : s.CS - p.toNat < 32768) (hm : MatchLength s p.toNat len) (hroom : c < s.W + (hitOutput p.toNat len s).length) :
    exec .compress s = .refused .outCapacity := by
  have h4 : 4 ≤ len := hm.min
  have hcand := hitCandidate_lookup hs hp hd fun j hj => hm.equal j (by omega)
  have hr := scanStep_refuse hcand (by omega) (by rw [hm.matchEnd_eq]; dsimp only; omega)
    (copyBytes_ne_nil _ (by rw [hm.matchEnd_eq]; dsimp only; omega))
    (by rw [hm.hitBytes_eq]; exact fits_some_eq_false hc hroom)
  rw [execCompress_step hst hlt, hr]; rfl

/-- A part of `COMPRESS` that keeps to its room does so in its outcome too, where it raises with the cursor unmoved. -/
theorem KeepsRoom.outcome {f : State → Flow} (hf : KeepsRoom f) {s t : State} {c : Nat} (hc : s.caps.outCap = some c)
    (hw : s.W ≤ c) (hr : ∀ k u, f s = .raised k u → u.W = s.W) (h : (f s).outcome = .next t) : t.W ≤ c := by
  rcases outcome_eq_next h with h1 | ⟨k, u, h1, rfl⟩
  · exact (hf s t c h1 hc hw).1
  · rw [raise_W, hr k u h1]; exact hw

/-- No step of `COMPRESS` passes the capacity. -/
theorem execCompress_keepsRoom {s t : State} {c : Nat} (hc : s.caps.outCap = some c) (hw : s.W ≤ c)
    (h : exec .compress s = .next t) : t.W ≤ c := by
  by_cases hst : s.stage = .scan
  · by_cases hlt : s.CS + 3 < s.N
    · rw [execCompress_step hst hlt] at h
      refine keepsRoom_scanStep.outcome hc hw (fun k u hu => ?_) h
      rcases scanStep_cases s with ⟨-, h1⟩ | ⟨p, -, h1 | ⟨-, h1⟩ | ⟨r, h1⟩⟩ <;> rw [h1] at hu <;> cases hu
      rfl
    · rw [execCompress_end hst hlt] at h
      refine keepsRoom_finishScan.outcome hc hw (fun k u hu => ?_) h
      rcases finishScan_cases s with h1 | ⟨-, h1⟩ | h1 <;> rw [h1] at hu <;> cases hu
      rfl
  · rw [execCompress_begin hst] at h
    refine keepsRoom_compressBegin.outcome hc hw (fun k u hu => ?_) h
    rcases compressBegin_cases s with ⟨-, h1⟩ | ⟨-, h1⟩ | ⟨-, -, h1⟩ | ⟨-, h1⟩ <;> rw [h1] at hu <;> cases hu
    rfl

/-- Settles O13: one refusal lemma for each place R31 names, and `execCompress_keepsRoom` for the last clause. -/
theorem outputBeyondCapacityIsRefused : Obligations.OutputBeyondCapacityIsRefused := by
  intro s c hc
  refine ⟨fun k hst hv hk hm hlt => ?_, fun h => ?_, firstStep_refused hc, fun p len hst hlt hN hs hp _ hd hm hroom => ?_,
    fun hst hend hlit hN hroom => ?_, fun t hw => execCompress_keepsRoom hc hw⟩
  · rw [execDecompress_header (by rw [hst]; rintro ⟨⟩)]
    exact headerStep_refused hc hv hk hm hlt
  · exact execPutuvarint_refused (fits_some_eq_false hc (lt_putuvarintBytes_length h))
  · exact hit_refused hc hst hlt hN hs hp hd hm hroom
  · rw [execCompress_end hst (Nat.not_lt_of_le hend),
      finishScan_refuse (Nat.ne_of_lt hlit) (by omega) (fits_some_eq_false hc hroom)]; rfl

end Sys2Proof.Machine
end

section
/-! One step, by what has it: the engine's instruction (R22, R150, R152, R165, R196), RESET (R40, R280), START (R25, R31), and
the host's reads and writes outside RUN (R21, R23, R26 to R28). -/

namespace Sys2Proof.Machine

/-! ## The engine's instruction -/

/-- The engine's step at a chunk runs what the rest of the block decodes to (R152). -/
theorem engineStep_decoded {s : State} {i : Instr} {rest : List Byte} (hst : s.stage = .chunks) (hs : s.S < s.IN_LEN.toNat)
    (hd : decodeChunk (s.inBytes s.S (s.IN_LEN.toNat - s.S)) = .ok i rest) : engineStep s = exec i (fetchChunk s) := by
  rw [decodeChunk_block hs] at hd
  split at hd
  · cases hd; exact engineStep_chunk hst hs
  · cases hd

/-- Where the rest of the block is too short for its chunk the engine's step raises Corrupt (R154 to R157, R160, R161). -/
theorem engineStep_rejected {s : State} {e : DecodeError} (hst : s.stage = .chunks) (hs : s.S < s.IN_LEN.toNat)
    (hd : decodeChunk (s.inBytes s.S (s.IN_LEN.toNat - s.S)) = .reject e) :
    engineStep s = .next (raise .corrupt (fetchChunk s)) := by
  rw [decodeChunk_block hs] at hd
  split at hd
  · cases hd
  · next hshort =>
    rw [engineStep_chunk hst hs]
    exact exec_truncated (by omega) (Nat.lt_of_not_le hshort)

theorem engineStep_chunks {s : State} (hst : s.stage = .chunks) : engineStep s = exec .decompress s := by
  by_cases hs : s.S < s.IN_LEN.toNat
  · rw [engineStep_chunk hst hs, execDecompress_chunk hst hs]
  · rw [engineStep_end hst hs, execDecompress_end hst hs]

/-- Settles O6: with a silent host the step is the engine's (`step_run`), which the stage decides. -/
theorem stepRunsDecodedInstruction : Obligations.StepRunsDecodedInstruction := by
  intro s hp hh
  rw [step_run hp hh]
  exact ⟨fun hst hs => ⟨fun _ _ => engineStep_decoded hst hs, fun _ => engineStep_rejected hst hs⟩, engineStep_chunks,
    engineStep_begin, engineStep_scan⟩

/-! ## RESET -/

/-- A RESET takes its step whatever the phase (R25, R280). -/
theorem step_reset {s : State} {rest : List HostMove} (hh : s.host = .reset :: rest) :
    step s = .next (hostReset { s with host := rest }) := by
  by_cases hp : s.PHASE = .run
  · rw [step_run_move hp hh]; rfl
  · rw [step_idle_move hp hh]; rfl

/-- Settles O7: RESET is `step_reset`, and a core at rest stays as it is (`step_rest`). -/
theorem resetLeavesHostRegistersZero : Obligations.ResetLeavesHostRegistersZero := by
  refine ⟨fun s rest hh => ⟨_, step_reset hh, ?_⟩, ?_, fun s hp hh => step_rest hp hh⟩
  · exact ⟨rfl, rfl, rfl, rfl, rfl, rfl, rfl, rfl, rfl, fun _ => rfl, fun _ => rfl, rfl, rfl⟩
  · exact ⟨rfl, rfl, rfl, rfl, rfl, rfl, rfl, rfl, rfl, fun _ => rfl⟩

/-! ## START -/

theorem fits_of_le {cap : Option Nat} {n : Nat} (h : ∀ c, cap = some c → n ≤ c) : Capacity.fits cap n = true := by
  cases cap with
  | none => rfl
  | some c => exact decide_eq_true (h c rfl)

theorem hostStart_next {s : State} (h : Capacity.fits s.caps.inCap s.IN_LEN.toNat = true) :
    hostStart s = .next (startUnit (clearResults s)) := if_pos h

theorem hostStart_refused {s : State} (h : Capacity.fits s.caps.inCap s.IN_LEN.toNat = false) :
    hostStart s = .refused .inCapacity := if_neg (by rw [h]; decide)

/-- The start values START sets, by the operation (R41 to R43). -/
theorem startUnit_values (s : State) :
    (s.OP = 0 → (startUnit s).D = 0 ∧ (startUnit s).ACC = 0 ∧ (startUnit s).SH = 0 ∧ (startUnit s).VI = 0) ∧
    (s.OP = 1 → (startUnit s).W = 0 ∧ (startUnit s).N = s.IN_LEN.toNat) ∧
    (s.OP = 2 → (startUnit s).ACC = 0 ∧ (startUnit s).SH = 0 ∧ (startUnit s).VI = 0) ∧
    (s.OP = 3 → (startUnit s).W = 0 ∧ (startUnit s).PV = s.ARG) := by
  unfold startUnit
  refine ⟨?_, ?_, ?_, ?_⟩ <;> intro h <;> simp [h]

/-- Settles O8: refused during RUN and for want of room, and otherwise `hostStart_next`, whose registers are
`startUnit_clearResults_eq` and `startUnit_values`. -/
theorem startClearsResultsAndRuns : Obligations.StartClearsResultsAndRuns := by
  intro s rest hh
  refine ⟨fun hp => ?_, fun hp ⟨c, hc, hlt⟩ => ?_, fun hp hroom => ?_⟩
  · rw [step_run_move hp hh]; rfl
  · rw [step_idle_move hp hh]
    exact hostStart_refused (s := { s with host := rest }) (fits_some_eq_false hc hlt)
  · refine ⟨startUnit (clearResults { s with host := rest }), ?_, ?_⟩
    · rw [step_idle_move hp hh]
      exact hostStart_next (s := { s with host := rest }) (fits_of_le hroom)
    · have hu := startUnit_clearResults_eq { s with host := rest }
      obtain ⟨h0, h1, h2, h3⟩ := startUnit_values (clearResults { s with host := rest })
      refine ⟨?_, ?_, ?_, ?_, ?_, ?_, ?_, ?_, ?_, ?_, ?_, ?_, ?_, ?_, h0, h1, h2, h3⟩
      all_goals rw [hu]
      all_goals intros; rfl

/-! ## Reads and writes outside RUN -/

/-- A host write of `IN[i]` is read back, and no other byte changes (R26, R69). -/
theorem readIn_write_same (s : State) (i : Nat) (b : Byte) : ({ s with IN := Store.write s.IN i b } : State).readIn i = b := by
  unfold State.readIn
  dsimp only
  rw [read_write_same]

theorem readIn_write_other (s : State) {i j : Nat} (b : Byte) (h : j ≠ i) :
    ({ s with IN := Store.write s.IN i b } : State).readIn j = s.readIn j := by
  unfold State.readIn
  dsimp only
  rw [read_write_other _ _ h]

section
variable {s : State} {i : Nat}

theorem hostReadOut_defined {b : Byte} (hc : s.caps.outCap = none) (hi : i < s.OUT_LEN.toNat)
    (hb : Store.read s.OUT i = some b) : hostReadOut i s = .next { s with rdata := b.zext64 } := by
  unfold hostReadOut
  rw [hc, fits_none, if_pos rfl, if_pos hi, readOut_defined hb]; rfl

theorem hostReadOut_beyond (hc : s.caps.outCap = none) (hi : s.OUT_LEN.toNat ≤ i) :
    hostReadOut i s = .next { s with rdata := (Config.freeByte s.draws).zext64, draws := s.draws + 1 } := by
  unfold hostReadOut
  rw [hc, fits_none, if_pos rfl, if_neg (Nat.not_lt_of_le hi)]; rfl

theorem hostWriteIn_next (b : Byte) (hc : s.caps.inCap = none) :
    hostWriteIn i b s = .next { s with IN := Store.write s.IN i b } := by
  unfold hostWriteIn
  rw [hc, fits_none, if_pos rfl]

theorem hostReadIn_next (hc : s.caps.inCap = none) :
    hostReadIn i s = .next { s with rdata := (s.readIn i).zext64 } := by
  unfold hostReadIn
  rw [hc, fits_none, if_pos rfl]; rfl

end

/-- Settles O10: outside RUN the move is the step (`step_idle_move`), and with unbounded buffers every index exists. -/
theorem hostAccessOutsideRun : Obligations.HostAccessOutsideRun := by
  intro s m rest hp hh hic hoc
  rw [step_idle_move hp hh]
  refine ⟨?_, ?_, ?_, ?_, ?_, ?_, ?_⟩
  · rintro i b rfl hi hb
    exact hostReadOut_defined (s := { s with host := rest }) hoc hi hb
  · rintro i rfl hi
    exact hostReadOut_beyond (s := { s with host := rest }) hoc hi
  · rintro i b rfl
    exact ⟨_, hostWriteIn_next (s := { s with host := rest }) b hic, rfl, readIn_write_same { s with host := rest } i b,
      fun _ hj => readIn_write_other { s with host := rest } b hj⟩
  · rintro i rfl
    exact hostReadIn_next (s := { s with host := rest }) hic
  · rintro v rfl; rfl
  · rintro v rfl; rfl
  · rintro v rfl; rfl

/-- A 64-bit register is read as it stands (R26). -/
theorem hostGet_word (v : Word64) (s : State) : hostGet v s = .next { s with rdata := v } := by
  unfold hostGet; rw [BitVec.setWidth_eq]

/-- A narrower register is read with its value. -/
theorem hostGet_toNat {w : Nat} (hw : w ≤ 64) (v : BitVec w) (s : State) :
    ∃ t, hostGet v s = .next t ∧ t = { s with rdata := t.rdata } ∧ t.rdata.toNat = v.toNat :=
  ⟨_, rfl, rfl, BitVec.toNat_setWidth_of_le hw⟩

/-- Settles O11: every read is `hostGet` of the register, or of its code. -/
theorem hostReadsResultCodes : Obligations.HostReadsResultCodes := by
  intro s m rest hp hh
  rw [step_idle_move hp hh]
  refine ⟨?_, ?_, ?_, ?_, ?_, ?_, ?_, ?_, ?_⟩
  · rintro rfl
    refine ⟨_, rfl, rfl, ?_, ?_, ?_, ?_, ?_⟩ <;> intro h <;> show s.STATUS.code.setWidth 64 = _ <;> rw [h] <;> rfl
  · rintro rfl
    refine ⟨_, rfl, rfl, ?_, ?_, ?_⟩ <;> intro h <;> show s.VSTAT.code.setWidth 64 = _ <;> rw [h] <;> rfl
  · rintro rfl
    refine ⟨_, rfl, rfl, ?_, ?_⟩ <;> intro h <;> show s.PHASE.code.setWidth 64 = _ <;> rw [h] <;> rfl
  · rintro rfl; exact hostGet_word _ _
  · rintro rfl; exact hostGet_word _ _
  · rintro rfl; exact hostGet_toNat (by decide) s.NBYTES { s with host := rest }
  · rintro rfl; exact hostGet_toNat (by decide) s.OP { s with host := rest }
  · rintro rfl; exact hostGet_word _ _
  · rintro rfl; exact hostGet_word _ _

end Sys2Proof.Machine
end

section
/-! Two cores with the same input (R8, R45): what each part of an operation reads of a state, said as an equation between its
results on two states; then that a step of one core is matched by a step of the other. -/

namespace Sys2Proof.Machine

/-! ## What the host sees, and what a running operation uses -/

/-- The inputs of an operation are the same, and no host acts on either core (R45). -/
structure SameInput (s₁ s₂ : State) : Prop where
  op     : s₁.OP = s₂.OP
  arg    : s₁.ARG = s₂.ARG
  inLen  : s₁.IN_LEN = s₂.IN_LEN
  caps   : s₁.caps = s₂.caps
  bytes  : ∀ i, i < s₁.IN_LEN.toNat → s₁.readIn i = s₂.readIn i
  host₁  : s₁.host = []
  host₂  : s₂.host = []

/-- Two scans stand at the same place, with the same entries in the part of the table they use. -/
structure SameScan (s₁ s₂ : State) : Prop where
  inv₁  : ScanInv s₁
  inv₂  : ScanInv s₂
  w     : s₁.W = s₂.W
  cs    : s₁.CS = s₂.CS
  lit   : s₁.LIT = s₂.LIT
  table : ∀ i, i < s₁.TSIZE → s₁.readTable i = s₂.readTable i

/-- The results the host can see are the same; and while the operation runs, so is what its coming steps use. -/
structure SameWork (s₁ s₂ : State) : Prop where
  phase  : s₁.PHASE = s₂.PHASE
  status : s₁.STATUS = s₂.STATUS
  vstat  : s₁.VSTAT = s₂.VSTAT
  value  : s₁.VALUE = s₂.VALUE
  nbytes : s₁.NBYTES = s₂.NBYTES
  outLen : s₁.OUT_LEN = s₂.OUT_LEN
  out    : s₁.OUT = s₂.OUT
  draws  : s₁.draws = s₂.draws
  stage  : s₁.stage = s₂.stage
  begun  : s₁.PHASE = .run → s₁.stage = .begin → s₁.OUT = []
  chunks : s₁.PHASE = .run → s₁.stage = .chunks → s₁.S = s₂.S ∧ s₁.D = s₂.D ∧ s₁.DLEN = s₂.DLEN
  scan   : s₁.PHASE = .run → s₁.stage = .scan → SameScan s₁ s₂

/-- Two outcomes of a step: both next states with the same work, or the same refusal. -/
inductive Alike : Host.Outcome State Fault Refusal → Host.Outcome State Fault Refusal → Prop
  | next {t₁ t₂ : State} (h : SameWork t₁ t₂) : Alike (.next t₁) (.next t₂)
  | refused (r : Refusal) : Alike (.refused r) (.refused r)

theorem SameWork.hostView {s₁ s₂ : State} (h : SameWork s₁ s₂) : s₁.hostView = s₂.hostView := by
  unfold State.hostView
  rw [h.phase, h.status, h.vstat, h.value, h.nbytes, h.outLen, h.out]

/-- Once both operations have ended only the results count. -/
theorem sameWork_of_done {s₁ s₂ : State} (p₁ : s₁.PHASE = .done) (p₂ : s₂.PHASE = .done) (hs : s₁.STATUS = s₂.STATUS)
    (hv : s₁.VSTAT = s₂.VSTAT ∧ s₁.VALUE = s₂.VALUE ∧ s₁.NBYTES = s₂.NBYTES)
    (ho : s₁.OUT_LEN = s₂.OUT_LEN ∧ s₁.OUT = s₂.OUT) (hd : s₁.draws = s₂.draws) (hst : s₁.stage = s₂.stage) :
    SameWork s₁ s₂ where
  phase := p₁.trans p₂.symm
  status := hs
  vstat := hv.1
  value := hv.2.1
  nbytes := hv.2.2
  outLen := ho.1
  out := ho.2
  draws := hd
  stage := hst
  begun := fun hr => by rw [p₁] at hr; cases hr
  chunks := fun hr => by rw [p₁] at hr; cases hr
  scan := fun hr => by rw [p₁] at hr; cases hr

/-- An error shows the same on both cores, if the varint outputs do (R250). -/
theorem sameWork_raise {s₁ s₂ : State} (k : ErrKind)
    (hv : s₁.VSTAT = s₂.VSTAT ∧ s₁.VALUE = s₂.VALUE ∧ s₁.NBYTES = s₂.NBYTES) (hd : s₁.draws = s₂.draws)
    (hst : s₁.stage = s₂.stage) : SameWork (raise k s₁) (raise k s₂) :=
  sameWork_of_done rfl rfl rfl hv ⟨rfl, rfl⟩ hd hst

/-! ## What the parts of an operation read of `IN` -/

theorem uvarintLoop_congr {rd rd' : Nat → Byte} {len : Nat} (h : ∀ i, i < len → rd i = rd' i) (fuel : Nat) (acc : Word64)
    (sh : Nat) {vi : Nat} (hv : vi ≤ len) : uvarintLoop rd len fuel acc sh vi = uvarintLoop rd' len fuel acc sh vi := by
  induction fuel generalizing acc sh vi with
  | zero => rfl
  | succ fuel ih =>
    rw [uvarintLoop, uvarintLoop]
    by_cases hl : vi = len
    · rw [if_pos hl, if_pos hl]
    · rw [h vi (by omega), ih _ _ (by omega)]

theorem extendLoop_congr {rd rd' : Nat → Byte} {n : Nat} (h : ∀ i, i < n → rd i = rd' i) (fuel : Nat) {cs ct : Nat}
    (hc : ct ≤ cs) : extendLoop rd n fuel cs ct = extendLoop rd' n fuel cs ct := by
  induction fuel generalizing cs ct with
  | zero => rfl
  | succ fuel ih =>
    rw [extendLoop, extendLoop]
    by_cases hn : cs < n
    · rw [h cs hn, h ct (by omega), ih (by omega)]
    · rw [if_neg (fun e => hn e.1), if_neg (fun e => hn e.1)]

section
variable {s₁ s₂ : State} (h : SameInput s₁ s₂)
include h

theorem SameInput.uvarintRun_eq : uvarintRun s₁ = uvarintRun s₂ := by
  unfold uvarintRun
  rw [← h.inLen]
  exact uvarintLoop_congr h.bytes 11 0 0 (Nat.zero_le _)

theorem SameInput.inBytes_eq {a n : Nat} (hn : a + n ≤ s₁.IN_LEN.toNat) : s₁.inBytes a n = s₂.inBytes a n := by
  induction n generalizing a with
  | zero => rfl
  | succ n ih => rw [State.inBytes, State.inBytes, h.bytes a (by omega), ih (by omega)]

theorem SameInput.readIn32_eq {a : Nat} (ha : a + 3 < s₁.IN_LEN.toNat) : s₁.readIn32 a = s₂.readIn32 a := by
  unfold State.readIn32
  rw [h.bytes a (by omega), h.bytes (a + 1) (by omega), h.bytes (a + 2) (by omega), h.bytes (a + 3) ha]

theorem SameInput.blockByte_eq (i : Nat) : s₁.blockByte i = s₂.blockByte i := by
  unfold State.blockByte
  rw [← h.inLen]
  by_cases hi : i < s₁.IN_LEN.toNat
  · rw [h.bytes i hi]
  · rw [if_neg hi, if_neg hi]

theorem SameInput.chunkAt_eq (hS : s₁.S = s₂.S) : chunkAt s₁ = chunkAt s₂ := by
  unfold chunkAt
  rw [hS, h.blockByte_eq, h.blockByte_eq, h.blockByte_eq, h.blockByte_eq, h.blockByte_eq]

theorem SameInput.headerBytes_eq : headerBytes s₁ = headerBytes s₂ := by
  unfold headerBytes; rw [h.inLen]

end

/-! ## UVARINT, PUTUVARINT and the header step -/

section
variable {s₁ s₂ : State} (hi : SameInput s₁ s₂) (hw : SameWork s₁ s₂)
include hi hw

theorem alike_uvarint : Alike (exec .uvarint s₁) (exec .uvarint s₂) := by
  show Alike (execUvarint s₁) (execUvarint s₂)
  unfold execUvarint
  rw [hi.uvarintRun_eq]
  dsimp only
  cases (uvarintRun s₂).result with
  | ok v n => exact .next (sameWork_of_done rfl rfl rfl ⟨rfl, rfl, rfl⟩ ⟨rfl, hw.out⟩ hw.draws hw.stage)
  | trunc => exact .next (sameWork_raise _ ⟨rfl, rfl, rfl⟩ hw.draws hw.stage)
  | ovf => exact .next (sameWork_raise _ ⟨rfl, rfl, rfl⟩ hw.draws hw.stage)

theorem alike_putuvarint : Alike (exec .putuvarint s₁) (exec .putuvarint s₂) := by
  cases hf : Capacity.fits s₁.caps.outCap (putuvarintBytes s₁.ARG).length with
  | true =>
    rw [execPutuvarint_next hf, execPutuvarint_next (by rw [← hi.caps, ← hi.arg]; exact hf)]
    refine .next (sameWork_of_done rfl rfl rfl ⟨hw.vstat, hw.value, hw.nbytes⟩ ⟨?_, ?_⟩ hw.draws hw.stage)
    · unfold putuvarintDone; rw [hi.arg]
    · unfold putuvarintDone; rw [hi.arg, hw.out]
  | false =>
    rw [execPutuvarint_refused hf, execPutuvarint_refused (by rw [← hi.caps, ← hi.arg]; exact hf)]
    exact .refused _

theorem alike_headerStep : Alike (headerStep s₁) (headerStep s₂) := by
  have hvstat : (headerRan s₁).VSTAT = (headerRan s₂).VSTAT := by unfold headerRan; rw [hi.uvarintRun_eq]
  have bad : ∀ k, Alike (.next (raise k (headerRan s₁))) (.next (raise k (headerRan s₂))) := fun k =>
    .next (sameWork_raise k ⟨hvstat, hw.value, hw.nbytes⟩ hw.draws hw.stage)
  cases hr : (uvarintRun s₁).result with
  | trunc =>
    rw [headerStep_of_trunc hr, headerStep_of_trunc (by rw [← hi.uvarintRun_eq]; exact hr)]
    exact bad _
  | ovf =>
    rw [headerStep_of_ovf hr, headerStep_of_ovf (by rw [← hi.uvarintRun_eq]; exact hr)]
    exact bad _
  | ok v n =>
    rw [headerStep_of_ok hr, headerStep_of_ok (by rw [← hi.uvarintRun_eq]; exact hr), hi.caps]
    split
    · exact bad _
    · split
      · exact .next {
          phase := hw.phase, status := hw.status, vstat := hvstat, value := hw.value, nbytes := hw.nbytes
          outLen := hw.outLen, out := rfl, draws := hw.draws, stage := rfl
          begun := by rintro - ⟨⟩
          chunks := fun _ _ => ⟨rfl, rfl, rfl⟩
          scan := by rintro - ⟨⟩ }
      · exact .refused _

end

/-! ## The chunks -/

/-- Two cores stand before the same chunk of the same block. -/
structure SameChunks (s₁ s₂ : State) : Prop where
  input : SameInput s₁ s₂
  work  : SameWork s₁ s₂
  s     : s₁.S = s₂.S
  d     : s₁.D = s₂.D
  dlen  : s₁.DLEN = s₂.DLEN
  stage : s₁.stage = .chunks

/-- A chunk that goes on on both cores, with the same cursors and cells. -/
theorem SameChunks.advance {s₁ s₂ t₁ t₂ : State} (h : SameChunks s₁ s₂)
    (h₁ : t₁ = { s₁ with S := t₁.S, D := t₁.D, B := t₁.B, TAG := t₁.TAG, M := t₁.M, X := t₁.X, LEN := t₁.LEN
                         OFF := t₁.OFF, OUT := t₁.OUT, draws := t₁.draws })
    (h₂ : t₂ = { s₂ with S := t₂.S, D := t₂.D, B := t₂.B, TAG := t₂.TAG, M := t₂.M, X := t₂.X, LEN := t₂.LEN
                         OFF := t₂.OFF, OUT := t₂.OUT, draws := t₂.draws })
    (hS : t₁.S = t₂.S) (hD : t₁.D = t₂.D) (hO : t₁.OUT = t₂.OUT) (hd : t₁.draws = t₂.draws) : SameWork t₁ t₂ where
  phase := by rw [h₁, h₂]; exact h.work.phase
  status := by rw [h₁, h₂]; exact h.work.status
  vstat := by rw [h₁, h₂]; exact h.work.vstat
  value := by rw [h₁, h₂]; exact h.work.value
  nbytes := by rw [h₁, h₂]; exact h.work.nbytes
  outLen := by rw [h₁, h₂]; exact h.work.outLen
  out := hO
  draws := hd
  stage := by rw [h₁, h₂]; exact h.work.stage
  begun := fun _ hb => by rw [h₁] at hb; exact absurd (h.stage.symm.trans hb) (by rintro ⟨⟩)
  chunks := fun _ _ => ⟨hS, hD, by rw [h₁, h₂]; exact h.dlen⟩
  scan := fun _ hb => by rw [h₁] at hb; exact absurd (h.stage.symm.trans hb) (by rintro ⟨⟩)

/-- The fetch keeps two cores before the same chunk (R152). -/
theorem SameChunks.fetch {s₁ s₂ : State} (h : SameChunks s₁ s₂) : SameChunks (fetchChunk s₁) (fetchChunk s₂) where
  input := ⟨h.input.op, h.input.arg, h.input.inLen, h.input.caps, h.input.bytes, h.input.host₁, h.input.host₂⟩
  work := h.advance rfl rfl h.s h.d h.work.out h.work.draws
  s := h.s
  d := h.d
  dlen := h.dlen
  stage := h.stage

/-- The copy engine reads `OUT`, `D` and the draws to come (R162, R163). -/
theorem copyLoop_congr {s₁ s₂ : State} (off n : Nat) (hO : s₁.OUT = s₂.OUT) (hD : s₁.D = s₂.D) (hd : s₁.draws = s₂.draws) :
    (copyLoop off n s₁).OUT = (copyLoop off n s₂).OUT ∧ (copyLoop off n s₁).draws = (copyLoop off n s₂).draws := by
  induction n generalizing s₁ s₂ with
  | zero => exact ⟨hO, hd⟩
  | succ n ih =>
    rw [copyLoop, copyLoop]
    cases hr : Store.read s₁.OUT (s₁.D - off) with
    | some b =>
      rw [readOut_defined hr, readOut_defined (by rw [← hO, ← hD]; exact hr)]
      exact ih (by simp only [pushOut_OUT]; rw [hO, hD]) (by simp only [pushOut_D]; rw [hD]) hd
    | none =>
      rw [readOut_undefined hr, readOut_undefined (by rw [← hO, ← hD]; exact hr)]
      have hb : s₁.draw.1 = s₂.draw.1 := by unfold State.draw; rw [hd]
      exact ih (by simp only [pushOut_OUT, draw_OUT, draw_D]; rw [hO, hD, hb])
        (by simp only [pushOut_D, draw_D]; rw [hD]) (congrArg (· + 1) hd)

section
variable {s₁ s₂ : State} (h : SameChunks s₁ s₂)
include h

theorem SameChunks.raise {u₁ u₂ : State} (k : ErrKind)
    (h₁ : u₁ = { s₁ with S := u₁.S, X := u₁.X, LEN := u₁.LEN, OFF := u₁.OFF })
    (h₂ : u₂ = { s₂ with S := u₂.S, X := u₂.X, LEN := u₂.LEN, OFF := u₂.OFF }) :
    Alike (.next (Machine.raise k u₁)) (.next (Machine.raise k u₂)) := by
  rw [h₁, h₂]
  exact .next (sameWork_raise k ⟨h.work.vstat, h.work.value, h.work.nbytes⟩ h.work.draws h.work.stage)

theorem SameChunks.fixedPartPresent_eq (n : Nat) : fixedPartPresent n s₁ = fixedPartPresent n s₂ := by
  unfold fixedPartPresent; rw [h.s, h.input.inLen]

theorem alike_literalTail (k : Nat) (x : Word32) : Alike (literalTail k x s₁) (literalTail k x s₂) := by
  rw [literalTail_eq, literalTail_eq, ← h.s, ← h.d, ← h.dlen, ← h.input.inLen]
  split
  · exact h.raise _ rfl rfl
  · split
    · exact h.raise _ rfl rfl
    · next hb =>
      refine .next (h.advance rfl rfl ?_ ?_ ?_ h.work.draws)
      · unfold literalDone; rw [h.s]
      · unfold literalDone; rw [h.d]
      · show Store.writeList s₁.OUT s₁.D _ = Store.writeList s₂.OUT s₂.D _
        rw [h.work.out, h.d, h.input.inBytes_eq (by omega), h.s]

theorem alike_copyTail (k : Nat) (len : Word32) (off : BitVec 16) :
    Alike (copyTail k len off s₁) (copyTail k len off s₂) := by
  rw [copyTail_eq, copyTail_eq, ← h.d, ← h.dlen]
  split
  · exact h.raise _ rfl rfl
  · have hc := copyLoop_congr off.toNat len.toNat (s₁ := copyFetched k len off s₁) (s₂ := copyFetched k len off s₂)
      h.work.out h.d h.work.draws
    refine .next (h.advance ?_ ?_ ?_ ?_ hc.1 hc.2)
    · rw [copyLoop_frame]; rfl
    · rw [copyLoop_frame]; rfl
    · rw [copyLoop_frame, copyLoop_frame off.toNat len.toNat (copyFetched k len off s₂)]
      show s₁.S + k = s₂.S + k
      rw [h.s]
    · rw [copyLoop_D, copyLoop_D]
      show s₁.D + _ = s₂.D + _
      rw [h.d]

/-- A chunk does the same on both cores. -/
theorem alike_chunk {i : Instr} (hi : isChunk i = true) : Alike (exec i s₁) (exec i s₂) := by
  have guarded : ∀ (n : Nat) (f : State → Host.Outcome State Fault Refusal), Alike (f s₁) (f s₂) →
      Alike (if fixedPartPresent n s₁ then f s₁ else .next (Machine.raise .corrupt s₁))
        (if fixedPartPresent n s₂ then f s₂ else .next (Machine.raise .corrupt s₂)) := fun n f hf => by
    rw [h.fixedPartPresent_eq]
    split
    · exact hf
    · exact h.raise _ rfl rfl
  cases i with
  | lit m => exact alike_literalTail h 1 (litField m)
  | lit1 x => exact guarded 2 (literalTail 2 (lit1Field x)) (alike_literalTail h 2 _)
  | lit2 x => exact guarded 3 (literalTail 3 (lit2Field x)) (alike_literalTail h 3 _)
  | lit3 x => exact guarded 4 (literalTail 4 (lit3Field x)) (alike_literalTail h 4 _)
  | lit4 x => exact guarded 5 (literalTail 5 x) (alike_literalTail h 5 _)
  | copy1 l off => exact guarded 2 (copyTail 2 (copy1Len l) (copy1Off off)) (alike_copyTail h 2 _ _)
  | copy2 m off => exact guarded 3 (copyTail 3 (copy2Len m) off) (alike_copyTail h 3 _ _)
  | copy4 m => exact h.raise _ rfl rfl
  | decompress | compress | uvarint | putuvarint => cases hi

theorem alike_endStep : Alike (endStep s₁) (endStep s₂) := by
  unfold endStep
  rw [← h.d, ← h.dlen]
  split
  · exact h.raise _ rfl rfl
  · exact .next (sameWork_of_done rfl rfl rfl ⟨h.work.vstat, h.work.value, h.work.nbytes⟩ ⟨rfl, h.work.out⟩ h.work.draws
      h.work.stage)

end

end Sys2Proof.Machine
end

section
/-! A step of `COMPRESS` as an equation, stage by stage: whether there is room is all that is left to decide (R31, R191 to
R204). -/

namespace Sys2Proof.Machine

/-! ## Candidates -/

/-- A hit's candidate lies before the scan cursor, less than 32768 back (R199, R206). -/
theorem ScanInv.candidate_lt {s : State} (h : ScanInv s) {t : Nat} (hc : hitCandidate (lookup s) = some t) :
    t < s.CS ∧ s.CS - t < 32768 := by
  obtain ⟨p, hp, rfl, hd, -⟩ := hitCandidate_eq_some hc
  rw [lookup_CAND_eq h.shift_ge] at hp
  exact ⟨h.earlier _ p h.bucketAt_lt hp, hd⟩

/-! ## The equations -/

theorem scanStep_of_miss {s : State} (hc : hitCandidate (lookup s) = none) : scanStep s = .go (missDone s) := by
  rcases scanStep_cases s with ⟨-, h⟩ | ⟨t, ht, -⟩
  · exact h
  · rw [hc] at ht; cases ht

theorem scanStep_of_hit {s : State} {t : Nat} (h : ScanInv s) (hlt : s.CS + 3 < s.N) (hc : hitCandidate (lookup s) = some t) :
    scanStep s = if Capacity.fits s.caps.outCap (s.W + (hitBytes t s).length) then .go (hitDone t s)
      else .refuse .outCapacity := by
  obtain ⟨len, hm, hend⟩ := matchEnd_of_hit hlt hc
  have h4 : 4 ≤ len := hm.min
  have hlim : s.N ≤ 0xffffffff := h.limit
  obtain ⟨-, hd⟩ := h.candidate_lt hc
  have hdist : (matchEnd t s).1 - (matchEnd t s).2 < 65536 := by rw [hend]; dsimp only; omega
  cases hf : Capacity.fits s.caps.outCap (s.W + (hitBytes t s).length) with
  | true => exact scanStep_hit hc (by omega) hdist hf
  | false => exact scanStep_refuse hc (by omega) hdist (copyBytes_ne_nil _ (by rw [hend]; dsimp only; omega)) hf

theorem finishScan_eq {s : State} (h : ScanInv s) :
    finishScan s = if s.LIT = s.N ∨ Capacity.fits s.caps.outCap (s.W + (pendingBytes s.N s).length) = true then
      .go (scanDone s) else .refuse .outCapacity := by
  have hlim : s.N ≤ 0xffffffff := h.limit
  split
  · next hok =>
    rcases hok with hl | hf
    · have hp : pendingBytes s.N s = [] := if_pos hl
      unfold finishScan flushLiteral scanDone
      rw [if_neg (not_not_intro hl), hp]; rfl
    · exact finishScan_go (by omega) hf
  · next hno =>
    rw [not_or, Bool.not_eq_true] at hno
    exact finishScan_refuse hno.1 (by omega) hno.2

theorem compressBegin_eq (s : State) :
    compressBegin s = if Config.maxInputLen < s.IN_LEN.toNat then .raised .invalidInput { s with N := s.IN_LEN.toNat }
      else if Capacity.fits s.caps.outCap (headerBytes s).length then afterHeader (headerEmitted s)
      else .refuse .outCapacity := by
  by_cases hm : Config.maxInputLen < s.IN_LEN.toNat
  · rw [if_pos hm]; exact if_pos hm
  · rw [if_neg hm]
    cases hf : Capacity.fits s.caps.outCap (headerBytes s).length with
    | true => exact compressBegin_go (Nat.le_of_not_lt hm) hf
    | false => exact compressBegin_refuse (Nat.le_of_not_lt hm) hf

theorem shortInput_eq {s : State} (h : s.N ≤ Config.shortInputMax) :
    shortInput s = if s.N = 0 ∨ Capacity.fits s.caps.outCap (s.W + (shortBytes s).length) = true then .go (shortDone s)
      else .refuse .outCapacity := by
  split
  · next hok =>
    rcases hok with h0 | hf
    · have hb : shortBytes s = [] := if_pos h0
      unfold shortInput shortDone
      rw [if_neg (not_not_intro h0), hb]; rfl
    · exact shortInput_go h hf
  · next hno =>
    rw [not_or, Bool.not_eq_true] at hno
    exact shortInput_refuse hno.1 h hno.2

end Sys2Proof.Machine
end

section
/-! Two scans of the same input go on alike (R45): what one finds in `IN` and in the part of the table in use, the other finds
too. -/

namespace Sys2Proof.Machine

section
variable {s₁ s₂ : State} (hi : SameInput s₁ s₂) (h : SameScan s₁ s₂)
include hi h

theorem SameScan.n_eq : s₁.N = s₂.N := by rw [h.inv₁.input, h.inv₂.input, hi.inLen]

theorem SameScan.readIn_eq {i : Nat} (hn : i < s₁.N) : s₁.readIn i = s₂.readIn i :=
  hi.bytes i (by rw [← h.inv₁.input]; exact hn)

theorem SameScan.readIn32_eq {a : Nat} (ha : a + 3 < s₁.N) : s₁.readIn32 a = s₂.readIn32 a :=
  hi.readIn32_eq (by rw [← h.inv₁.input]; exact ha)

theorem SameScan.shift_eq : s₁.SHIFT = s₂.SHIFT := by rw [h.inv₁.shift, h.inv₂.shift, h.n_eq hi]

theorem SameScan.pendingBytes_eq {upTo : Nat} (hl : s₁.LIT ≤ upTo) (hu : upTo ≤ s₁.N) :
    pendingBytes upTo s₁ = pendingBytes upTo s₂ := by
  unfold pendingBytes
  rw [← h.lit, hi.inBytes_eq (by rw [← h.inv₁.input]; omega)]

theorem SameScan.matchEnd_eq {t : Nat} (ht : t < s₁.CS) : matchEnd t s₁ = matchEnd t s₂ := by
  unfold matchEnd
  rw [← h.n_eq hi, ← h.cs]
  exact extendLoop_congr (fun _ hn => h.readIn_eq hi hn) _ (by omega)

theorem SameScan.hitBytes_eq {t : Nat} (ht : t < s₁.CS) : hitBytes t s₁ = hitBytes t s₂ := by
  unfold hitBytes
  rw [← h.matchEnd_eq hi ht, ← h.cs, h.pendingBytes_eq hi h.inv₁.pending h.inv₁.cursor]

section
variable (hlt : s₁.CS + 3 < s₁.N)
include hlt

theorem SameScan.bucketAt_eq : bucketAt s₁ = bucketAt s₂ := by
  unfold bucketAt
  rw [← readIn32_toNat, ← readIn32_toNat, h.readIn32_eq hi hlt, h.cs, h.shift_eq hi]

theorem SameScan.cand_eq : (lookup s₁).CAND = (lookup s₂).CAND := by
  rw [lookup_CAND_eq h.inv₁.shift_ge, lookup_CAND_eq h.inv₂.shift_ge, ← h.bucketAt_eq hi hlt]
  exact h.table _ h.inv₁.bucketAt_lt

/-- The lookups leave the same entries in the part of the table in use. -/
theorem SameScan.lookup_table {i : Nat} (ht : i < s₁.TSIZE) : (lookup s₁).readTable i = (lookup s₂).readTable i := by
  rw [lookup_readTable h.inv₁.shift_ge, lookup_readTable h.inv₂.shift_ge, ← h.bucketAt_eq hi hlt, h.cs, h.table i ht]

/-- The same candidates hit: a candidate's four bytes lie before the end of the input. -/
theorem SameScan.hitCandidate_eq : hitCandidate (lookup s₁) = hitCandidate (lookup s₂) := by
  unfold hitCandidate
  rw [← h.cand_eq hi hlt]
  cases hc : (lookup s₁).CAND with
  | none => rfl
  | some p =>
    rw [lookup_CAND_eq h.inv₁.shift_ge] at hc
    have hp := h.inv₁.earlier _ p h.inv₁.bucketAt_lt hc
    show (if s₁.CS - p.toNat ≥ _ then _ else if s₁.readIn32 p.toNat ≠ s₁.readIn32 s₁.CS then _ else _) =
      (if s₂.CS - p.toNat ≥ _ then _ else if s₂.readIn32 p.toNat ≠ s₂.readIn32 s₂.CS then _ else _)
    rw [← h.cs, h.readIn32_eq hi hlt, h.readIn32_eq hi (a := p.toNat) (by omega)]

theorem SameScan.missDone : SameScan (missDone s₁) (missDone s₂) where
  inv₁ := scanInv_missDone h.inv₁ hlt
  inv₂ := scanInv_missDone h.inv₂ (by rw [← h.cs, ← h.n_eq hi]; exact hlt)
  w := h.w
  cs := congrArg (· + 1) h.cs
  lit := h.lit
  table := fun _ ht => h.lookup_table hi hlt ht

theorem SameScan.hitDone {t : Nat} (hc : hitCandidate (lookup s₁) = some t) : SameScan (hitDone t s₁) (hitDone t s₂) where
  inv₁ := scanInv_hitDone h.inv₁ hlt hc
  inv₂ := scanInv_hitDone h.inv₂ (by rw [← h.cs, ← h.n_eq hi]; exact hlt) (by rw [← h.hitCandidate_eq hi hlt]; exact hc)
  w := by
    show s₁.W + _ = s₂.W + _
    rw [h.w, h.hitBytes_eq hi (h.inv₁.candidate_lt hc).1]
  cs := congrArg Prod.fst (h.matchEnd_eq hi (h.inv₁.candidate_lt hc).1)
  lit := congrArg Prod.fst (h.matchEnd_eq hi (h.inv₁.candidate_lt hc).1)
  table := fun _ ht => h.lookup_table hi hlt ht

end
end

/-- A step of `COMPRESS` that leaves two cores scanning alike. -/
theorem SameWork.scanning {s₁ s₂ t₁ t₂ : State} (hw : SameWork s₁ s₂)
    (h₁ : t₁ = { s₁ with N := t₁.N, W := t₁.W, TSIZE := t₁.TSIZE, SHIFT := t₁.SHIFT, CS := t₁.CS, CT := t₁.CT, LIT := t₁.LIT
                         S0 := t₁.S0, H := t₁.H, IDX := t₁.IDX, CAND := t₁.CAND, REM := t₁.REM, PV := t₁.PV, OUT := t₁.OUT
                         TABLE := t₁.TABLE, stage := t₁.stage })
    (h₂ : t₂ = { s₂ with N := t₂.N, W := t₂.W, TSIZE := t₂.TSIZE, SHIFT := t₂.SHIFT, CS := t₂.CS, CT := t₂.CT, LIT := t₂.LIT
                         S0 := t₂.S0, H := t₂.H, IDX := t₂.IDX, CAND := t₂.CAND, REM := t₂.REM, PV := t₂.PV, OUT := t₂.OUT
                         TABLE := t₂.TABLE, stage := t₂.stage })
    (hs₁ : t₁.stage = .scan) (hs₂ : t₂.stage = .scan) (hO : t₁.OUT = t₂.OUT) (hscan : SameScan t₁ t₂) : SameWork t₁ t₂ where
  phase := by rw [h₁, h₂]; exact hw.phase
  status := by rw [h₁, h₂]; exact hw.status
  vstat := by rw [h₁, h₂]; exact hw.vstat
  value := by rw [h₁, h₂]; exact hw.value
  nbytes := by rw [h₁, h₂]; exact hw.nbytes
  outLen := by rw [h₁, h₂]; exact hw.outLen
  out := hO
  draws := by rw [h₁, h₂]; exact hw.draws
  stage := hs₁.trans hs₂.symm
  begun := fun _ hb => absurd (hs₁.symm.trans hb) (by rintro ⟨⟩)
  chunks := fun _ hb => absurd (hs₁.symm.trans hb) (by rintro ⟨⟩)
  scan := fun _ _ => hscan

/-- A short input's literal is the same on both cores (R193). -/
theorem SameInput.shortBytes_eq {s₁ s₂ : State} (hi : SameInput s₁ s₂) :
    shortBytes (headerEmitted s₁) = shortBytes (headerEmitted s₂) := by
  have hn : (headerEmitted s₁).N = (headerEmitted s₂).N := congrArg BitVec.toNat hi.inLen
  have hb : (headerEmitted s₁).inBytes 0 (headerEmitted s₁).N = (headerEmitted s₂).inBytes 0 (headerEmitted s₁).N := by
    rw [inBytes_congr (s := s₁) (t := headerEmitted s₁) rfl rfl, inBytes_congr (s := s₂) (t := headerEmitted s₂) rfl rfl]
    exact hi.inBytes_eq (Nat.le_of_eq (Nat.zero_add _))
  unfold shortBytes
  rw [hb, hn]

section
variable {s₁ s₂ : State} (hi : SameInput s₁ s₂) (hw : SameWork s₁ s₂)
include hi hw

/-- A step of the scan does the same on both cores. -/
theorem alike_scanStep (hst : s₁.stage = .scan) (h : SameScan s₁ s₂) : Alike (exec .compress s₁) (exec .compress s₂) := by
  have hst₂ : s₂.stage = .scan := hw.stage.symm.trans hst
  by_cases hlt : s₁.CS + 3 < s₁.N
  · have hlt₂ : s₂.CS + 3 < s₂.N := by rw [← h.cs, ← h.n_eq hi]; exact hlt
    rw [execCompress_step hst hlt, execCompress_step hst₂ hlt₂]
    have hc₂ := h.hitCandidate_eq hi hlt
    cases hc : hitCandidate (lookup s₁) with
    | none =>
      rw [scanStep_of_miss hc, scanStep_of_miss (hc₂.symm.trans hc)]
      exact .next (hw.scanning rfl rfl hst hst₂ hw.out (h.missDone hi hlt))
    | some t =>
      have hb := h.hitBytes_eq hi (h.inv₁.candidate_lt hc).1
      rw [scanStep_of_hit h.inv₁ hlt hc, scanStep_of_hit h.inv₂ hlt₂ (hc₂.symm.trans hc), ← hb, ← h.w, ← hi.caps]
      split
      · refine .next (hw.scanning rfl rfl hst hst₂ ?_ (h.hitDone hi hlt hc))
        show Store.writeList s₁.OUT s₁.W _ = Store.writeList s₂.OUT s₂.W _
        rw [hw.out, h.w, hb]
      · exact .refused _
  · have hlt₂ : ¬ s₂.CS + 3 < s₂.N := by rw [← h.cs, ← h.n_eq hi]; exact hlt
    have hb := h.pendingBytes_eq hi (Nat.le_trans h.inv₁.pending h.inv₁.cursor) (Nat.le_refl s₁.N)
    rw [execCompress_end hst hlt, execCompress_end hst₂ hlt₂, finishScan_eq h.inv₁, finishScan_eq h.inv₂, ← h.n_eq hi, ← hb,
      ← h.w, ← hi.caps, ← h.lit]
    split
    · refine .next (sameWork_of_done rfl rfl rfl ⟨hw.vstat, hw.value, hw.nbytes⟩ ⟨?_, ?_⟩ hw.draws hw.stage)
      · show BitVec.ofNat 64 (s₁.W + (pendingBytes s₁.N s₁).length) = BitVec.ofNat 64 (s₂.W + (pendingBytes s₂.N s₂).length)
        rw [← h.n_eq hi, ← hb, h.w]
      · show Store.writeList s₁.OUT s₁.W (pendingBytes s₁.N s₁) = Store.writeList s₂.OUT s₂.W (pendingBytes s₂.N s₂)
        rw [← h.n_eq hi, ← hb, h.w, hw.out]
    · exact .refused _

/-- The header leaves the same bytes on both cores (R192). -/
theorem headerEmitted_same : (headerEmitted s₁).W = (headerEmitted s₂).W ∧ (headerEmitted s₁).OUT = (headerEmitted s₂).OUT := by
  constructor
  · show (headerBytes s₁).length = _
    rw [hi.headerBytes_eq]; rfl
  · show Store.writeList s₁.OUT 0 (headerBytes s₁) = _
    rw [hi.headerBytes_eq, hw.out]; rfl

/-- The first step of `COMPRESS` does the same on both cores. -/
theorem alike_compressBegin (hop : s₁.OP = 1#2) (hst : s₁.stage = .begin) (ho : s₁.OUT = []) :
    Alike (exec .compress s₁) (exec .compress s₂) := by
  have hst₂ : s₂.stage = .begin := hw.stage.symm.trans hst
  obtain ⟨hW, hO⟩ := headerEmitted_same hi hw
  have hn : (headerEmitted s₁).N = (headerEmitted s₂).N := congrArg BitVec.toNat hi.inLen
  rw [execCompress_begin (by rw [hst]; rintro ⟨⟩), execCompress_begin (by rw [hst₂]; rintro ⟨⟩), compressBegin_eq,
    compressBegin_eq, ← hi.headerBytes_eq, ← hi.caps, ← hi.inLen]
  split
  · exact .next (sameWork_raise _ ⟨hw.vstat, hw.value, hw.nbytes⟩ hw.draws hw.stage)
  · next hm =>
    split
    · by_cases hs : (headerEmitted s₁).N ≤ Config.shortInputMax
      · rw [afterHeader_short hs, afterHeader_short (by rw [← hn]; exact hs), shortInput_eq hs,
          shortInput_eq (by rw [← hn]; exact hs), ← hi.shortBytes_eq, ← hW, ← hn]
        have hc : (headerEmitted s₁).caps = (headerEmitted s₂).caps := hi.caps
        rw [← hc]
        split
        · refine .next (sameWork_of_done rfl rfl rfl ⟨hw.vstat, hw.value, hw.nbytes⟩ ⟨?_, ?_⟩ hw.draws hw.stage)
          · unfold shortDone; rw [hW, hi.shortBytes_eq]
          · unfold shortDone; rw [hW, hO, hi.shortBytes_eq]
        · exact .refused _
      · have hl : Config.shortInputMax < s₁.IN_LEN.toNat := Nat.lt_of_not_le hs
        rw [afterHeader_long (Nat.lt_of_not_le hs), afterHeader_long (by rw [← hn]; exact Nat.lt_of_not_le hs)]
        refine .next (hw.scanning rfl rfl rfl rfl hO ?_)
        exact {
          inv₁ := scanInv_startScan hop ho hl (Nat.le_of_not_lt hm)
          inv₂ := scanInv_startScan (by rw [← hi.op]; exact hop) (by rw [← hw.out]; exact ho) (by rw [← hi.inLen]; exact hl)
            (by rw [← hi.inLen]; exact Nat.le_of_not_lt hm)
          w := hW
          cs := rfl
          lit := rfl
          table := fun i ht => by
            have ht₁ : i < (tableSize (headerEmitted s₁).N).1 := ht
            have ht₂ : i < (tableSize (headerEmitted s₂).N).1 := by rw [← hn]; exact ht₁
            exact ((read_clearBelow _ _ _).trans (if_pos ht₁)).trans ((read_clearBelow _ _ _).trans (if_pos ht₂)).symm }
    · exact .refused _

end

/-! ## The engine's step, and a run -/

theorem engineFetch_keepsInputs (s : State) : KeepsInputs s (engineFetch s) := by
  unfold engineFetch
  split <;> exact ⟨rfl, rfl, rfl, rfl, rfl, rfl, rfl, rfl⟩

theorem engineStep_keepsInputs {s t : State} (he : engineStep s = .next t) : KeepsInputs s t :=
  (engineFetch_keepsInputs s).trans (exec_keepsInputs he)

theorem SameInput.step {s₁ s₂ t₁ t₂ : State} (hi : SameInput s₁ s₂) (k₁ : KeepsInputs s₁ t₁) (k₂ : KeepsInputs s₂ t₂) :
    SameInput t₁ t₂ where
  op := by rw [k₁.op, k₂.op, hi.op]
  arg := by rw [k₁.arg, k₂.arg, hi.arg]
  inLen := by rw [k₁.inLen, k₂.inLen, hi.inLen]
  caps := by rw [k₁.caps, k₂.caps, hi.caps]
  bytes := fun i hl => by
    rw [k₁.inLen] at hl
    rw [readIn_congr k₁.input k₁.epoch, readIn_congr k₂.input k₂.epoch, hi.bytes i hl]
  host₁ := k₁.host.trans hi.host₁
  host₂ := k₂.host.trans hi.host₂

/-- The engine's step does the same on both cores, at each stage. -/
theorem alike_engineStep {s₁ s₂ : State} (hi : SameInput s₁ s₂) (hw : SameWork s₁ s₂) (hp : s₁.PHASE = .run) :
    Alike (engineStep s₁) (engineStep s₂) := by
  cases hst : s₁.stage with
  | begin =>
    rw [engineStep_begin hst, engineStep_begin (hw.stage.symm.trans hst), ← hi.op]
    rcases decodeOp_cases s₁.OP with ⟨-, hd⟩ | ⟨hop, hd⟩ | ⟨-, hd⟩ | ⟨-, hd⟩ <;> rw [hd]
    · rw [execDecompress_header (by rw [hst]; rintro ⟨⟩), execDecompress_header (by rw [← hw.stage, hst]; rintro ⟨⟩)]
      exact alike_headerStep hi hw
    · exact alike_compressBegin hi hw hop hst (hw.begun hp hst)
    · exact alike_uvarint hi hw
    · exact alike_putuvarint hi hw
  | chunks =>
    have hst₂ := hw.stage.symm.trans hst
    obtain ⟨hS, hD, hdl⟩ := hw.chunks hp hst
    have hc : SameChunks s₁ s₂ := ⟨hi, hw, hS, hD, hdl, hst⟩
    by_cases hs : s₁.S < s₁.IN_LEN.toNat
    · rw [engineStep_chunk hst hs, engineStep_chunk hst₂ (by rw [← hS, ← hi.inLen]; exact hs), ← hi.chunkAt_eq hS]
      exact alike_chunk hc.fetch (chunkAt_isChunk s₁)
    · rw [engineStep_end hst hs, engineStep_end hst₂ (by rw [← hS, ← hi.inLen]; exact hs)]
      exact alike_endStep hc
  | scan =>
    rw [engineStep_scan hst, engineStep_scan (hw.stage.symm.trans hst)]
    exact alike_scanStep hi hw hst (hw.scan hp hst)

/-- Two cores that stand alike show the host the same at every later step. -/
theorem steps_sameForHost {s₁ s₂ : State} (n : Nat) (hi : SameInput s₁ s₂) (hw : SameWork s₁ s₂) :
    SameForHost (steps n s₁) (steps n s₂) := by
  induction n generalizing s₁ s₂ with
  | zero => exact hw.hostView
  | succ n ih =>
    by_cases hp : s₁.PHASE = .run
    · have ha := alike_engineStep hi hw hp
      rw [steps, steps, step_run hp hi.host₁, step_run (hw.phase.symm.trans hp) hi.host₂]
      cases h₁ : engineStep s₁ <;> cases h₂ : engineStep s₂ <;> rw [h₁, h₂] at ha <;> cases ha
      · next ht => exact ih (hi.step (engineStep_keepsInputs h₁) (engineStep_keepsInputs h₂)) ht
      · rfl
    · rw [steps_rest hp hi.host₁, steps_rest (by rw [← hw.phase]; exact hp) hi.host₂]
      exact hw.hostView

/-- START makes two cores with the same inputs stand alike (R25). -/
theorem sameWork_started {s₁ s₂ : State} (hd : s₁.draws = s₂.draws) : SameWork (started s₁) (started s₂) := by
  have b₁ := started_begun s₁
  have b₂ := started_begun s₂
  exact {
    phase := b₁.phase.trans b₂.phase.symm, status := b₁.status.trans b₂.status.symm, vstat := b₁.vstat.trans b₂.vstat.symm
    value := b₁.value.trans b₂.value.symm, nbytes := b₁.nbytes.trans b₂.nbytes.symm
    outLen := b₁.outLen.trans b₂.outLen.symm, out := b₁.out.trans b₂.out.symm
    draws := by rw [started_draws, started_draws, hd]
    stage := b₁.stage.trans b₂.stage.symm
    begun := fun _ _ => b₁.out
    chunks := fun _ hs => absurd (b₁.stage.symm.trans hs) (by rintro ⟨⟩)
    scan := fun _ hs => absurd (b₁.stage.symm.trans hs) (by rintro ⟨⟩) }

/-- Settles O53: START leaves the two cores alike (`sameWork_started`), and cores that stand alike show the host the same at
every step (`steps_sameForHost`), since each step of one is matched by the other's (`alike_engineStep`). -/
theorem nothingCarriesOver : Obligations.NothingCarriesOver := by
  intro s₁ s₂ n p₁ p₂ h₁ h₂ hop harg hlen hcaps hdraws hbytes
  have hi : SameInput (started s₁) (started s₂) := {
    op := by rw [started_OP, started_OP, hop]
    arg := by rw [started_ARG, started_ARG, harg]
    inLen := by rw [started_IN_LEN, started_IN_LEN, hlen]
    caps := by rw [started_caps, started_caps, hcaps]
    bytes := fun i hl => by
      rw [started_IN_LEN] at hl
      rw [started_readIn, started_readIn, hbytes i hl]
    host₁ := (started_begun s₁).host
    host₂ := (started_begun s₂).host }
  rw [steps, steps, step_start p₁ h₁, step_start p₂ h₂, ← hcaps, ← hlen]
  by_cases hf : Capacity.fits s₁.caps.inCap s₁.IN_LEN.toNat = true
  · rw [if_pos hf, if_pos hf]
    exact steps_sameForHost n hi (sameWork_started hdraws)
  · rw [if_neg hf, if_neg hf]; rfl

end Sys2Proof.Machine
end

section
/-! What a scan step and the final flush of `COMPRESS` do to `OUT` (R78). -/

namespace Sys2Proof.Machine

/-- A run of writes defines every cell it covers. -/
theorem exists_read_writeList {α : Type} (m : Store α) {a b : Nat} {vs : List α} (ha : a ≤ b) (hb : b < a + vs.length) :
    ∃ v, Store.read (Store.writeList m a vs) b = some v := by
  have hi : b - a < vs.length := by omega
  exact ⟨vs[b - a], by rw [read_writeList, if_pos ⟨ha, hb⟩, List.getElem?_eq_getElem hi]⟩

/-- A run of writes leaves every cell before and after it. -/
theorem read_writeList_outside {α : Type} (m : Store α) {a b : Nat} {vs : List α} (h : b < a ∨ a + vs.length ≤ b) :
    Store.read (Store.writeList m a vs) b = Store.read m b := by
  rw [read_writeList, if_neg (by omega)]

/-- A scan step or the final flush that raises nothing writes one run of bytes from the write cursor on and moves the cursor
to its end: none for a miss, `hitBytes` for a hit, `pendingBytes` for the flush (R200 to R204). -/
theorem execCompress_scan_emits {s t : State} (hst : s.stage = .scan) (he : exec .compress s = .next t)
    (hok : t.STATUS = .ok) :
    ∃ bytes : List Byte, t.W = s.W + bytes.length ∧ t.OUT = Store.writeList s.OUT s.W bytes := by
  rcases execCompress_cases s with ⟨h, -⟩ | ⟨h, -⟩ | ⟨h, -⟩ | ⟨-, -, -, h⟩ | ⟨-, -, p, -, h⟩ | ⟨-, -, -, p, h⟩ |
    ⟨-, -, h⟩ | ⟨-, -, -, h⟩ | ⟨r, h⟩
  · exact absurd hst h
  · exact absurd hst h
  · exact absurd hst h
  all_goals rw [h] at he; cases he
  · exact ⟨[], rfl, rfl⟩
  · exact ⟨hitBytes p s, rfl, rfl⟩
  · exact absurd hok (status_ne_ok .invalidInput)
  · exact ⟨pendingBytes s.N s, rfl, rfl⟩
  · exact absurd hok (status_ne_ok .invalidInput)

/-- Settles O43: the step writes one run of bytes from the old cursor to the new (`execCompress_scan_emits`), which defines
the cells it covers and leaves the others. -/
theorem emissionIsAppendOnly : Obligations.EmissionIsAppendOnly := by
  intro s t hst he hok
  obtain ⟨bytes, hW, hOUT⟩ := execCompress_scan_emits hst he hok
  rw [hW, hOUT]
  exact ⟨Nat.le_add_right _ _, fun _ => exists_read_writeList s.OUT, fun _ => read_writeList_outside s.OUT⟩

end Sys2Proof.Machine
end

section
/-! Decoding and encoding (R92 to R111): the code of an instruction decodes to it, what decodes is the code of its
instruction, the bytes of a listing's chunk items, and the decode map by masks; and `UVARINT` on a varint. -/

namespace Sys2Proof.Machine

/-! ## Decoding what was encoded (R96 to R103) -/

/-- A window that stands for `i` and holds no more than its fixed part decodes to `i`, whatever bytes follow (R104). -/
theorem decodeChunk_fixedPart {b : Byte} {fixed rest : List Byte} {i : Instr} (hl : fixed.length + 1 = i.fixedBytes)
    (hw : decodeWindow b ((fixed ++ rest).getD 0 0) ((fixed ++ rest).getD 1 0) ((fixed ++ rest).getD 2 0)
      ((fixed ++ rest).getD 3 0) = i) : decodeChunk (b :: (fixed ++ rest)) = .ok i rest := by
  rw [decodeChunk_cons hw, if_pos (by rw [List.length_append]; omega), ← hl, Nat.add_sub_cancel, List.drop_left]

/-- The code of a well-formed chunk decodes to it, whatever bytes follow (R96, R97, R99, R101, R103, R104). -/
theorem decodeChunk_chunkBytes {i : Instr} (hi : isChunk i = true) (hw : i.wellFormed = true) (rest : List Byte) :
    decodeChunk (i.chunkBytes ++ rest) = .ok i rest := by
  cases i with
  | lit m =>
    have hm : (mBits (m ++ 0#2)).toNat < 60 := by rw [mBits_append]; exact of_decide_eq_true hw
    exact decodeChunk_fixedPart (fixed := []) rfl
      ((decodeWindow_lit _ _ _ _ (tagBits_append m 0#2) hm).trans (congrArg Instr.lit (mBits_append m 0#2)))
  | lit1 x => exact decodeChunk_fixedPart (fixed := [x]) rfl rfl
  | lit2 x => exact decodeChunk_fixedPart (fixed := [byteOf x 0, byteOf x 1]) rfl (congrArg Instr.lit2 (le16_byteOf x))
  | lit3 x =>
    exact decodeChunk_fixedPart (fixed := [byteOf x 0, byteOf x 1, byteOf x 2]) rfl (congrArg Instr.lit3 (le24_byteOf x))
  | lit4 x =>
    exact decodeChunk_fixedPart (fixed := [byteOf x 0, byteOf x 1, byteOf x 2, byteOf x 3]) rfl
      (congrArg Instr.lit4 (le32_byteOf x))
  | copy1 l off =>
    obtain ⟨htag, hl, hoff⟩ := copy1_fields l off
    exact decodeChunk_fixedPart (fixed := [off.extractLsb' 0 8]) rfl
      ((decodeWindow_copy1 _ _ _ _ htag).trans (congrArg₂ Instr.copy1 hl hoff))
  | copy2 m off =>
    exact decodeChunk_fixedPart (fixed := [byteOf off 0, byteOf off 1]) rfl
      ((decodeWindow_copy2 _ _ _ _ (tagBits_append m 2#2)).trans
        (congrArg₂ Instr.copy2 (mBits_append m 2#2) (le16_byteOf off)))
  | copy4 m =>
    exact decodeChunk_fixedPart (fixed := []) rfl
      ((decodeWindow_copy4 _ _ _ _ (tagBits_append m 3#2)).trans (congrArg Instr.copy4 (mBits_append m 3#2)))
  | decompress | compress | uvarint | putuvarint => cases hi

/-- With no bytes behind the code nothing is left over. -/
theorem decodeChunk_code {i : Instr} (hi : isChunk i = true) (hw : i.wellFormed = true) :
    decodeChunk i.chunkBytes = .ok i [] := by
  rw [← decodeChunk_chunkBytes hi hw [], List.append_nil]

theorem encode_chunk {i : Instr} (hi : isChunk i = true) : encode i = .chunk i.chunkBytes := by
  cases i with
  | decompress | compress | uvarint | putuvarint => cases hi
  | _ => rfl

/-- Settles O1: a chunk by `decodeChunk_code`, a host operation by its value of `OP` (R111). -/
theorem decodeGivesBackEncodedInstruction : Obligations.DecodeGivesBackEncodedInstruction := by
  intro i hw
  by_cases hi : isChunk i = true
  · rw [encode_chunk hi]
    exact decodeChunk_code hi hw
  · cases i with
    | decompress | compress | uvarint | putuvarint => rfl
    | _ => exact absurd rfl hi

/-! ## Encoding what was decoded (R94, R105) -/

/-- The two bytes of a `COPY1` (R99), put together from its operands. -/
theorem copy1_chunkBytes {b : Byte} (h : tagBits b = 1#2) (b1 : Byte) :
    (Instr.copy1 (b.extractLsb' 2 3) (b.extractLsb' 5 3 ++ b1)).chunkBytes = [b, b1] := by
  have hm : b.extractLsb' 5 3 ++ b.extractLsb' 2 3 = mBits b := BitVec.extractLsb'_append_extractLsb'_eq_extractLsb' rfl
  simp only [Instr.chunkBytes, BitVec.extractLsb'_append_eq_left, BitVec.extractLsb'_append_eq_right]
  rw [hm, ← h, tagByte_eq]

/-- What a window stands for is a well-formed chunk, and its code is the window's first bytes (R94, R105). -/
theorem decodeWindow_encodesBack (b b1 b2 b3 b4 : Byte) :
    let i := decodeWindow b b1 b2 b3 b4
    isChunk i = true ∧ i.wellFormed = true ∧ i.chunkBytes = [b, b1, b2, b3, b4].take i.fixedBytes := by
  have tag : ∀ t, tagBits b = t → mBits b ++ t = b := fun t h => h ▸ tagByte_eq b
  rcases tagByte_cases b with h | h | h | rfl | rfl | rfl | rfl | ⟨h, hm⟩
  · rw [decodeWindow_copy1 _ _ _ _ h]
    exact ⟨rfl, rfl, copy1_chunkBytes h b1⟩
  · rw [decodeWindow_copy2 _ _ _ _ h]
    refine ⟨rfl, rfl, ?_⟩
    rw [Instr.chunkBytes, tag _ h, byteOf_le16_0, byteOf_le16_1]; rfl
  · rw [decodeWindow_copy4 _ _ _ _ h]
    refine ⟨rfl, rfl, ?_⟩
    rw [Instr.chunkBytes, tag _ h]; rfl
  · exact ⟨rfl, rfl, rfl⟩
  · refine ⟨rfl, rfl, ?_⟩
    show (Instr.lit2 (le16 b1 b2)).chunkBytes = [_, b1, b2]
    rw [Instr.chunkBytes, byteOf_le16_0, byteOf_le16_1]
  · obtain ⟨h0, h1, h2⟩ := byteOf_le24 b1 b2 b3
    refine ⟨rfl, rfl, ?_⟩
    show (Instr.lit3 (le24 b1 b2 b3)).chunkBytes = [_, b1, b2, b3]
    rw [Instr.chunkBytes, h0, h1, h2]
  · obtain ⟨h0, h1, h2, h3⟩ := byteOf_le32 b1 b2 b3 b4
    refine ⟨rfl, rfl, ?_⟩
    show (Instr.lit4 (le32 b1 b2 b3 b4)).chunkBytes = [_, b1, b2, b3, b4]
    rw [Instr.chunkBytes, h0, h1, h2, h3]
  · rw [decodeWindow_lit _ _ _ _ h hm]
    refine ⟨rfl, decide_eq_true hm, ?_⟩
    rw [Instr.chunkBytes, tag _ h]; rfl

/-- The window's bytes, as far as the list has them, are the list's. -/
theorem take_map_getD {bs : List Byte} {m n : Nat} (hn : m ≤ n) (hl : m ≤ bs.length) :
    ((List.range n).map fun j => bs.getD j 0).take m = bs.take m :=
  List.ext_getElem (by simp; omega) fun j h _ => by
    have hj : j < bs.length := by simp at h; omega
    simp [hj]

/-- What the chunk decoder accepts is a well-formed chunk, its code and the bytes left over. -/
theorem chunkBytes_of_decodeChunk {bs : List Byte} {i : Instr} {rest : List Byte} (h : decodeChunk bs = .ok i rest) :
    isChunk i = true ∧ i.wellFormed = true ∧ i.chunkBytes ++ rest = bs := by
  cases bs with
  | nil => cases h
  | cons b bs =>
    rw [decodeChunk_cons rfl] at h
    split at h
    case isFalse => cases h
    case isTrue hlen =>
      cases h
      obtain ⟨hchunk, hwf, hcode⟩ := decodeWindow_encodesBack b (bs.getD 0 0) (bs.getD 1 0) (bs.getD 2 0) (bs.getD 3 0)
      obtain ⟨hpos, hmax⟩ := decodeWindow_fixedBytes b (bs.getD 0 0) (bs.getD 1 0) (bs.getD 2 0) (bs.getD 3 0)
      obtain ⟨m, hm⟩ := Nat.exists_eq_add_of_le' hpos
      have hm4 : m ≤ 4 := by rw [hm] at hmax; exact Nat.le_of_succ_le_succ hmax
      have hwin : [bs.getD 0 0, bs.getD 1 0, bs.getD 2 0, bs.getD 3 0].take m = bs.take m := take_map_getD hm4 (by omega)
      refine ⟨hchunk, hwf, ?_⟩
      rw [hcode, hm, List.take_succ_cons, hwin, Nat.add_sub_cancel, List.cons_append, List.take_append_drop]

/-- Settles O2: what decodes is the code of its instruction (`chunkBytes_of_decodeChunk`), and the code of a chunk decodes
to it (`decodeChunk_chunkBytes`). -/
theorem decodedChunkEncodesBack : Obligations.DecodedChunkEncodesBack := by
  refine ⟨fun bs i rest h => ?_, fun i rest hw he => decodeChunk_chunkBytes (isChunk_of_encode he) hw rest⟩
  obtain ⟨hchunk, hwf, hbytes⟩ := chunkBytes_of_decodeChunk h
  exact ⟨hwf, encode_chunk hchunk, hbytes⟩

/-! ## The decode map by masks (R105) -/

/-- The mask `0x03` of the tag byte takes out the tag. -/
theorem mask_tag_iff (b : Byte) (t : BitVec 2) : b &&& 0x03#8 = t.setWidth 8 ↔ tagBits b = t := by
  revert b t; decide +kernel

/-- The rows of the decode map in the order of R105. -/
theorem decodeWindow_mnemonic (b b1 b2 b3 b4 : Byte) : (decodeWindow b b1 b2 b3 b4).mnemonic =
    if tagBits b = 1#2 then "COPY1" else if tagBits b = 2#2 then "COPY2" else if tagBits b = 3#2 then "COPY4"
    else if b = 0xf0#8 then "LIT1" else if b = 0xf4#8 then "LIT2" else if b = 0xf8#8 then "LIT3"
    else if b = 0xfc#8 then "LIT4" else "LIT" := by
  unfold decodeWindow
  simp only [apply_ite Instr.mnemonic]
  rfl

/-- Settles O3: the masks take out the tag (`mask_tag_iff`) or the whole tag byte, so the rule's rows are the decoder's
(`decodeWindow_mnemonic`); that the last row is the union of the four pairs is a check of the 256 tag bytes. -/
theorem tagByteSelectsMnemonicByTable : Obligations.TagByteSelectsMnemonicByTable := by
  refine ⟨fun b b1 b2 b3 b4 => ?_, fun b b1 b2 b3 b4 => ?_⟩
  · have copy1 : b &&& 0x03#8 = 0x01#8 ↔ tagBits b = 1#2 := mask_tag_iff b 1#2
    have copy2 : b &&& 0x03#8 = 0x02#8 ↔ tagBits b = 2#2 := mask_tag_iff b 2#2
    have copy4 : b &&& 0x03#8 = 0x03#8 ↔ tagBits b = 3#2 := mask_tag_iff b 3#2
    have whole : b &&& 0xff#8 = b := BitVec.and_allOnes
    simp only [copy1, copy2, copy4, whole]
    exact decodeWindow_mnemonic b b1 b2 b3 b4
  · rw [decodeWindow_mnemonic]
    revert b; decide +kernel

/-- Settles O4: each word is the code of a well-formed chunk (`decodeChunk_chunkBytes`) or a value of `OP`. -/
theorem workedEncodingsDecode : Obligations.WorkedEncodingsDecode :=
  ⟨decodeChunk_chunkBytes (i := .lit 4) rfl rfl [0x68], decodeChunk_chunkBytes (i := .lit1 60) rfl rfl [],
   decodeChunk_chunkBytes (i := .lit2 299) rfl rfl [], decodeChunk_chunkBytes (i := .lit3 65536) rfl rfl [],
   decodeChunk_chunkBytes (i := .lit4 0x01000000) rfl rfl [], decodeChunk_chunkBytes (i := .copy1 6 1) rfl rfl [],
   decodeChunk_chunkBytes (i := .copy1 7 2047) rfl rfl [], decodeChunk_chunkBytes (i := .copy2 15 8) rfl rfl [],
   decodeChunk_chunkBytes (i := .copy4 0) rfl rfl [], rfl, rfl, rfl, rfl⟩

/-! ## The chunk items of a listing (R109) -/

/-- A length field of `w` bits holds one less than the length (R98). -/
theorem lengthField_toNat {w n : Nat} (h1 : 1 ≤ n) (hn : n ≤ 2 ^ w) : (BitVec.ofNat w (n - 1)).toNat + 1 = n := by
  rw [BitVec.toNat_ofNat, Nat.mod_eq_of_lt (by omega), Nat.sub_add_cancel h1]

/-- A literal item of 1 to `n` bytes of data decodes to its literal, the data left over: `f` is the literal by its length
field, well-formed at every field below `n`. -/
theorem decodeChunk_listedLiteral {w n : Nat} (f : BitVec w → Instr) (hn : n ≤ 2 ^ w) (hi : ∀ x, isChunk (f x) = true)
    (hw : ∀ x, x.toNat < n → (f x).wellFormed = true) {data bs : List Byte}
    (h : (if 1 ≤ data.length ∧ data.length ≤ n then some ((f (BitVec.ofNat w (data.length - 1))).chunkBytes ++ data)
      else none) = some bs) : ∃ x, decodeChunk bs = .ok (f x) data ∧ x.toNat + 1 = data.length := by
  obtain ⟨⟨h1, hmax⟩, hbs⟩ := Option.ite_none_right_eq_some.1 h
  cases hbs
  have hx := lengthField_toNat h1 (hmax.trans hn)
  exact ⟨_, decodeChunk_chunkBytes (hi _) (hw _ (by omega)) data, hx⟩

/-- Settles O5: an item has bytes just under its range; a literal decodes by `decodeChunk_listedLiteral`, a copy by
`decodeChunk_code`, its operands fitting their fields. -/
theorem listedChunksDecode : Obligations.ListedChunksDecode := by
  refine ⟨fun data => ⟨Option.isSome_ite, Option.isSome_ite, Option.isSome_ite, Option.isSome_ite, Option.isSome_ite⟩,
    fun off len => ⟨Option.isSome_ite.trans (by omega), Option.isSome_ite.trans (by omega)⟩,
    fun x data => ⟨_, rfl, decodeChunk_chunkBytes rfl rfl data⟩,
    fun data bs => ⟨
      decodeChunk_listedLiteral .lit (by decide) (fun _ => rfl) (fun _ => decide_eq_true),
      decodeChunk_listedLiteral .lit1 le_rfl (fun _ => rfl) (fun _ _ => rfl),
      decodeChunk_listedLiteral .lit2 le_rfl (fun _ => rfl) (fun _ _ => rfl),
      decodeChunk_listedLiteral .lit3 le_rfl (fun _ => rfl) (fun _ _ => rfl),
      decodeChunk_listedLiteral .lit4 le_rfl (fun _ => rfl) (fun _ _ => rfl)⟩,
    fun off len bs => ⟨fun h => ?copy1, fun h => ?copy2⟩, 0, rfl, rfl⟩
  case copy1 =>
    obtain ⟨⟨hoff, h4, h11⟩, hbs⟩ := Option.ite_none_right_eq_some.1 h
    cases hbs
    refine ⟨_, _, decodeChunk_code rfl rfl, ?_, ?_⟩ <;> rw [BitVec.toNat_ofNat] <;> omega
  case copy2 =>
    obtain ⟨⟨hoff, h1, h64⟩, hbs⟩ := Option.ite_none_right_eq_some.1 h
    cases hbs
    refine ⟨_, _, decodeChunk_code rfl rfl, ?_, ?_⟩ <;> rw [BitVec.toNat_ofNat] <;> omega

/-! ## UVARINT on a varint (R92, R131, R134, R139) -/

/-- Where the decoder answers a value `UVARINT` ends with success. -/
theorem execUvarint_of_ok {s : State} {v : Word64} {n : Nat} (h : (uvarintRun s).result = .ok v n) :
    exec .uvarint s = .next (succeed 0 (uvarintRan s)) := by
  rcases execUvarint_cases s with ⟨-, -, -, he⟩ | ⟨hr, -⟩ | ⟨hr, -⟩
  · exact he
  · rw [h] at hr; cases hr
  · rw [h] at hr; cases hr

/-- Settles O14: on a varint the decoder answers its value and its length (`uvarintLoop_ok`), which are the outputs. -/
theorem uvarintDecodesVarint : Obligations.UvarintDecodesVarint := by
  intro s k hv hk
  obtain ⟨v, hval, hr⟩ : ∃ v : Word64, v.toNat = groupsValue s.readIn k ∧ (uvarintRun s).result = .ok v k :=
    uvarintLoop_ok hv hk
  have hcount : (BitVec.ofNat 4 k).toNat = k := by
    have := hv.short
    rw [BitVec.toNat_ofNat]; omega
  have hran : uvarintRan s = { setVarintRegs (uvarintRun s) s with VALUE := v, NBYTES := BitVec.ofNat 4 k, VSTAT := .ok } := by
    rw [uvarintRan, hr]; rfl
  refine ⟨_, execUvarint_of_ok hr, ?_⟩
  rw [hran]
  exact ⟨hval, hcount, rfl⟩

end Sys2Proof.Machine
end

section
/-! What `UVARINT` leaves on an input that is no varint (R132, R133, R134, R139), and the laws between the encoder and the
decoder (R138). -/

namespace Sys2Proof.Machine

/-! ## UVARINT on an input that is no varint -/

theorem endsWithError_raise (k : ErrKind) (s : State) : EndsWithError (raise k s) k := ⟨rfl, rfl, rfl, fun _ => rfl⟩

/-- Where the decoder answers no value `UVARINT` raises Corrupt; value and count are 0 (R134, R139). -/
theorem execUvarint_of_failure {s : State} {r : VarintResult} (h : (uvarintRun s).result = r)
    (hr : r = .trunc ∨ r = .ovf) :
    ∃ t, exec .uvarint s = .next t ∧ EndsWithError t .corrupt ∧ t.VSTAT = r.vstat ∧ t.VALUE = 0 ∧ t.NBYTES = 0 ∧
      t = { s with VALUE := 0, NBYTES := 0, VSTAT := r.vstat, STATUS := .corrupt, OUT_LEN := 0, OUT := [], PHASE := .done,
                   ACC := t.ACC, SH := t.SH, VI := t.VI } := by
  have hex : exec .uvarint s = .next (raise .corrupt (uvarintRan s)) := by
    rcases execUvarint_cases s with ⟨v, n, hok, -⟩ | ⟨-, he⟩ | ⟨-, he⟩
    · rw [h] at hok
      rcases hr with hr | hr <;> rw [hr] at hok <;> cases hok
    · exact he
    · exact he
  have hran : uvarintRan s = { setVarintRegs (uvarintRun s) s with VALUE := 0, NBYTES := 0, VSTAT := r.vstat } := by
    rw [uvarintRan, h]
    rcases hr with rfl | rfl <;> rfl
  refine ⟨_, hex, endsWithError_raise _ _, ?_⟩
  rw [hran]
  exact ⟨rfl, rfl, rfl, rfl⟩

/-- Settles O15: the decoder answers TRUNC (`uvarintLoop_trunc`). -/
theorem uvarintTruncatedIsTrunc : Obligations.UvarintTruncatedIsTrunc := fun _ hlen hcont =>
  execUvarint_of_failure (uvarintLoop_trunc hlen hcont) (.inl rfl)

/-- Settles O16: the decoder answers OVF (`uvarintLoop_ovf`) in both cases. -/
theorem uvarintOverflowIsOvf : Obligations.UvarintOverflowIsOvf := by
  intro s hcont h
  have hlen : 10 ≤ s.IN_LEN.toNat := by omega
  have hten : (128 ≤ (s.readIn 9).toNat ∧ 11 ≤ s.IN_LEN.toNat) ∨ (1 < (s.readIn 9).toNat ∧ (s.readIn 9).toNat < 128) := by
    omega
  exact execUvarint_of_failure (uvarintLoop_ovf hlen hcont hten) (.inr rfl)

/-! ## The laws of R138 -/

/-- A value and a number of groups determine every group: they are its digits to base 128. -/
theorem group_eq_of_groupsValue_eq {rd rd' : Nat → Byte} {k : Nat} (h : groupsValue rd k = groupsValue rd' k) :
    ∀ i, i < k → (rd i).toNat % 128 = (rd' i).toNat % 128 := by
  induction k generalizing rd rd' with
  | zero => intro i hi; omega
  | succ k ih =>
    rw [groupsValue_succ, groupsValue_succ] at h
    intro i hi
    cases i with
    | zero => omega
    | succ i => exact ih (rd := fun j => rd (j + 1)) (rd' := fun j => rd' (j + 1)) (by omega) i (by omega)

/-- Two varints of the same value and length have the same bytes: the groups agree by the value, the continuation bits by
the place. -/
theorem IsVarint.bytes_eq {rd rd' : Nat → Byte} {k : Nat} (hv : IsVarint rd k) (hv' : IsVarint rd' k)
    (h : groupsValue rd k = groupsValue rd' k) : ∀ i, i < k → rd i = rd' i := by
  intro i hi
  have hgroup := group_eq_of_groupsValue_eq h i hi
  apply BitVec.eq_of_toNat_eq
  by_cases hlast : i + 1 < k
  · have := hv.cont i hlast
    have := hv'.cont i hlast
    omega
  · obtain rfl : i = k - 1 := by omega
    have := hv.last
    have := hv'.last
    omega

/-- Where `PUTUVARINT` completes, `OUT[0 .. OUT_LEN)` holds the shortest varint of `ARG` (R93, R136). -/
theorem execPutuvarint_emits {s t : State} (h : exec .putuvarint s = .next t) :
    ∃ rd : Nat → Byte, IsVarint rd t.OUT_LEN.toNat ∧ groupsValue rd t.OUT_LEN.toNat = s.ARG.toNat ∧
      (t.OUT_LEN.toNat = 1 ∨ 2 ^ (7 * (t.OUT_LEN.toNat - 1)) ≤ s.ARG.toNat) ∧
      ∀ i, i < t.OUT_LEN.toNat → Store.read t.OUT i = some (rd i) := by
  rcases execPutuvarint_cases s with he | he <;> rw [he] at h <;> cases h
  obtain ⟨-, -, hshort, -⟩ := putuvarintBytes_spec s.ARG
  obtain ⟨⟨rd, hv, hval, hread⟩, -⟩ := read_putuvarintBytes s.OUT s.ARG
  rw [putuvarintDone_outLen]
  exact ⟨rd, hv, hval, hshort, hread⟩

/-- Whatever agrees with what `PUTUVARINT` emitted starts with a varint of `ARG`. -/
theorem isVarint_of_read_emitted {s t : State} {rd : Nat → Byte} (h : exec .putuvarint s = .next t)
    (hread : ∀ i, i < t.OUT_LEN.toNat → Store.read t.OUT i = some (rd i)) :
    IsVarint rd t.OUT_LEN.toNat ∧ groupsValue rd t.OUT_LEN.toNat = s.ARG.toNat := by
  obtain ⟨rd', hv, hval, -, hread'⟩ := execPutuvarint_emits h
  have hsame : ∀ i, i < t.OUT_LEN.toNat → rd' i = rd i := fun i hi =>
    Option.some.inj ((hread' i hi).symm.trans (hread i hi))
  exact ⟨isVarint_congr hsame hv, (groupsValue_congr hsame).symm.trans hval⟩

/-- An input `UVARINT` accepts starts with a varint, `VALUE` and `NBYTES` its value and length (R131, R134). -/
theorem execUvarint_accepts {u w : State} (h : exec .uvarint u = .next w) (hok : w.STATUS = .ok) :
    IsVarint u.readIn w.NBYTES.toNat ∧ w.VALUE.toNat = groupsValue u.readIn w.NBYTES.toNat := by
  rcases execUvarint_cases u with ⟨v, n, hr, -⟩ | ⟨-, he⟩ | ⟨-, he⟩
  · obtain ⟨hv, hn, -⟩ := uvarintRun_ok hr
    obtain ⟨w', he, hval, hcount, -⟩ := uvarintDecodesVarint u n hv hn
    rw [h] at he; cases he
    rw [hcount]
    exact ⟨hv, hval⟩
  · rw [h] at he; cases he; cases hok
  · rw [h] at he; cases he; cases hok

/-- Settles O18: what was emitted reads back as a varint of `ARG`, which `UVARINT` decodes; and what was accepted is a
varint of the same value, so not shorter than the shortest one, and of its length just if it has its bytes. -/
theorem varintRoundTrip : Obligations.VarintRoundTrip := by
  refine ⟨fun s t u hput hlen hbytes => ?_, fun u w s t hget hok harg hput => ?_⟩
  · obtain ⟨hv, hval⟩ := isVarint_of_read_emitted hput hbytes
    obtain ⟨w, hex, hvalue, hcount, hw⟩ := uvarintDecodesVarint u _ hv hlen
    exact ⟨w, hex, congrArg State.STATUS hw, BitVec.eq_of_toNat_eq (hvalue.trans hval), hcount⟩
  · obtain ⟨hvIn, hvalIn⟩ := execUvarint_accepts hget hok
    obtain ⟨rd, hv, hval, hshort, hread⟩ := execPutuvarint_emits hput
    rw [harg] at hval hshort
    have hle : t.OUT_LEN.toNat ≤ w.NBYTES.toNat := by
      rcases hshort with h1 | hpow
      · rw [h1]; exact hvIn.pos
      · have hlt : w.VALUE.toNat < 2 ^ (7 * w.NBYTES.toNat) := hvalIn ▸ groupsValue_lt _ _
        have := (Nat.pow_lt_pow_iff_right (by decide)).1 (hpow.trans_lt hlt)
        omega
    refine ⟨hle, fun heq i hi => ?_, fun hbytes => ?_⟩
    · rw [heq] at hv hval hread
      rw [hread i hi, hv.bytes_eq hvIn (hval.trans hvalIn) i hi]
    · exact isVarint_unique (isVarint_of_read_emitted hput fun i hi => hbytes i (hi.trans_le hle)).1 hvIn

end Sys2Proof.Machine
end

section
/-! A run of `DECOMPRESS` (R150, R169, R172, R295): what holds of it in its chunk steps and at its end, that each step keeps
the one or reaches the other, and how far the cursor `S` moves on the way. -/

namespace Sys2Proof.Machine

/-! ## What holds along the run -/

/-- The block of `s` begins with a varint of the value `n`, its header (R151). -/
def HeaderIs (s : State) (n : Nat) : Prop :=
  ∃ k, IsVarint s.readIn k ∧ k ≤ s.IN_LEN.toNat ∧ n = groupsValue s.readIn k

/-- `t` stands in the chunk steps of the `DECOMPRESS` that the host STARTs in `s` (R150, R172). -/
structure InChunks (s t : State) : Prop where
  phase  : t.PHASE = .run
  host   : t.host = []
  stage  : t.stage = .chunks
  inLen  : t.IN_LEN = s.IN_LEN
  inv    : ChunksInv t
  header : HeaderIs s t.DLEN.toNat

/-- The `DECOMPRESS` that the host STARTs in `s` has ended in `t`: with the output the header announces, or with an error and
no output (R172). -/
structure DecompressEnded (s t : State) : Prop where
  phase   : t.PHASE = .done
  host    : t.host = []
  length  : t.STATUS = .ok → HeaderIs s t.OUT_LEN.toNat
  defined : t.STATUS = .ok → ∀ a, a < t.OUT_LEN.toNat → ∃ b, Store.read t.OUT a = some b
  failed  : t.STATUS ≠ .ok → ∃ k, EndsWithError t k

theorem decompressEnded_raise (s : State) {t : State} (k : ErrKind) (hh : t.host = []) : DecompressEnded s (raise k t) where
  phase := rfl
  host := hh
  length := fun h => absurd h (status_ne_ok k)
  defined := fun h => absurd h (status_ne_ok k)
  failed := fun _ => ⟨k, endsWithError_raise k t⟩

theorem dlen_setWidth_toNat (s : State) : (s.DLEN.setWidth 64).toNat = s.DLEN.toNat := by
  have := s.DLEN.isLt
  rw [BitVec.toNat_setWidth]; omega

/-- At the end of the block the output is as long as the header says and all of it is defined. -/
theorem InChunks.ended {s t : State} (h : InChunks s t) (hD : t.D = t.DLEN.toNat) :
    DecompressEnded s (succeed (t.DLEN.setWidth 64) t) where
  phase := rfl
  host := h.host
  length := fun _ => by rw [succeed_OUT_LEN, dlen_setWidth_toNat]; exact h.header
  defined := fun _ a ha => by
    rw [succeed_OUT_LEN, dlen_setWidth_toNat, ← hD] at ha
    exact (dense_read h.inv.cells a).2 ha
  failed := fun hs => absurd rfl hs

/-! ## Its steps -/

/-- An accepted length fits the 32 bits of `DLEN` (R151). -/
theorem headerDone_DLEN_toNat {s : State} {v : Word64} {n : Nat} (hv : v.toNat ≤ Config.maxDecodedLen) :
    (headerDone v n s).DLEN.toNat = v.toNat := by
  show (v.setWidth 32).toNat = _
  simp only [Config.maxDecodedLen] at hv
  rw [BitVec.toNat_setWidth]; omega

/-- The header step after START: an accepted header of at least one byte, or an error (R92, R151). -/
theorem step_started {s : State} (h : AboutToStart 0 s) :
    ∃ t, step (started s) = .next t ∧ (InChunks s t ∧ 1 ≤ t.S ∨ DecompressEnded s t) := by
  obtain ⟨hp, hh, hst, hop, -⟩ := started_begun s
  rw [h.op] at hop
  have hstep : step (started s) = headerStep (started s) := by
    rw [step_run hp hh, engineStep_begin hst, hop]
    exact execDecompress_header (by rw [hst]; rintro ⟨⟩)
  have bad : ∀ k, DecompressEnded s (raise k (headerRan (started s))) := fun k => decompressEnded_raise s k hh
  rw [hstep]
  rcases headerStep_cases (started s) with ⟨-, he⟩ | ⟨-, he⟩ | ⟨v, n, hr, ⟨-, he⟩ | ⟨hv, hf, he⟩ | ⟨-, hf, -⟩⟩
  · exact ⟨_, he, .inr (bad _)⟩
  · exact ⟨_, he, .inr (bad _)⟩
  · exact ⟨_, he, .inr (bad _)⟩
  · have hinv := chunksInv_headerDone hop hr hv hf
    obtain ⟨hvarint, hn, hval⟩ := uvarintRun_ok hr
    rw [funext (started_readIn s)] at hvarint hval
    rw [started_IN_LEN] at hn
    exact ⟨_, he, .inl ⟨⟨hp, hh, rfl, started_IN_LEN s, hinv, n, hvarint, hn, (headerDone_DLEN_toNat hv).trans hval⟩,
      hvarint.pos⟩⟩
  · rw [started_caps, h.outUnbounded, fits_none] at hf; cases hf

/-- A step among the chunks: a chunk that moves `S` on by two or more, or the end (R152, R165, R169). -/
theorem InChunks.step_cases {s t : State} (h : InChunks s t) :
    ∃ u, step t = .next u ∧ (InChunks s u ∧ t.S + 2 ≤ u.S ∨ DecompressEnded s u) := by
  rw [step_run h.phase h.host]
  by_cases hs : t.S < t.IN_LEN.toNat
  · have hi := chunkAt_isChunk t
    obtain ⟨u, hu⟩ := chunk_next hi (fetchChunk t)
    rw [engineStep_chunk h.stage hs, hu]
    refine ⟨u, rfl, ?_⟩
    have hh : u.host = [] := (chunk_keepsInputs hi hu).host.trans h.host
    rcases chunk_step hi hu with ⟨e, -, hr⟩ | ⟨hf, -, -, hS, -⟩
    · right
      rw [hr]; exact decompressEnded_raise s e hh
    · left
      have hp : u.PHASE = .run := by rw [hf]; exact h.phase
      obtain ⟨hop, hcur, hD, hl, hcells, hroom⟩ := h.inv
      exact ⟨{
        phase := hp
        host := hh
        stage := by rw [hf]; exact h.stage
        inLen := by rw [hf]; exact h.inLen
        inv := chunksInv_chunk (s := fetchChunk t) ⟨hop, hcur, hD, hl, hcells, hroom⟩ hi hu hp
        header := by rw [hf]; exact h.header }, hS⟩
  · rw [engineStep_end h.stage hs]
    rcases endStep_cases t with ⟨-, he⟩ | ⟨hD, he⟩
    · exact ⟨_, he, .inr (decompressEnded_raise s _ h.host)⟩
    · exact ⟨_, he, .inr (h.ended hD)⟩

/-! ## Its end -/

/-- Each chunk takes two bytes of the block or more, so `S` reaches the end of the block, or an error, in time. -/
theorem InChunks.terminates {s t : State} (h : InChunks s t) :
    ∃ n u, n ≤ (s.IN_LEN.toNat - t.S) / 2 + 1 ∧ steps n t = .next u ∧ u.PHASE = .done := by
  induction hr : s.IN_LEN.toNat - t.S using Nat.strongRecOn generalizing t with
  | _ r ih =>
    obtain ⟨u, hu, ⟨hc, hS⟩ | he⟩ := h.step_cases
    · have hcur := hc.inv.cursor
      rw [hc.inLen] at hcur
      obtain ⟨n, w, hn, hw, hd⟩ := ih _ (by omega) hc rfl
      exact ⟨n + 1, w, by omega, by rw [steps_succ_next hu, hw], hd⟩
    · exact ⟨1, u, by omega, steps_succ_next hu, he.phase⟩

/-- Settles O48: START, then the header step (`step_started`), which takes at least one byte, then the chunks and the end step
(`InChunks.terminates`). -/
theorem decompressTerminates : Obligations.DecompressTerminates := by
  intro s h
  obtain ⟨t, ht, ⟨hc, hS⟩ | he⟩ := step_started h
  · obtain ⟨n, u, hn, hu, hd⟩ := hc.terminates
    exact ⟨n + 1, u, by omega, by rw [steps_aboutToStart h, steps_succ_next ht, hu], hd⟩
  · exact ⟨1, t, by omega, by rw [steps_aboutToStart h, steps_succ_next ht]; rfl, he.phase⟩

/-- Where a run of `DECOMPRESS` can stand: before its header step, in its chunk steps, or at its end (R150). -/
def DecompressRun (s t : State) : Prop := t = started s ∨ InChunks s t ∨ DecompressEnded s t

theorem DecompressRun.keep {s t u : State} (h : AboutToStart 0 s) (ht : DecompressRun s t) (hu : step t = .next u) :
    DecompressRun s u := by
  rcases ht with rfl | hc | he
  · obtain ⟨v, hv, hr⟩ := step_started h
    rw [hu] at hv; cases hv
    exact .inr (hr.imp_left And.left)
  · obtain ⟨v, hv, hr⟩ := hc.step_cases
    rw [hu] at hv; cases hv
    exact .inr (hr.imp_left And.left)
  · rw [step_rest (by rw [he.phase]; rintro ⟨⟩) he.host] at hu; cases hu
    exact .inr (.inr he)

/-- Settles O50: every step keeps `DecompressRun`, whose states with `PHASE` = DONE are the ended ones. -/
theorem outputLengthIsHeaderValue : Obligations.OutputLengthIsHeaderValue := by
  intro s t n h hrun hdone
  rw [steps_aboutToStart h] at hrun
  have ht : DecompressRun s t := steps_keep (fun _ _ => DecompressRun.keep h) (.inl rfl) hrun
  rcases ht with rfl | hc | he
  · rw [(started_begun s).phase] at hdone; cases hdone
  · rw [hc.phase] at hdone; cases hdone
  · refine ⟨fun hok => ?_, he.failed⟩
    obtain ⟨k, hv, hk, hval⟩ := he.length hok
    exact ⟨k, hv, hk, hval, he.defined hok⟩

end Sys2Proof.Machine
end

section
/-! The literal chunks (R153 to R159, R167, R248): all five kinds as one form with a length field, when it completes, what it
leaves, and how it fails. -/

namespace Sys2Proof.Machine

/-- A chunk some of whose length or offset bytes are missing ends in Corrupt, whatever else is wrong with it (R248). -/
theorem truncated_corrupt {i : Instr} {s : State} (h2 : 2 ≤ i.fixedBytes) (h : s.IN_LEN.toNat < s.S + i.fixedBytes) :
    ∃ t, exec i s = .next t ∧ EndsWithError t .corrupt :=
  ⟨_, exec_truncated h2 h, endsWithError_raise _ _⟩

/-! ## The form -/

/-- The length field `X` of a literal chunk (R153 to R157). -/
def literalField : Instr → Option Word32
  | .lit m  => some (litField m)
  | .lit1 x => some (lit1Field x)
  | .lit2 x => some (lit2Field x)
  | .lit3 x => some (lit3Field x)
  | .lit4 x => some x
  | _       => none

section
variable {i : Instr} {x : Word32} (hi : literalField i = some x)
include hi

theorem literal_fixedBytes_pos : 1 ≤ i.fixedBytes := by
  cases i with
  | lit m | lit1 x | lit2 x | lit3 x | lit4 x => simp [Instr.fixedBytes]
  | _ => cases hi

/-- With its length bytes in the block a literal runs the literal tail; a `LIT`, which has none, does so always. -/
theorem exec_literal {s : State} (hp : s.S + i.fixedBytes ≤ s.IN_LEN.toNat ∨ i.fixedBytes = 1) :
    exec i s = literalTail i.fixedBytes x s := by
  have present : i.fixedBytes ≠ 1 → fixedPartPresent i.fixedBytes s = true := fun h1 =>
    (fixedPartPresent_iff _ s).2 (hp.resolve_right h1)
  cases i with
  | lit m => cases hi; rfl
  | lit1 x | lit2 x | lit3 x | lit4 x => cases hi; exact if_pos (present (by rintro ⟨⟩))
  | _ => cases hi

/-- A literal runs its tail, or its length bytes are missing. -/
theorem exec_literal_cases (s : State) : exec i s = literalTail i.fixedBytes x s ∨
    2 ≤ i.fixedBytes ∧ s.IN_LEN.toNat < s.S + i.fixedBytes := by
  have hpos := literal_fixedBytes_pos hi
  by_cases hp : s.S + i.fixedBytes ≤ s.IN_LEN.toNat ∨ i.fixedBytes = 1
  · exact .inl (exec_literal hi hp)
  · exact .inr (by omega)

/-- A literal that does not raise is done. -/
theorem literal_running {s t : State} (he : exec i s = .next t) (ht : t.PHASE = .run) :
    t = literalDone i.fixedBytes x s := by
  rcases exec_literal_cases hi s with h | ⟨h2, hlt⟩
  · rw [h] at he
    rcases literalTail_cases i.fixedBytes x s with ⟨-, h1⟩ | ⟨-, -, -, h1⟩ | ⟨-, -, -, -, h1⟩ <;> rw [h1] at he <;> cases he
    · cases ht
    · cases ht
    · rfl
  · rw [exec_truncated h2 hlt] at he; cases he; cases ht

theorem literal_moves_S {s t : State} (he : exec i s = .next t) (ht : t.PHASE = .run) :
    t.S = s.S + i.fixedBytes + t.LEN.toNat := by
  rw [literal_running hi he ht]; rfl

end

/-! ## Completion and errors -/

/-- The chunk `i` is a literal of `n` bytes, a legal length (R158), with length field `x`. -/
structure LiteralOf (i : Instr) (x : Word32) (n : Nat) : Prop where
  field  : literalField i = some x
  length : x.toNat + 1 = n
  legal  : n ≤ 0x7fffffff

theorem literalOf_lit (m : BitVec 6) : LiteralOf (.lit m) (litField m) (m.toNat + 1) :=
  ⟨rfl, by rw [litField_toNat], by have := m.isLt; omega⟩

theorem literalOf_lit1 (x : BitVec 8) : LiteralOf (.lit1 x) (lit1Field x) (x.toNat + 1) :=
  ⟨rfl, by rw [lit1Field_toNat], by have := x.isLt; omega⟩

theorem literalOf_lit2 (x : BitVec 16) : LiteralOf (.lit2 x) (lit2Field x) (x.toNat + 1) :=
  ⟨rfl, by rw [lit2Field_toNat], by have := x.isLt; omega⟩

theorem literalOf_lit3 (x : BitVec 24) : LiteralOf (.lit3 x) (lit3Field x) (x.toNat + 1) :=
  ⟨rfl, by rw [lit3Field_toNat], by have := x.isLt; omega⟩

theorem literalOf_lit4 {x : BitVec 32} (hx : x.toNat < 0x7fffffff) : LiteralOf (.lit4 x) x (x.toNat + 1) := ⟨rfl, rfl, hx⟩

section
variable {i : Instr} {x : Word32} {n : Nat} {s : State} (h : LiteralOf i x n)
include h

theorem LiteralOf.len_toNat : (literalLen x).toNat = n := by
  have := h.length
  have := h.legal
  rw [literalLen_toNat]; omega

theorem LiteralOf.effect (s : State) (k : Nat) : LiteralEffect s (literalDone k x s) k n := by
  have hlen := h.len_toNat
  have hX : x = BitVec.ofNat 32 (n - 1) := by
    rw [← h.length, Nat.add_sub_cancel, BitVec.ofNat_toNat, BitVec.setWidth_eq]
  have hLEN : literalLen x = BitVec.ofNat 32 n := by
    rw [← hlen, BitVec.ofNat_toNat, BitVec.setWidth_eq]
  refine ⟨?_, fun a => ?_⟩
  · unfold literalDone
    rw [hlen, ← hX, ← hLEN]
  · show Store.read (Store.writeList s.OUT s.D (s.inBytes (s.S + k) (literalLen x).toNat)) a = _
    rw [read_writeList, inBytes_length, hlen]
    split
    · next ha => exact inBytes_getElem? s _ _ _ (by omega)
    · rfl

/-- A literal whose payload lies in the block and fits the output completes (R159). -/
theorem LiteralOf.completes (hin : s.S + i.fixedBytes + n ≤ s.IN_LEN.toNat) (hout : s.D + n ≤ s.DLEN.toNat) :
    ∃ t, exec i s = .next t ∧ LiteralEffect s t i.fixedBytes n := by
  have hlen := h.len_toNat
  have hpos := h.length
  have hmax := h.legal
  refine ⟨literalDone i.fixedBytes x s, ?_, h.effect s _⟩
  rw [exec_literal h.field (.inl (by omega)), literalTail_eq, if_neg (by omega), if_neg (by omega)]

/-- A literal of a legal length with no room in the output, or with bytes missing in the block, is Corrupt (R159). -/
theorem LiteralOf.corrupt (hbad : s.DLEN.toNat < s.D + n ∨ s.IN_LEN.toNat < s.S + i.fixedBytes + n) :
    ∃ t, exec i s = .next t ∧ EndsWithError t .corrupt := by
  have hlen := h.len_toNat
  have hpos := h.length
  have hmax := h.legal
  rcases exec_literal_cases h.field s with he | ⟨h2, hlt⟩
  · rw [he, literalTail_eq, if_neg (by omega), if_pos (by omega)]
    exact ⟨_, rfl, endsWithError_raise _ _⟩
  · exact truncated_corrupt h2 hlt

/-- A literal finds no room in a full output, since its length is at least 1 (R167). -/
theorem LiteralOf.corrupt_of_full (hfull : s.D = s.DLEN.toNat) : ∃ t, exec i s = .next t ∧ EndsWithError t .corrupt := by
  have hpos := h.length
  exact h.corrupt (.inl (by omega))

end

/-- A `LIT4` with its length bytes in the block and an illegal length is Unsupported before its bounds are looked at (R158). -/
theorem lit4_unsupported {s : State} {x : BitVec 32} (hp : s.S + 5 ≤ s.IN_LEN.toNat) (hx : 0x7fffffff ≤ x.toNat) :
    ∃ t, exec (.lit4 x) s = .next t ∧ EndsWithError t .unsupported := by
  have hlen := literalLen_toNat x
  have := x.isLt
  rw [exec_literal (x := x) rfl (.inl hp), literalTail_eq, if_pos (by omega)]
  exact ⟨_, rfl, endsWithError_raise _ _⟩

theorem lit4_of_full {s : State} (hfull : s.D = s.DLEN.toNat) (x : BitVec 32) :
    ∃ t, exec (.lit4 x) s = .next t ∧ (EndsWithError t .corrupt ∨ EndsWithError t .unsupported) := by
  by_cases hx : x.toNat < 0x7fffffff
  · obtain ⟨t, he, ht⟩ := (literalOf_lit4 hx).corrupt_of_full hfull
    exact ⟨t, he, .inl ht⟩
  · by_cases hp : s.S + 5 ≤ s.IN_LEN.toNat
    · obtain ⟨t, he, ht⟩ := lit4_unsupported hp (Nat.le_of_not_lt hx)
      exact ⟨t, he, .inr ht⟩
    · obtain ⟨t, he, ht⟩ := truncated_corrupt (i := .lit4 x) (by simp [Instr.fixedBytes]) (Nat.lt_of_not_le hp)
      exact ⟨t, he, .inl ht⟩

/-- Settles O20: each form is `LiteralOf.completes` at its length field. -/
theorem literalsMovePayload : Obligations.LiteralsMovePayload := fun _ =>
  ⟨fun m => (literalOf_lit m).completes, fun x => (literalOf_lit1 x).completes, fun x => (literalOf_lit2 x).completes,
    fun x => (literalOf_lit3 x).completes, fun _ hx => (literalOf_lit4 hx).completes⟩

/-- Settles O21: missing length bytes are `truncated_corrupt`, an illegal length is `lit4_unsupported`, and a failing bound is
`LiteralOf.corrupt` at the form's length field. -/
theorem literalErrorsInOrder : Obligations.LiteralErrorsInOrder := fun _ =>
  ⟨fun x => truncated_corrupt (i := .lit1 x) (by simp [Instr.fixedBytes]),
    fun x => truncated_corrupt (i := .lit2 x) (by simp [Instr.fixedBytes]),
    fun x => truncated_corrupt (i := .lit3 x) (by simp [Instr.fixedBytes]),
    fun x => truncated_corrupt (i := .lit4 x) (by simp [Instr.fixedBytes]),
    fun _ => lit4_unsupported, fun m => (literalOf_lit m).corrupt, fun x => (literalOf_lit1 x).corrupt,
    fun x => (literalOf_lit2 x).corrupt, fun x => (literalOf_lit3 x).corrupt, fun _ hx => (literalOf_lit4 hx).corrupt⟩

end Sys2Proof.Machine
end

section
/-! The copy chunks (R160 to R163, R168, R248): both kinds as one form with a length and an offset, when it completes, what it
leaves, and how it fails. -/

namespace Sys2Proof.Machine

/-! ## The form -/

/-- The operands `LEN` and `OFF` of a copy chunk (R160, R161). -/
def copyOperands : Instr → Option (Word32 × BitVec 16)
  | .copy1 l off => some (copy1Len l, copy1Off off)
  | .copy2 m off => some (copy2Len m, off)
  | _            => none

section
variable {i : Instr} {len : Word32} {off : BitVec 16} (hi : copyOperands i = some (len, off))
include hi

theorem two_le_copy_fixedBytes : 2 ≤ i.fixedBytes := by
  cases i with
  | copy1 l o | copy2 m o => simp [Instr.fixedBytes]
  | _ => cases hi

/-- With its offset bytes in the block a copy runs the copy tail. -/
theorem exec_copy {s : State} (hp : s.S + i.fixedBytes ≤ s.IN_LEN.toNat) : exec i s = copyTail i.fixedBytes len off s := by
  have present := (fixedPartPresent_iff _ s).2 hp
  cases i with
  | copy1 l o | copy2 m o => cases hi; exact if_pos present
  | _ => cases hi

/-- A copy that does not raise has run the copy engine. -/
theorem copy_running {s t : State} (he : exec i s = .next t) (ht : t.PHASE = .run) :
    t = copyLoop off.toNat len.toNat (copyFetched i.fixedBytes len off s) := by
  by_cases hp : s.S + i.fixedBytes ≤ s.IN_LEN.toNat
  · rw [exec_copy hi hp] at he
    rcases copyTail_cases i.fixedBytes len off s with ⟨-, h1⟩ | ⟨-, -, h1⟩ <;> rw [h1] at he <;> cases he
    · cases ht
    · rfl
  · rw [exec_truncated (two_le_copy_fixedBytes hi) (Nat.lt_of_not_le hp)] at he; cases he; cases ht

theorem copy_moves_S {s t : State} (he : exec i s = .next t) (ht : t.PHASE = .run) : t.S = s.S + i.fixedBytes := by
  rw [copy_running hi he ht, copyLoop_frame]; rfl

end

/-! ## Completion and errors -/

/-- The chunk `i` is a copy of `n` bytes from offset `o`, with operands `len` and `off`. -/
structure CopyOf (i : Instr) (len : Word32) (off : BitVec 16) (n o : Nat) : Prop where
  operands : copyOperands i = some (len, off)
  length   : len.toNat = n
  offset   : off.toNat = o

theorem copyOf_copy1 (l : BitVec 3) (off : BitVec 11) :
    CopyOf (.copy1 l off) (copy1Len l) (copy1Off off) (4 + l.toNat) off.toNat := ⟨rfl, copy1Len_toNat l, copy1Off_toNat off⟩

theorem copyOf_copy2 (m : BitVec 6) (off : BitVec 16) : CopyOf (.copy2 m off) (copy2Len m) off (1 + m.toNat) off.toNat :=
  ⟨rfl, copy2Len_toNat m, rfl⟩

section
variable {i : Instr} {len : Word32} {off : BitVec 16} {n o : Nat} {s : State}

/-- The registers a copy has written when its tests begin, by the values of its operands. -/
theorem CopyOf.copyFetched_eq (h : CopyOf i len off n o) (k : Nat) (s : State) : copyFetched k len off s =
    { s with LEN := BitVec.ofNat 32 n, OFF := BitVec.ofNat 16 o, S := s.S + k } := by
  rw [← h.length, ← h.offset, BitVec.ofNat_toNat, BitVec.ofNat_toNat, BitVec.setWidth_eq, BitVec.setWidth_eq]; rfl

/-- A copy whose offset is not beyond the output produced, and for which there is room, runs the copy engine (R162). -/
theorem CopyOf.exec_eq (h : CopyOf i len off n o) (hin : s.S + i.fixedBytes ≤ s.IN_LEN.toNat) (ho : o ≤ s.D)
    (hout : s.D + n ≤ s.DLEN.toNat) : exec i s = .next (copyLoop o n (copyFetched i.fixedBytes len off s)) := by
  rw [exec_copy h.operands hin, copyTail_eq, h.length, h.offset, if_neg (by omega)]

/-- A copy from written cells repeats them (R168). -/
theorem CopyOf.repeats (h : CopyOf i len off n o) (hin : s.S + i.fixedBytes ≤ s.IN_LEN.toNat) (h1 : 1 ≤ o) (ho : o ≤ s.D)
    (hout : s.D + n ≤ s.DLEN.toNat) (hd : ∀ a, s.D - o ≤ a → a < s.D → ∃ b, Store.read s.OUT a = some b) :
    ∃ t, exec i s = .next t ∧ CopyEffect s t i.fixedBytes n o := by
  obtain ⟨hdraws, hcells⟩ := copyLoop_repeats o n (s := copyFetched i.fixedBytes len off s) h1 ho hd
  refine ⟨_, h.exec_eq hin ho hout, ?_, hcells, copyLoop_read_outside o n (copyFetched i.fixedBytes len off s)⟩
  rw [copyLoop_frame, hdraws, h.copyFetched_eq]

/-- A copy with offset 0 writes drawn bytes, the cells from `D` on being undefined (R163). -/
theorem CopyOf.draws (h : CopyOf i len off n 0) (hu : ∀ a, s.D ≤ a → Store.read s.OUT a = none)
    (hin : s.S + i.fixedBytes ≤ s.IN_LEN.toNat) (hout : s.D + n ≤ s.DLEN.toNat) :
    ∃ t, exec i s = .next t ∧ DrawnCopyEffect s t i.fixedBytes n := by
  obtain ⟨hdraws, hcells⟩ := copyLoop_draws n (s := copyFetched i.fixedBytes len off s) hu
  refine ⟨_, h.exec_eq hin (Nat.zero_le _) hout, ?_, hcells, copyLoop_read_outside 0 n (copyFetched i.fixedBytes len off s)⟩
  rw [copyLoop_frame, hdraws, h.copyFetched_eq]; rfl

/-- A copy with an offset byte missing, with an offset beyond the output produced or with no room is Corrupt (R160 to R162). -/
theorem CopyOf.corrupt (h : CopyOf i len off n o)
    (hbad : s.IN_LEN.toNat < s.S + i.fixedBytes ∨ s.D < o ∨ s.DLEN.toNat < s.D + n) :
    ∃ t, exec i s = .next t ∧ EndsWithError t .corrupt := by
  by_cases hin : s.S + i.fixedBytes ≤ s.IN_LEN.toNat
  · rw [exec_copy h.operands hin, copyTail_eq, h.length, h.offset, if_pos (by omega)]
    exact ⟨_, rfl, endsWithError_raise _ _⟩
  · exact truncated_corrupt (two_le_copy_fixedBytes h.operands) (Nat.lt_of_not_le hin)

end

/-- Settles O22: each form is `CopyOf.repeats` at its operands. -/
theorem copiesRepeatPattern : Obligations.CopiesRepeatPattern := fun _ =>
  ⟨fun l off => (copyOf_copy1 l off).repeats, fun m off => (copyOf_copy2 m off).repeats⟩

/-- Settles O23: each form is `CopyOf.draws` at its length. -/
theorem offsetZeroCopyDraws : Obligations.OffsetZeroCopyDraws := fun _ hu =>
  ⟨fun l => (copyOf_copy1 l 0).draws hu, fun m => (copyOf_copy2 m 0).draws hu⟩

/-- Settles O24: each form is `CopyOf.corrupt` at its operands. -/
theorem copyErrorsAreCorrupt : Obligations.CopyErrorsAreCorrupt := fun _ =>
  ⟨fun l off => (copyOf_copy1 l off).corrupt, fun m off => (copyOf_copy2 m off).corrupt⟩

end Sys2Proof.Machine
end

section
/-! The chunks of any kind, and the first and the last step of `DECOMPRESS` (R151, R164, R165, R167, R169, R170). -/

namespace Sys2Proof.Machine

/-! ## Tag 3 (R164) -/

theorem copy4_unsupported (m : BitVec 6) (s : State) : exec (.copy4 m) s = .next (raise .unsupported s) := rfl

/-- A tag byte with low bits 11 stands for a `COPY4` whatever follows (R103). -/
theorem chunkAt_tagThree {s : State} (hs : s.S < s.IN_LEN.toNat) (h3 : (s.readIn s.S).toNat % 4 = 3) :
    chunkAt s = .copy4 (mBits (s.readIn s.S)) := by
  have ht : tagBits (s.readIn s.S) = 3#2 := BitVec.eq_of_toNat_eq ((tagBits_toNat _).trans h3)
  rw [← blockByte_lt hs] at ht ⊢
  exact decodeWindow_copy4 _ _ _ _ ht

/-- Settles O25: the chunk at such a tag byte is a `COPY4` (`chunkAt_tagThree`), which raises at once. -/
theorem tagThreeIsUnsupported : Obligations.TagThreeIsUnsupported := by
  refine ⟨fun m s => ⟨_, copy4_unsupported m s, endsWithError_raise _ _, rfl⟩, fun s hp hh hst hs h3 => ?_⟩
  rw [step_run hp hh, engineStep_chunk hst hs, chunkAt_tagThree hs h3]
  exact ⟨_, copy4_unsupported _ _, endsWithError_raise _ _, rfl⟩

/-! ## A full output (R167) -/

/-- Settles O28: a literal or a copy of at least one byte finds no room; a `LIT4` may fail before (`lit4_of_full`). -/
theorem fullOutputMakesEveryChunkFail : Obligations.FullOutputMakesEveryChunkFail := fun s hfull =>
  ⟨fun m => (literalOf_lit m).corrupt_of_full hfull, fun x => (literalOf_lit1 x).corrupt_of_full hfull,
    fun x => (literalOf_lit2 x).corrupt_of_full hfull, fun x => (literalOf_lit3 x).corrupt_of_full hfull,
    lit4_of_full hfull, fun l off => (copyOf_copy1 l off).corrupt (by omega),
    fun m off => (copyOf_copy2 m off).corrupt (by omega), fun m => ⟨_, copy4_unsupported m s, endsWithError_raise _ _⟩⟩

/-! ## The cursors (R169, R170) -/

/-- A chunk that does not raise produces `LEN` bytes (R169). -/
theorem chunk_moves_D {i : Instr} {s t : State} (hi : isChunk i = true) (he : exec i s = .next t) (ht : t.PHASE = .run) :
    t.D = s.D + t.LEN.toNat := by
  rcases chunk_cases i hi s with ⟨k, x, h, -⟩ | ⟨k, len, off, h, -⟩ | ⟨e, x, len, off, c, h, -⟩ <;> rw [h] at he <;> cases he
  · rfl
  · rw [copyLoop_frame]; rfl
  · cases ht

/-- Settles O27: `S` moves by form (`literal_moves_S`, `copy_moves_S`), `COPY4` never goes on, and every chunk that goes on
produces `LEN` bytes (`chunk_moves_D`) inside the bounds (`chunk_step`). -/
theorem chunksAdvanceCursors : Obligations.ChunksAdvanceCursors := by
  intro i s t _ _ he ht
  refine ⟨?_, ?_, ?_, ?_, ?_, ?_, ?_, ?_, fun hchunk => ?_⟩
  · rintro ⟨m, rfl⟩; exact literal_moves_S rfl he ht
  · rintro ⟨x, rfl⟩; exact literal_moves_S rfl he ht
  · rintro ⟨x, rfl⟩; exact literal_moves_S rfl he ht
  · rintro ⟨x, rfl⟩; exact literal_moves_S rfl he ht
  · rintro ⟨x, rfl⟩; exact literal_moves_S rfl he ht
  · rintro ⟨l, off, rfl⟩; exact copy_moves_S rfl he ht
  · rintro ⟨m, off, rfl⟩; exact copy_moves_S rfl he ht
  · rintro ⟨m, rfl⟩; cases he; cases ht
  · have hi := isChunk_of_encode hchunk
    have hD := chunk_moves_D hi he ht
    rcases chunk_step hi he with ⟨e, hdone, -⟩ | ⟨-, hlo, hhi, hS, hin, -⟩
    · rw [ht] at hdone; cases hdone
    · exact ⟨hD, by omega, hS, hin, hhi⟩

/-! ## The header step and the end step (R151, R165) -/

/-- The header step on a varint: too large, accepted, or refused for want of room (R31, R151). -/
theorem headerStep_of_varint {s : State} {k : Nat} (hv : IsVarint s.readIn k) (hk : k ≤ s.IN_LEN.toNat) :
    ∃ v : Word64, v.toNat = groupsValue s.readIn k ∧ headerRan s = { setVarintRegs (uvarintRun s) s with VSTAT := .ok } ∧
      headerStep s = if 0x7fffffff < groupsValue s.readIn k then .next (raise .tooLarge (headerRan s))
        else if Capacity.fits s.caps.outCap (groupsValue s.readIn k) then .next (headerDone v k s)
        else .refused .outCapacity := by
  obtain ⟨v, hval, hr⟩ : ∃ v : Word64, v.toNat = groupsValue s.readIn k ∧ (uvarintRun s).result = .ok v k :=
    uvarintLoop_ok hv hk
  refine ⟨v, hval, by rw [headerRan, hr]; rfl, ?_⟩
  rw [← hval]; exact headerStep_of_ok hr

theorem headerRan_vstat (s : State) : (headerRan s).VSTAT = (uvarintRun s).result.vstat := rfl

/-- Settles O19: a varint is `headerStep_of_varint`; without one the decoder answers TRUNC or OVF (`uvarintLoop_trunc`,
`uvarintLoop_ovf`), which is Corrupt. -/
theorem headerStepAcceptsOrRejects : Obligations.HeaderStepAcceptsOrRejects := by
  intro s hst
  rw [execDecompress_header (by rw [hst]; rintro ⟨⟩)]
  refine ⟨fun k hv hk hmax hf => ?_, fun k hv hk hmax hf => ?_, fun k hv hk hbig => ?_, fun hl hc => ?_, fun hc h => ?_⟩
  · obtain ⟨v, hval, hran, he⟩ := headerStep_of_varint hv hk
    rw [he, if_neg (Nat.not_lt_of_le hmax), if_pos hf]
    rw [← hval] at hmax ⊢
    refine ⟨_, rfl, headerDone_DLEN_toNat hmax, fun _ => rfl, ?_⟩
    rw [headerDone, hran]; rfl
  · obtain ⟨v, -, -, he⟩ := headerStep_of_varint hv hk
    rw [he, if_neg (Nat.not_lt_of_le hmax), hf]; rfl
  · obtain ⟨v, -, hran, he⟩ := headerStep_of_varint hv hk
    rw [he, if_pos hbig]
    exact ⟨_, rfl, endsWithError_raise _ _, by rw [raise_VSTAT, hran]⟩
  · have hr : (uvarintRun s).result = .trunc := uvarintLoop_trunc hl hc
    exact ⟨_, headerStep_of_trunc hr, endsWithError_raise _ _, by rw [raise_VSTAT, headerRan_vstat, hr]; rfl⟩
  · have hr : (uvarintRun s).result = .ovf := uvarintLoop_ovf (by omega) hc (by omega)
    exact ⟨_, headerStep_of_ovf hr, endsWithError_raise _ _, by rw [raise_VSTAT, headerRan_vstat, hr]; rfl⟩

/-- Settles O26: at the end of the block the step is the end step (`engineStep_end`). -/
theorem endStepRequiresExactLength : Obligations.EndStepRequiresExactLength := by
  intro s hp hh hst hS
  rw [step_run hp hh, engineStep_end hst (by omega)]
  rcases endStep_cases s with ⟨hD, he⟩ | ⟨hD, he⟩
  · exact ⟨fun h => absurd h hD, fun _ => ⟨_, he, endsWithError_raise _ _⟩⟩
  · exact ⟨fun _ => ⟨_, he, dlen_setWidth_toNat s, rfl⟩, fun h => absurd hD h⟩

end Sys2Proof.Machine
end

section
/-! The pieces of `COMPRESS` by themselves: the length check and the short path as one step, the size of the table, the hash, a
miss, the last flush, and the distance of a match (R191 to R200, R204, R206, R244). -/

namespace Sys2Proof.Machine

/-! ## The first step (R191 to R193) -/

/-- An input that is too long ends the first step in InvalidInput (R191). -/
theorem execCompress_tooLong {s : State} (hst : s.stage = .begin) (hl : Config.maxInputLen < s.IN_LEN.toNat) :
    exec .compress s = .next (raise .invalidInput { s with N := s.IN_LEN.toNat }) := by
  rw [execCompress_begin (by rw [hst]; rintro ⟨⟩), compressBegin_eq, if_pos hl]; rfl

/-- Settles O33: the length check is `execCompress_tooLong`. -/
theorem tooLongInputIsInvalid : Obligations.TooLongInputIsInvalid := fun _ hst hl =>
  ⟨_, execCompress_tooLong hst hl, endsWithError_raise _ _, rfl⟩

/-- The block of a short input: its header and its literal (R193). -/
def shortBlock (s : State) : List Byte := headerBytes s ++ shortBytes (headerEmitted s)

/-- A short input ends in the first step, where its block has room (R193). -/
theorem execCompress_short {s : State} (hst : s.stage = .begin) (hl : s.IN_LEN.toNat ≤ Config.shortInputMax)
    (hf : Capacity.fits s.caps.outCap (shortBlock s).length = true) :
    exec .compress s = .next (shortDone (headerEmitted s)) := by
  rw [shortBlock, List.length_append] at hf
  rw [execCompress_begin (by rw [hst]; rintro ⟨⟩), compressBegin_go (hl.trans (by decide)) (fits_mono hf (by omega)),
    afterHeader_short (s := headerEmitted s) hl, shortInput_go (s := headerEmitted s) hl hf]; rfl

/-- An operation that has ended well with the bytes `y` written from `OUT[0]` on ends with the output `y`. -/
theorem endsWithOutput_of_writeList {t : State} {m : Memory} {y : List Byte} (hp : t.PHASE = .done) (hs : t.STATUS = .ok)
    (hl : t.OUT_LEN = BitVec.ofNat 64 y.length) (hy : y.length < 2 ^ 64) (ho : t.OUT = Store.writeList m 0 y) :
    EndsWithOutput t y where
  phase := hp
  status := hs
  len := by rw [hl, BitVec.toNat_ofNat, Nat.mod_eq_of_lt hy]
  bytes := fun i hi => by rw [ho, read_writeList, if_pos (by omega), Nat.sub_zero]

theorem shortBlock_length_le {s : State} (hl : s.IN_LEN.toNat ≤ Config.shortInputMax) :
    (shortBlock s).length ≤ 10 + s.IN_LEN.toNat := by
  have hhead := headerBytes_length_le (s := s) (hl.trans (by decide))
  have hlit : (shortBytes (headerEmitted s)).length ≤ 5 + s.IN_LEN.toNat := shortBytes_length_le _
  rw [shortBlock, List.length_append]; omega

theorem shortDone_outLen (s : State) : (shortDone (headerEmitted s)).OUT_LEN = BitVec.ofNat 64 (shortBlock s).length := by
  rw [shortBlock, List.length_append]; rfl

theorem shortDone_endsWithOutput {s : State} (hl : s.IN_LEN.toNat ≤ Config.shortInputMax) :
    EndsWithOutput (shortDone (headerEmitted s)) (shortBlock s) := by
  have hlen := shortBlock_length_le hl
  simp only [Config.shortInputMax] at hl
  refine endsWithOutput_of_writeList rfl rfl (shortDone_outLen s) (by omega) (m := s.OUT) ?_
  rw [shortBlock, writeList_append, Nat.zero_add]; rfl

/-- The header of a length below 128 is one byte (R93, R192). -/
theorem headerBytes_of_lt {s : State} (h : s.IN_LEN.toNat < 128) : headerBytes s = [BitVec.ofNat 8 s.IN_LEN.toNat] := by
  have hv : s.IN_LEN.setWidth 8 = BitVec.ofNat 8 s.IN_LEN.toNat := rfl
  rw [headerBytes_eq, putuvarintBytes, putuvarintLoop, if_pos h, hv]

/-- The block of the empty input is its header (R193). -/
theorem shortBlock_empty {s : State} (h : s.IN_LEN.toNat = 0) : shortBlock s = [0] := by
  have hlit : shortBytes (headerEmitted s) = [] := if_pos h
  rw [shortBlock, headerBytes_of_lt (by omega), h, hlit]; rfl

/-- The block of an input of 1 to 4 bytes (R193). -/
theorem shortBlock_literal {s : State} {n : Nat} (hn : s.IN_LEN.toNat = n) (h1 : 1 ≤ n) (h4 : n ≤ 4) :
    shortBlock s = BitVec.ofNat 8 n :: BitVec.ofNat 8 ((n - 1) * 4) :: s.inBytes 0 n := by
  have hN : (headerEmitted s).N = n := hn
  have hin : (headerEmitted s).inBytes 0 n = s.inBytes 0 n :=
    inBytes_congr (t := headerEmitted s) (s := s) rfl rfl 0 n
  rw [shortBlock, headerBytes_of_lt (by omega), shortBytes, hN, if_neg (by omega), literalHead, if_pos (by omega),
    Nat.shiftLeft_eq, hin, hn]; rfl

/-- A short input's first step leaves its block in `OUT` and every other register but those named as it was (R193). -/
theorem shortInput_ends {s : State} {n : Nat} {y : List Byte} (hst : s.stage = .begin) (hn : s.IN_LEN.toNat = n) (h4 : n ≤ 4)
    (hy : shortBlock s = y) (hf : Capacity.fits s.caps.outCap y.length = true) :
    ∃ t, exec .compress s = .next t ∧ EndsWithOutput t y ∧
      t = { s with N := n, W := y.length, PV := t.PV, OUT := t.OUT, OUT_LEN := BitVec.ofNat 64 y.length, STATUS := .ok
                   PHASE := .done } := by
  subst hn hy
  refine ⟨_, execCompress_short hst h4 hf, shortDone_endsWithOutput h4, ?_⟩
  rw [shortBlock, List.length_append]; rfl

/-- Settles O34: the step is `shortInput_ends`, the block `shortBlock_empty` or `shortBlock_literal`. -/
theorem shortInputIsOneLiteral : Obligations.ShortInputIsOneLiteral := by
  refine fun s hst => ⟨fun h0 hf => shortInput_ends hst h0 (by decide) (shortBlock_empty h0) hf, fun n hn h1 h4 hf => ?_⟩
  have hlen : (BitVec.ofNat 8 n :: BitVec.ofNat 8 ((n - 1) * 4) :: s.inBytes 0 n).length = n + 2 := by
    rw [List.length_cons, List.length_cons, inBytes_length]
  have hend := shortInput_ends hst hn h4 (shortBlock_literal hn h1 h4) (by rwa [hlen])
  rwa [hlen] at hend

/-! ## The table and the hash (R194, R197) -/

/-- Settles O36: `tableSize_spec` has the shape and the reason the loop stopped; the smallest is the one whose half is below
the length. -/
theorem tableSizeIsSmallestPowerOfTwo : Obligations.TableSizeIsSmallestPowerOfTwo := by
  intro n _
  obtain ⟨hlo, hhi, hpow, hstop, hhalf⟩ := tableSize_spec n
  dsimp only
  generalize (tableSize n).1 = t at *
  generalize (tableSize n).2 = h at *
  subst hpow
  have hmax : 2 ^ (32 - h) ≤ 2 ^ 14 := Nat.pow_le_pow_right (by decide) (by omega)
  refine ⟨hlo, hhi, rfl, fun hn => ⟨?_, fun j h8 _ hj => ?_⟩, fun hn => ?_⟩
  · rcases hstop with rfl | hle
    · exact hn
    · exact hle
  · refine Nat.pow_le_pow_right (by decide) ?_
    by_cases h24 : h = 24
    · omega
    · have := (Nat.pow_lt_pow_iff_right (by decide)).1 ((hhalf (by omega)).trans_le hj)
      omega
  · rcases hstop with rfl | hle
    · rfl
    · omega

/-- Settles O37: the value is `hashBucket_toNat`, a quotient of a 32-bit number. -/
theorem hashBucketIsTopBitsOfProduct : Obligations.HashBucketIsTopBitsOfProduct := by
  intro h shift hlo hhi
  rw [hashBucket_toNat h hlo]
  refine ⟨rfl, ?_⟩
  rw [Nat.div_lt_iff_lt_mul (Nat.two_pow_pos _), ← Nat.pow_add, Nat.sub_add_cancel (by omega)]
  exact Nat.mod_lt _ (by decide)

/-! ## A miss, the last flush, and the distance of a match (R199, R200, R204, R206) -/

/-- The three causes of a miss (R199). -/
theorem hitCandidate_lookup_eq_none {s : State} (hs : 18 ≤ s.SHIFT)
    (h : s.readTable (bucketAt s) = none ∨ ∃ p, s.readTable (bucketAt s) = some p ∧
      (32768 ≤ s.CS - p.toNat ∨ ∃ j, j < 4 ∧ s.readIn (p.toNat + j) ≠ s.readIn (s.CS + j))) :
    hitCandidate (lookup s) = none := by
  by_contra hne
  obtain ⟨t, ht⟩ := Option.ne_none_iff_exists'.1 hne
  obtain ⟨p, hp, rfl, hd, hw⟩ := hitCandidate_eq_some ht
  rw [lookup_CAND_eq hs] at hp
  rw [hp] at h
  obtain h | ⟨q, hq, h⟩ := h
  · cases h
  · cases hq
    obtain hfar | ⟨j, hj, hdiff⟩ := h
    · exact absurd hd (Nat.not_lt_of_le hfar)
    · exact hdiff ((readIn32_eq_iff s p.toNat s.CS).1 hw j hj)

/-- Settles O38: the step is `scanStep_of_miss`, its end state `missDone`, and the table's write `lookup_readTable`. -/
theorem scanMissAdvancesByOne : Obligations.ScanMissAdvancesByOne := by
  intro s hst hlt hs h
  have hc : hitCandidate (lookup s) = none :=
    hitCandidate_lookup_eq_none hs (h.imp_right fun ⟨p, hp, _, hm⟩ => ⟨p, hp, hm⟩)
  have he : exec .compress s = .next (missDone s) := by
    rw [execCompress_step hst hlt, scanStep_of_miss hc]; rfl
  exact ⟨_, he, readIn32_toNat s s.CS, lookup_IDX_toNat hs, lookup_CAND_eq hs, (lookup_readTable hs _).trans (if_pos rfl),
    fun i hi => (lookup_readTable hs i).trans (if_neg hi), rfl⟩

/-- Settles O40: the step is `finishScan_go`, its end state `scanDone`. -/
theorem scanEndFlushesLiteral : Obligations.ScanEndFlushesLiteral := by
  rintro s bytes hst hend - hN rfl hf
  have he : exec .compress s = .next (scanDone s) := by
    rw [execCompress_end hst (Nat.not_lt_of_le hend), finishScan_go (by omega) hf]; rfl
  exact ⟨_, he, fun a => read_writeList s.OUT s.W a _, rfl⟩

/-- Settles O46: a candidate in the table in use was entered at an earlier position (`ScanInv.candidate_lt`). -/
theorem matchDistanceInRange : Obligations.MatchDistanceInRange := by
  intro s c h hp hst _ hc
  have hlt := (h.scan hp hst).candidate_lt hc
  omega

end Sys2Proof.Machine
end

section
/-! A run of `COMPRESS` on a core with unbounded buffers (R190, R196, R206, R208, R295): START, the first step, one step for
each scan position, which moves the scan cursor on, and the final flush. -/

namespace Sys2Proof.Machine

/-! ## The scan -/

/-- `t` stands in the scan of an input of `n` bytes, on a core with unbounded buffers and a silent host (R196). -/
structure Scanning (n : Nat) (t : State) : Prop where
  phase  : t.PHASE = .run
  host   : t.host = []
  stage  : t.stage = .scan
  room   : t.caps.outCap = none
  inv    : ScanInv t
  length : t.N = n

/-- What the scan steps of `COMPRESS` keep, misses and hits. -/
structure ScanKeeps (P : State → Prop) : Prop where
  miss : ∀ {t : State}, ScanInv t → t.CS + 3 < t.N → P t → P (missDone t)
  hit  : ∀ {t : State} {p : Nat}, ScanInv t → t.CS + 3 < t.N → hitCandidate (lookup t) = some p → P t → P (hitDone p t)

/-- A hit moves the scan cursor on (R206). -/
theorem lt_hitDone_CS {t : State} {p : Nat} (hlt : t.CS + 3 < t.N) (hc : hitCandidate (lookup t) = some p) :
    t.CS < (hitDone p t).CS := by
  obtain ⟨len, hm, hend⟩ := matchEnd_of_hit hlt hc
  have h4 : 4 ≤ len := hm.min
  show t.CS < (matchEnd p t).1
  rw [hend]; dsimp only; omega

section
variable {n : Nat} {t : State} (h : Scanning n t)
include h

theorem Scanning.step_eq : step t = exec .compress t := by rw [step_run h.phase h.host, engineStep_scan h.stage]

/-- A scan step misses or hits, and goes on from further right with whatever scan steps keep (R200, R203, R206). -/
theorem Scanning.step_advances {P : State → Prop} (hP : ScanKeeps P) (hp : P t) (hlt : t.CS + 3 < t.N) :
    ∃ u, step t = .next u ∧ Scanning n u ∧ P u ∧ t.CS < u.CS := by
  rw [h.step_eq, execCompress_step h.stage hlt]
  obtain ⟨hphase, hhost, hstage, hroom, hinv, hlen⟩ := h
  cases hc : hitCandidate (lookup t) with
  | none =>
    rw [scanStep_of_miss hc]
    exact ⟨_, rfl, ⟨hphase, hhost, hstage, hroom, scanInv_missDone hinv hlt, hlen⟩, hP.miss hinv hlt hp, Nat.lt_succ_self _⟩
  | some p =>
    rw [scanStep_of_hit hinv hlt hc, hroom, fits_none, if_pos rfl]
    exact ⟨_, rfl, ⟨hphase, hhost, hstage, hroom, scanInv_hitDone hinv hlt hc, hlen⟩, hP.hit hinv hlt hc hp,
      lt_hitDone_CS hlt hc⟩

/-- With fewer than four bytes left the operation ends (R204). -/
theorem Scanning.step_end (hend : t.N ≤ t.CS + 3) : step t = .next (scanDone t) := by
  rw [h.step_eq, execCompress_end h.stage (Nat.not_lt_of_le hend), finishScan_eq h.inv, h.room, fits_none,
    if_pos (.inr rfl)]; rfl

/-- The scan reaches its end, at the latest when it has looked at every position left (R206, R295). -/
theorem Scanning.ends {P : State → Prop} (hP : ScanKeeps P) (hp : P t) :
    ∃ k u, k ≤ n - 3 - t.CS + 1 ∧ steps k t = .next (scanDone u) ∧ Scanning n u ∧ P u := by
  induction hr : n - t.CS using Nat.strongRecOn generalizing t with
  | _ r ih =>
    have hlen := h.length
    by_cases hlt : t.CS + 3 < t.N
    · obtain ⟨u, hu, hs, hpu, hcs⟩ := h.step_advances hP hp hlt
      obtain ⟨k, v, hk, hv, hend⟩ := ih _ (by omega) hs hpu rfl
      exact ⟨k + 1, v, by omega, by rw [steps_succ_next hu, hv], hend⟩
    · exact ⟨1, t, by omega, steps_succ_next (h.step_end (Nat.le_of_not_lt hlt)), h, hp⟩

end

/-! ## The whole run -/

/-- The step after START is the first step of the operation `OP` selects (R22, R25). -/
theorem step_started_eq (s : State) : step (started s) = exec (decodeOp s.OP) (started s) := by
  obtain ⟨hp, hh, hst, hop, -⟩ := started_begun s
  rw [step_run hp hh, engineStep_begin hst, hop]

section
variable {s : State} (h : AboutToStart 1 s)
include h

theorem started_compress : step (started s) = exec .compress (started s) := by rw [step_started_eq, h.op]; rfl

/-- The first step on a longer input leaves a scan at its start (R191 to R196). -/
theorem started_scanning (hl : Config.shortInputMax < s.IN_LEN.toNat) (hm : s.IN_LEN.toNat ≤ Config.maxInputLen) :
    step (started s) = .next (startScan (headerEmitted (started s))) ∧
      Scanning s.IN_LEN.toNat (startScan (headerEmitted (started s))) := by
  obtain ⟨hp, hh, hst, hop, hout, -⟩ := started_begun s
  have hroom : (started s).caps.outCap = none := by rw [started_caps, h.outUnbounded]
  rw [h.op] at hop
  rw [← started_IN_LEN s] at hl hm ⊢
  refine ⟨?_, hp, hh, rfl, hroom, scanInv_startScan hop hout hl hm, rfl⟩
  rw [started_compress h, execCompress_begin (by rw [hst]; rintro ⟨⟩), compressBegin_go hm (by rw [hroom]; rfl),
    afterHeader_long (s := headerEmitted (started s)) hl]; rfl

/-- The first step on a short input ends the operation (R193). -/
theorem started_short (hl : s.IN_LEN.toNat ≤ Config.shortInputMax) :
    step (started s) = .next (shortDone (headerEmitted (started s))) := by
  rw [started_compress h]
  refine execCompress_short (started_begun s).stage (by rwa [started_IN_LEN]) ?_
  rw [started_caps, h.outUnbounded]; rfl

/-- A run of `COMPRESS` on an input that is not too long ends, in the first step if the input is short, and otherwise from a
scan with whatever the scan's start has and its steps keep (R190, R193, R204, R295). -/
theorem compress_ends (hm : s.IN_LEN.toNat ≤ Config.maxInputLen) {P : State → Prop} (hP : ScanKeeps P)
    (h0 : P (startScan (headerEmitted (started s)))) :
    ∃ k t, k ≤ 2 + (s.IN_LEN.toNat - 3) ∧ steps (k + 1) s = .next t ∧
      (s.IN_LEN.toNat ≤ Config.shortInputMax ∧ t = shortDone (headerEmitted (started s)) ∨
        ∃ u, Scanning s.IN_LEN.toNat u ∧ P u ∧ t = scanDone u) := by
  by_cases hl : s.IN_LEN.toNat ≤ Config.shortInputMax
  · exact ⟨1, _, by omega, by rw [steps_aboutToStart h]; exact steps_succ_next (started_short h hl), .inl ⟨hl, rfl⟩⟩
  · obtain ⟨hstep, hs⟩ := started_scanning h (Nat.lt_of_not_le hl) hm
    obtain ⟨k, u, hk, hrun, hu, hp⟩ := hs.ends hP h0
    refine ⟨k + 1, _, ?_, by rw [steps_aboutToStart h, steps_succ_next hstep, hrun], .inr ⟨u, hu, hp, rfl⟩⟩
    have hcs : (startScan (headerEmitted (started s))).CS = 0 := rfl
    omega

/-- A too long input ends the run in the first step, in InvalidInput (R191). -/
theorem started_tooLong (hm : Config.maxInputLen < s.IN_LEN.toNat) :
    ∃ u, step (started s) = .next (raise .invalidInput u) := by
  rw [started_compress h]
  exact ⟨_, execCompress_tooLong (started_begun s).stage (by rwa [started_IN_LEN])⟩

end

theorem scanKeeps_true : ScanKeeps fun _ => True := ⟨fun _ _ _ => trivial, fun _ _ _ _ => trivial⟩

/-- Settles O49: the run is `compress_ends`, and both its ends are a success. -/
theorem compressTerminatesAndSucceeds : Obligations.CompressTerminatesAndSucceeds := by
  intro s h hm
  obtain ⟨k, t, hk, hrun, ⟨-, rfl⟩ | ⟨u, -, -, rfl⟩⟩ := compress_ends h hm scanKeeps_true trivial
  · exact ⟨k, _, hk, hrun, rfl, rfl⟩
  · exact ⟨k, _, hk, hrun, rfl, rfl⟩

/-! ## The size of the output (R208) -/

/-- A step of a core with a silent host leaves it silent. -/
theorem step_keepsSilent {s t : State} (hh : s.host = []) (he : step s = .next t) : t.host = [] := by
  by_cases hp : s.PHASE = .run
  · rw [step_run hp hh] at he
    exact (engineStep_keepsInputs he).host.trans hh
  · rw [step_rest hp hh] at he; cases he; exact hh

/-- With a silent host a run has one end. -/
theorem steps_ended_unique {s t u : State} {m n : Nat} (hh : s.host = []) (ht : steps m s = .next t)
    (hu : steps n s = .next u) (pt : t.PHASE = .done) (pu : u.PHASE = .done) : t = u := by
  have rest : ∀ {v : State} {k : Nat} (j : Nat), steps k s = .next v → v.PHASE = .done → steps (k + j) s = .next v :=
    fun j hv pv => by
      rw [steps_add hv]
      exact steps_rest (by rw [pv]; rintro ⟨⟩) (steps_keep (fun _ _ => step_keepsSilent) hh hv) j
  have e := rest n ht pt
  rw [Nat.add_comm, rest m hu pu] at e
  cases e; rfl

theorem scanDone_outLen_le {n : Nat} {t : State} (h : Scanning n t) : (scanDone t).OUT_LEN.toNat ≤ 5 + n + 5 * (n / 4 + 1) := by
  have hlast := pendingBytes_length t.N t
  have hbefore := h.inv.emitted
  have hpend := h.inv.pending
  have hcur := h.inv.cursor
  rw [h.inv.outLen_toNat, ← h.length]; omega

theorem shortDone_outLen_le {s : State} (hl : s.IN_LEN.toNat ≤ Config.shortInputMax) :
    (shortDone (headerEmitted s)).OUT_LEN.toNat ≤ 10 + s.IN_LEN.toNat := by
  rw [shortDone_outLen, BitVec.toNat_ofNat]
  exact (Nat.mod_le _ _).trans (shortBlock_length_le hl)

/-- However `COMPRESS` ends, its output is no longer than the bound (R208). -/
theorem compress_ends_bounded {s : State} (h : AboutToStart 1 s) :
    ∃ k t, steps k (started s) = .next t ∧ t.PHASE = .done ∧
      t.OUT_LEN.toNat ≤ 5 + s.IN_LEN.toNat + 5 * (s.IN_LEN.toNat / 4 + 1) := by
  by_cases hm : s.IN_LEN.toNat ≤ Config.maxInputLen
  · obtain ⟨k, t, -, hrun, hend⟩ := compress_ends h hm scanKeeps_true trivial
    rw [steps_aboutToStart h] at hrun
    obtain ⟨hl, rfl⟩ | ⟨u, hu, -, rfl⟩ := hend
    · have hlen := shortDone_outLen_le (s := started s) (by rwa [started_IN_LEN])
      rw [started_IN_LEN] at hlen
      exact ⟨k, _, hrun, rfl, by omega⟩
    · exact ⟨k, _, hrun, rfl, scanDone_outLen_le hu⟩
  · obtain ⟨u, hu⟩ := started_tooLong h (Nat.lt_of_not_le hm)
    exact ⟨1, _, steps_succ_next hu, rfl, Nat.zero_le _⟩

/-- Settles O47: the run has one end (`steps_ended_unique`), which is within the bound (`compress_ends_bounded`). -/
theorem compressedSizeIsBounded : Obligations.CompressedSizeIsBounded := by
  intro s t n h hrun hdone
  rw [steps_aboutToStart h] at hrun
  obtain ⟨k, u, hu, hud, hbound⟩ := compress_ends_bounded h
  rwa [steps_ended_unique (started_begun s).host hrun hu hdone hud]

end Sys2Proof.Machine
end

section
/-! What the emission helpers emit, as chunks (R220 to R227): a literal's head is the code of a literal chunk, the bytes of a
copy are the codes of copy chunks, and where they stand in a block they decode to the bytes they were emitted for. -/

namespace Sys2Proof.Machine

/-! ## Literals (R224) -/

/-- A byte of a value held in `w` bits (R64). -/
theorem byteOf_ofNat {w : Nat} (n k : Nat) (h : 8 * k + 8 ≤ w) :
    byteOf (BitVec.ofNat w n) k = BitVec.ofNat 8 (n / 2 ^ (8 * k)) := by
  apply BitVec.eq_of_toNat_eq
  obtain ⟨d, rfl⟩ := Nat.exists_eq_add_of_le h
  rw [byteOf_toNat, BitVec.toNat_ofNat, BitVec.toNat_ofNat, Nat.add_assoc, Nat.pow_add, Nat.mod_mul_right_div_self]
  exact Nat.mod_mod_of_dvd _ (Nat.pow_dvd_pow 2 (Nat.le_add_right 8 d))

/-- The literal chunk of `n + 1` bytes, in the shortest form (R224). -/
def literalChunk (n : Nat) : Instr :=
  if n < 60 then .lit (BitVec.ofNat 6 n)
  else if n < 2 ^ 8 then .lit1 (BitVec.ofNat 8 n)
  else if n < 2 ^ 16 then .lit2 (BitVec.ofNat 16 n)
  else if n < 2 ^ 24 then .lit3 (BitVec.ofNat 24 n)
  else .lit4 (BitVec.ofNat 32 n)

/-- What `EMIT_LITERAL` puts before the payload is that chunk's code (R224). -/
theorem literalHead_eq_chunkBytes (n : Nat) : literalHead n = (literalChunk n).chunkBytes := by
  unfold literalHead literalChunk
  split_ifs with h60
  · have htag : BitVec.ofNat 8 (n <<< 2) = BitVec.ofNat 6 n ++ 0#2 := by
      apply BitVec.eq_of_toNat_eq
      rw [tagByte_toNat, BitVec.toNat_ofNat, BitVec.toNat_ofNat, Nat.shiftLeft_eq]
      show _ = _ + 0
      omega
    rw [htag]; rfl
  · rfl
  · rw [Instr.chunkBytes, byteOf_ofNat n 0 (by decide), byteOf_ofNat n 1 (by decide), Nat.pow_zero, Nat.div_one]
  · rw [Instr.chunkBytes, byteOf_ofNat n 0 (by decide), byteOf_ofNat n 1 (by decide), byteOf_ofNat n 2 (by decide),
      Nat.pow_zero, Nat.div_one]
  · rw [Instr.chunkBytes, byteOf_ofNat n 0 (by decide), byteOf_ofNat n 1 (by decide), byteOf_ofNat n 2 (by decide),
      byteOf_ofNat n 3 (by decide), Nat.pow_zero, Nat.div_one]

/-- A literal chunk of `n + 1` bytes that has an encoding. -/
structure EncodedLiteral (i : Instr) (n : Nat) : Prop where
  chunk      : isChunk i = true
  wellFormed : i.wellFormed = true
  literal    : ∃ x, LiteralOf i x (n + 1)

/-- The shortest form of a legal length is a literal of that length (R158, R224, R227). -/
theorem literalChunk_encoded {n : Nat} (hn : n < 0x7fffffff) : EncodedLiteral (literalChunk n) n := by
  have fits : ∀ {w : Nat}, n < 2 ^ w → (BitVec.ofNat w n).toNat = n := fun h => by
    rw [BitVec.toNat_ofNat, Nat.mod_eq_of_lt h]
  unfold literalChunk
  split_ifs with h60 h8 h16 h24
  · have hm := fits (w := 6) (by omega)
    exact ⟨rfl, decide_eq_true (by rwa [hm]), _, hm ▸ literalOf_lit _⟩
  · exact ⟨rfl, rfl, _, fits h8 ▸ literalOf_lit1 _⟩
  · exact ⟨rfl, rfl, _, fits h16 ▸ literalOf_lit2 _⟩
  · exact ⟨rfl, rfl, _, fits h24 ▸ literalOf_lit3 _⟩
  · have hx := fits (w := 32) (by omega)
    exact ⟨rfl, rfl, _, hx ▸ literalOf_lit4 (by rwa [hx])⟩

/-- A literal of the bytes of `x` from `p` to `q` in its shortest form produces them (R159, R224, R227). -/
theorem decodes_literalHead {x : List Byte} {p q : Nat} (hpq : p < q) (hq : q ≤ x.length) (hx : x.length ≤ 0x7fffffff) :
    Decodes x p q (literalHead (q - p - 1) ++ (x.drop p).take (q - p)) := by
  obtain ⟨hchunk, hwf, f, hf⟩ := literalChunk_encoded (n := q - p - 1) (by omega)
  rw [Nat.sub_add_cancel (by omega)] at hf
  have hd := decodes_literal (x := x) (p := p) (n := q - p) (by omega) _ (literal_fixedBytes_pos hf.field)
    (decodeChunk_chunkBytes hchunk hwf) fun _ hin hout => hf.completes hin hout
  rwa [Nat.add_sub_cancel' hpq.le, ← literalHead_eq_chunkBytes] at hd

/-! ## Copies (R220) -/

/-- The tag byte of a copy (R221, R222), its fields put together as numbers. -/
theorem copyTag_fields : (∀ a < 8, ∀ b < 8, (a <<< 5) ||| (b <<< 2) ||| 1 = a * 32 + b * 4 + 1) ∧
    ∀ m < 64, (m <<< 2) ||| 2 = m * 4 + 2 := by decide

theorem append_toNat {v w : Nat} (a : BitVec v) (b : BitVec w) : (a ++ b).toNat = 2 ^ w * a.toNat + b.toNat := by
  rw [BitVec.toNat_append, Nat.shiftLeft_eq, Nat.mul_comm, ← Nat.two_pow_add_eq_or_of_lt b.isLt]

/-- `emit_copy1` emits the code of a `COPY1` (R99, R221). -/
theorem copy1Bytes_eq_chunkBytes {off n : Nat} (ho : off < 2048) (h4 : 4 ≤ n) (h11 : n ≤ 11) :
    copy1Bytes off n = (Instr.copy1 (BitVec.ofNat 3 (n - 4)) (BitVec.ofNat 11 off)).chunkBytes := by
  have hoff : (BitVec.ofNat 11 off).toNat = off := by rw [BitVec.toNat_ofNat]; omega
  have hlen : (BitVec.ofNat 3 (n - 4)).toNat = n - 4 := by rw [BitVec.toNat_ofNat]; omega
  have hlow : BitVec.ofNat 8 off = (BitVec.ofNat 11 off).extractLsb' 0 8 := by
    apply BitVec.eq_of_toNat_eq
    rw [BitVec.extractLsb'_toNat, hoff, BitVec.toNat_ofNat]; rfl
  have htag : BitVec.ofNat 8 (((off / 256 % 8) <<< 5) ||| ((n - 4) <<< 2) ||| 1) =
      (BitVec.ofNat 11 off).extractLsb' 8 3 ++ BitVec.ofNat 3 (n - 4) ++ 1#2 := by
    apply BitVec.eq_of_toNat_eq
    rw [append_toNat, append_toNat, BitVec.extractLsb'_toNat, Nat.shiftRight_eq_div_pow, hoff, hlen, BitVec.toNat_ofNat,
      copyTag_fields.1 _ (by omega) _ (by omega)]
    show _ = _ + 1
    omega
  rw [copy1Bytes, hlow, htag]; rfl

/-- `emit_copy2` emits the code of a `COPY2` (R101, R222). -/
theorem copy2Bytes_eq_chunkBytes {off n : Nat} (h1 : 1 ≤ n) (h64 : n ≤ 64) :
    copy2Bytes off n = (Instr.copy2 (BitVec.ofNat 6 (n - 1)) (BitVec.ofNat 16 off)).chunkBytes := by
  have htag : BitVec.ofNat 8 (((n - 1) <<< 2) ||| 2) = BitVec.ofNat 6 (n - 1) ++ 2#2 := by
    apply BitVec.eq_of_toNat_eq
    rw [copyTag_fields.2 _ (by omega), tagByte_toNat, BitVec.toNat_ofNat, BitVec.toNat_ofNat]
    show _ = _ + 2
    omega
  rw [copy2Bytes, htag, Instr.chunkBytes, byteOf_ofNat off 0 (by decide), byteOf_ofNat off 1 (by decide), Nat.pow_zero,
    Nat.div_one]; rfl

/-- A `COPY1` by its length and offset (R100). -/
theorem copyOf_copy1_ofNat {off n : Nat} (ho : off < 2048) (h4 : 4 ≤ n) (h11 : n ≤ 11) :
    ∃ len o, CopyOf (.copy1 (BitVec.ofNat 3 (n - 4)) (BitVec.ofNat 11 off)) len o n off :=
  ⟨_, _, rfl, by rw [copy1Len_toNat, BitVec.toNat_ofNat]; omega, by rw [copy1Off_toNat, BitVec.toNat_ofNat]; omega⟩

/-- A `COPY2` by its length and offset (R102). -/
theorem copyOf_copy2_ofNat {off n : Nat} (ho : off < 65536) (h1 : 1 ≤ n) (h64 : n ≤ 64) :
    ∃ len o, CopyOf (.copy2 (BitVec.ofNat 6 (n - 1)) (BitVec.ofNat 16 off)) len o n off :=
  ⟨_, _, rfl, by rw [copy2Len_toNat, BitVec.toNat_ofNat]; omega, by rw [BitVec.toNat_ofNat]; omega⟩

section
variable {x : List Byte} {off : Nat} (h1 : 1 ≤ off) (h16 : off < 65536)
include h1

/-- A copy chunk produces the bytes that are the same `off` before (R162, R168). -/
theorem decodes_copyChunk {i : Instr} {len : Word32} {o : BitVec 16} {p n : Nat} (hi : CopyOf i len o n off)
    (hchunk : isChunk i = true) (hwf : i.wellFormed = true) (ho : off ≤ p) (hn : p + n ≤ x.length)
    (hm : ∀ j, j < n → x[p + j]? = x[p - off + j]?) : Decodes x p (p + n) i.chunkBytes :=
  decodes_copy h1 ho hn hm i (le_of_lt (two_le_copy_fixedBytes hi.operands)) (decodeChunk_chunkBytes hchunk hwf)
    fun _ hin ho hout hd => hi.repeats hin h1 ho hout hd

include h16

/-- The chunks the loop of R220 emits produce the whole length, each going on where the one before stopped (R223). -/
theorem decodes_copyBytesLoop {fuel rem p : Nat} (hf : rem ≤ fuel) (ho : off ≤ p) (hn : p + rem ≤ x.length)
    (hm : ∀ j, j < rem → x[p + j]? = x[p - off + j]?) : Decodes x p (p + rem) (copyBytesLoop off fuel rem) := by
  induction fuel generalizing rem p with
  | zero =>
    obtain rfl : rem = 0 := by omega
    exact Decodes.nil
  | succ fuel ih =>
    rw [copyBytesLoop]
    split
    · next h0 => rw [h0]; exact Decodes.nil
    · next h0 =>
      split
      · next hc =>
        obtain ⟨h4, h11, hoff⟩ := hc
        obtain ⟨len, o, hi⟩ := copyOf_copy1_ofNat hoff h4 h11
        rw [copy1Bytes_eq_chunkBytes hoff h4 h11]
        exact decodes_copyChunk h1 hi rfl rfl ho hn hm
      · obtain ⟨n, rfl, hpos, h64⟩ : ∃ n, n = min rem 64 ∧ 1 ≤ n ∧ n ≤ 64 := ⟨_, rfl, by omega, by omega⟩
        obtain ⟨len, o, hi⟩ := copyOf_copy2_ofNat h16 hpos h64
        rw [copy2Bytes_eq_chunkBytes hpos h64]
        refine (decodes_copyChunk h1 hi rfl rfl ho (by omega) fun j hj => hm j (by omega)).append ?_
        have hrest := ih (rem := rem - min rem 64) (p := p + min rem 64) (by omega) (by omega) (by omega) fun j hj => by
          have := hm (min rem 64 + j) (by omega)
          rwa [← Nat.add_assoc, ← Nat.add_assoc, ← Nat.sub_add_comm ho] at this
        rwa [Nat.add_assoc, Nat.add_sub_cancel' (Nat.min_le_left _ _)] at hrest

theorem decodes_copyBytes {p n : Nat} (ho : off ≤ p) (hn : p + n ≤ x.length)
    (hm : ∀ j, j < n → x[p + j]? = x[p - off + j]?) : Decodes x p (p + n) (copyBytes off n) :=
  decodes_copyBytesLoop h1 h16 le_rfl ho hn hm

end

end Sys2Proof.Machine
end

section
/-! The round trip (R206, R207): along a scan the output is a header and chunks that replay the input up to the pending
literal; at the end it is a block that `DECOMPRESS` turns back into the input. -/

namespace Sys2Proof.Machine

/-! ## The input -/

theorem HoldsInput.congr {s t : State} {x : List Byte} (h : HoldsInput s x) (hl : t.IN_LEN = s.IN_LEN) (hi : t.IN = s.IN)
    (he : t.epoch = s.epoch) : HoldsInput t x where
  len := by rw [hl, h.len]
  bytes := fun i hb => by rw [readIn_congr hi he, h.bytes i hb]

theorem holdsInput_started {s : State} {x : List Byte} (h : HoldsInput s x) : HoldsInput (started s) x :=
  h.congr (started_IN_LEN s) (started_IN s) (started_epoch s)

/-! ## Blocks -/

/-- The header of a block of `x` (R192). -/
def blockHeader (x : List Byte) : List Byte := putuvarintBytes (BitVec.ofNat 64 x.length)

/-- `y` is the header of `x` and chunks whose replay gives the first `q` bytes of `x` (R206). -/
def Replays (x : List Byte) (q : Nat) (y : List Byte) : Prop := ∃ cs, y = blockHeader x ++ cs ∧ Decodes x 0 q cs

theorem Replays.header (x : List Byte) : Replays x 0 (blockHeader x) := ⟨[], (List.append_nil _).symm, Decodes.nil⟩

theorem Replays.append {x y ds : List Byte} {p q : Nat} (h : Replays x p y) (hd : Decodes x p q ds) :
    Replays x q (y ++ ds) := by
  obtain ⟨cs, rfl, hc⟩ := h
  exact ⟨cs ++ ds, List.append_assoc _ _ _, hc.append hd⟩

/-! ## DECOMPRESS of a block -/

/-- The header step on a block of `x` accepts its length and stands before the first chunk (R151). -/
theorem headerStep_block {x y cs : List Byte} {u : State} (hx : x.length ≤ 0x7fffffff) (hy : y = blockHeader x ++ cs)
    (hu : HoldsInput u y) (hp : u.PHASE = .run) (hh : u.host = []) (hroom : u.caps.outCap = none) :
    ∃ t, headerStep u = .next t ∧ AtByte x y 0 (blockHeader x).length t := by
  obtain ⟨hlen, hbytes⟩ := hu
  obtain ⟨hv, hval, -⟩ := putuvarintBytes_spec (BitVec.ofNat 64 x.length)
  rw [BitVec.toNat_ofNat, Nat.mod_eq_of_lt (by omega)] at hval
  have hyl : (blockHeader x).length ≤ y.length := by rw [hy, List.length_append]; omega
  have hsame : ∀ i, i < (blockHeader x).length → listByte (blockHeader x) i = u.readIn i := fun i hi => by
    have hb := hbytes i (hi.trans_le hyl)
    rw [hy, List.getElem?_append_left hi, List.getElem?_eq_getElem hi, Option.some.injEq] at hb
    rw [hb]; exact List.getD_eq_getElem _ _ hi
  obtain ⟨v, hvv, -, he⟩ := headerStep_of_varint (isVarint_congr hsame hv) (hyl.trans_eq hlen.symm)
  have hgroups : groupsValue u.readIn (blockHeader x).length = x.length := (groupsValue_congr hsame).symm.trans hval
  rw [hgroups] at hvv he
  rw [if_neg (Nat.not_lt_of_le hx), hroom, fits_none, if_pos rfl] at he
  exact ⟨_, he, {
    phase := hp, host := hh, stage := rfl, len := hlen, input := hbytes, cursor := rfl, written := rfl
    total := (headerDone_DLEN_toNat (by rw [hvv]; exact hx)).trans hvv
    inside := Nat.zero_le _
    produced := fun a ha => absurd ha (Nat.not_lt_zero a) }⟩

/-- At the end of the block, with all of `x` produced, the operation ends with the output `x` (R165). -/
theorem AtByte.ends {x y : List Byte} {t : State} (h : AtByte x y x.length y.length t) :
    ∃ v, step t = .next v ∧ EndsWithOutput v x := by
  have hend : ¬ t.S < t.IN_LEN.toNat := by rw [h.cursor, h.len]; exact Nat.lt_irrefl _
  rw [step_run h.phase h.host, engineStep_end h.stage hend]
  rcases endStep_cases t with ⟨hD, -⟩ | ⟨-, he⟩
  · exact absurd (h.written.trans h.total.symm) hD
  · exact ⟨_, he, rfl, rfl, (dlen_setWidth_toNat t).trans h.total, h.produced⟩

/-- `DECOMPRESS` of a block that replays all of `x` ends with `x`, on any core (R207). -/
theorem Replays.decompress {x y : List Byte} (h : Replays x x.length y) (hx : x.length ≤ 0x7fffffff) {u : State}
    (hu : AboutToStart 0 u) (hin : HoldsInput u y) : ∃ m v, steps (m + 1) u = .next v ∧ EndsWithOutput v x := by
  obtain ⟨cs, hy, hd⟩ := h
  obtain ⟨hp, hh, hst, -⟩ := started_begun u
  have hstep : step (started u) = headerStep (started u) := by
    rw [step_started_eq, hu.op]
    exact execDecompress_header (by rw [hst]; rintro ⟨⟩)
  obtain ⟨t, ht, hat⟩ := headerStep_block hx hy (holdsInput_started hin) hp hh (by rw [started_caps, hu.outUnbounded])
  have hlen : (blockHeader x).length + cs.length = y.length := by rw [hy, List.length_append]
  obtain ⟨k, w, hw, hatw⟩ := hd y _ t [] hat (by rw [hy, List.drop_left, List.append_nil]) (by omega)
  rw [hlen] at hatw
  obtain ⟨v, hv, hout⟩ := hatw.ends
  refine ⟨1 + (k + 1), v, ?_, hout⟩
  rw [steps_aboutToStart hu, steps_add (steps_succ_next (hstep.trans ht)), steps_add hw, steps_succ_next hv]; rfl

/-! ## Along the scan -/

/-- The output so far replays the input `x` up to the pending literal (R206). -/
structure ScanReplays (x : List Byte) (t : State) : Prop where
  input   : HoldsInput t x
  written : ∃ y, t.OUT = Store.writeList [] 0 y ∧ t.W = y.length ∧ Replays x t.LIT y

section
variable {x : List Byte} (hx : x.length ≤ 0x7fffffff)
include hx

/-- The pending literal produces the bytes up to its end (R201, R204). -/
theorem decodes_pendingBytes {t : State} (hin : HoldsInput t x) {q : Nat} (hl : t.LIT ≤ q) (hq : q ≤ x.length) :
    Decodes x t.LIT q (pendingBytes q t) := by
  unfold pendingBytes
  split
  · next he => rw [he]; exact Decodes.nil
  · next hne =>
    rw [inBytes_eq_take hin.bytes _ _ (by omega)]
    exact decodes_literalHead (by omega) hq hx

/-- A hit's literal and copy produce the bytes up to the match's end (R201, R203, R207). -/
theorem decodes_hitOutput {t : State} (hin : HoldsInput t x) (h : ScanInv t) {p len : Nat} (hp : p < t.CS)
    (hd : t.CS - p < 32768) (hm : MatchLength t p len) : Decodes x t.LIT (t.CS + len) (hitOutput p len t) := by
  have hlen : t.N = x.length := h.input.trans hin.len
  have hinside := hm.inside
  rw [hlen] at hinside
  refine (decodes_pendingBytes hx hin h.pending (hlen ▸ h.cursor)).append
    (decodes_copyBytes (by omega) (by omega) (Nat.sub_le _ _) hinside fun j hj => ?_)
  rw [Nat.sub_sub_self hp.le, ← hin.bytes _ (by omega), ← hin.bytes _ (by omega), hm.equal j hj]

/-- Scan steps keep it: a miss emits nothing and leaves the pending literal's start, a hit emits what produces the bytes up
to the match's end. -/
theorem scanKeeps_replays : ScanKeeps (ScanReplays x) where
  miss := fun _ _ h => ⟨h.input.congr rfl rfl rfl, h.written⟩
  hit := fun {t p} hinv hlt hc ⟨hin, y, hout, hW, hrep⟩ => by
    obtain ⟨hp, hd⟩ := hinv.candidate_lt hc
    obtain ⟨len, hm, hend⟩ := matchEnd_of_hit hlt hc
    have hLIT : (hitDone p t).LIT = t.CS + len := by show (matchEnd p t).1 = _; rw [hend]
    refine ⟨hin.congr rfl rfl rfl, y ++ hitBytes p t, ?_, ?_, ?_⟩
    · show Store.writeList t.OUT t.W (hitBytes p t) = _
      rw [hout, hW, writeList_append, Nat.zero_add]
    · show t.W + (hitBytes p t).length = _
      rw [hW, List.length_append]
    · rw [hLIT, hm.hitBytes_eq]
      exact hrep.append (decodes_hitOutput hx hin hinv hp hd hm)

/-- The last flush leaves a block of the whole input (R204). -/
theorem scanDone_output {t : State} (hinv : ScanInv t) (h : ScanReplays x t) :
    ∃ y, EndsWithOutput (scanDone t) y ∧ Replays x x.length y := by
  obtain ⟨hin, y, hout, hW, hrep⟩ := h
  have hlen : t.N = x.length := hinv.input.trans hin.len
  have hyl : (y ++ pendingBytes t.N t).length = t.W + (pendingBytes t.N t).length := by rw [List.length_append, hW]
  refine ⟨y ++ pendingBytes t.N t, ?_, ?_⟩
  · refine endsWithOutput_of_writeList rfl rfl (by rw [hyl]; rfl) ?_ (m := []) ?_
    · rw [hyl, ← hinv.outLen_toNat]; exact BitVec.isLt _
    · rw [writeList_append, ← hout, Nat.zero_add, ← hW]; rfl
  · rw [hlen]
    exact hrep.append (decodes_pendingBytes hx hin (hinv.pending.trans (hlen ▸ hinv.cursor)) le_rfl)

end

theorem headerBytes_of_holdsInput {s : State} {x : List Byte} (h : HoldsInput s x) : headerBytes s = blockHeader x := by
  rw [headerBytes, h.len, blockHeader]

/-- The scan starts with the header written and nothing replayed (R192, R196). -/
theorem scanReplays_start {s : State} {x : List Byte} (h : HoldsInput s x) (ho : s.OUT = []) :
    ScanReplays x (startScan (headerEmitted s)) := by
  refine ⟨h.congr rfl rfl rfl, blockHeader x, ?_, ?_, Replays.header x⟩
  · show Store.writeList s.OUT 0 (headerBytes s) = _
    rw [ho, headerBytes_of_holdsInput h]
  · show (headerBytes s).length = _
    rw [headerBytes_of_holdsInput h]

/-- The block of a short input replays it (R193). -/
theorem shortBlock_replays {s : State} {x : List Byte} (h : HoldsInput s x) (hx : x.length ≤ 0x7fffffff) :
    Replays x x.length (shortBlock s) := by
  have hN : (headerEmitted s).N = x.length := h.len
  rw [shortBlock, headerBytes_of_holdsInput h]
  refine (Replays.header x).append ?_
  unfold shortBytes
  rw [hN]
  split
  · next h0 => rw [h0]; exact Decodes.nil
  · next h0 =>
    rw [inBytes_eq_take (s := headerEmitted s) h.bytes _ _ (by omega)]
    exact decodes_literalHead (p := 0) (Nat.pos_of_ne_zero h0) le_rfl hx

/-- Settles O52: the run of `COMPRESS` is `compress_ends`, whose scan keeps `ScanReplays`; each of its ends leaves a block that
replays the input, which `DECOMPRESS` turns back into it (`Replays.decompress`). -/
theorem decompressInvertsCompress : Obligations.DecompressInvertsCompress := by
  intro s x h hin hx
  have hin' := holdsInput_started hin
  have hm : s.IN_LEN.toNat ≤ Config.maxInputLen := by rw [hin.len]; exact hx.trans (by decide)
  obtain ⟨n, t, -, hrun, hend⟩ := compress_ends h hm (scanKeeps_replays hx) (scanReplays_start hin' (started_begun s).out)
  have hblock : ∃ y, EndsWithOutput t y ∧ Replays x x.length y := by
    obtain ⟨hl, rfl⟩ | ⟨u, hu, hrep, rfl⟩ := hend
    · exact ⟨_, shortDone_endsWithOutput (by rwa [started_IN_LEN]), shortBlock_replays hin' hx⟩
    · exact scanDone_output hx hu.inv hrep
  obtain ⟨y, hy, hrep⟩ := hblock
  exact ⟨n, t, y, hrun, hy, fun _ => hrep.decompress hx⟩

end Sys2Proof.Machine
end

section
/-! `EMIT_COPY` and `EMIT_LITERAL` as lists of chunks (R220 to R225): the loop of R220 takes whole `COPY2`s of 64 off the length
until less than 64 is left. -/

namespace Sys2Proof.Machine

/-! ## The rounds of EMIT_COPY (R220) -/

@[simp] theorem copyBytesLoop_zero (off fuel : Nat) : copyBytesLoop off fuel 0 = [] := by
  cases fuel with
  | zero => rfl
  | succ fuel => exact if_pos rfl

/-- A round with 64 or more left emits a `COPY2` of 64 (R220, R222). -/
theorem copyBytesLoop_of_le (off fuel : Nat) {rem : Nat} (h : 64 ≤ rem) :
    copyBytesLoop off (fuel + 1) rem =
      (Instr.copy2 63 (BitVec.ofNat 16 off)).chunkBytes ++ copyBytesLoop off fuel (rem - 64) := by
  rw [copyBytesLoop, if_neg (by omega), if_neg (by omega), Nat.min_eq_right h,
    copy2Bytes_eq_chunkBytes (by decide) (Nat.le_refl 64)]
  rfl

/-- The code of the chunk for the `r` bytes that whole `COPY2`s of 64 leave over; none for `r` = 0 (R220). -/
def lastCopyBytes (off r : Nat) : List Byte :=
  if r = 0 then []
  else if 4 ≤ r ∧ r ≤ 11 ∧ off < 2048 then (Instr.copy1 (BitVec.ofNat 3 (r - 4)) (BitVec.ofNat 11 off)).chunkBytes
  else (Instr.copy2 (BitVec.ofNat 6 (r - 1)) (BitVec.ofNat 16 off)).chunkBytes

/-- With less than 64 left the loop emits at most one more chunk (R220). -/
theorem copyBytesLoop_of_lt (off : Nat) {fuel r : Nat} (hf : r ≤ fuel) (hr : r < 64) :
    copyBytesLoop off fuel r = lastCopyBytes off r := by
  unfold lastCopyBytes
  split_ifs with h0 hc
  · rw [h0, copyBytesLoop_zero]
  · obtain ⟨fuel, rfl⟩ := Nat.exists_eq_add_one_of_ne_zero (n := fuel) (by omega)
    obtain ⟨h4, h11, hoff⟩ := hc
    rw [copyBytesLoop, if_neg h0, if_pos ⟨h4, h11, hoff⟩, copy1Bytes_eq_chunkBytes hoff h4 h11]
  · obtain ⟨fuel, rfl⟩ := Nat.exists_eq_add_one_of_ne_zero (n := fuel) (by omega)
    rw [copyBytesLoop, if_neg h0, if_neg hc, Nat.min_eq_left hr.le, Nat.sub_self, copyBytesLoop_zero, List.append_nil,
      copy2Bytes_eq_chunkBytes (Nat.pos_of_ne_zero h0) hr.le]

/-- A length of `64 * q + r` is `q` chunks of 64 and the last one (R220). -/
theorem copyBytesLoop_eq_chunks (off : Nat) {q fuel r : Nat} (hf : 64 * q + r ≤ fuel) (hr : r < 64) :
    copyBytesLoop off fuel (64 * q + r) =
      (List.replicate q (Instr.copy2 63 (BitVec.ofNat 16 off))).flatMap Instr.chunkBytes ++ lastCopyBytes off r := by
  induction q generalizing fuel with
  | zero =>
    rw [Nat.mul_zero, Nat.zero_add] at hf ⊢
    exact copyBytesLoop_of_lt off hf hr
  | succ q ih =>
    obtain ⟨fuel, rfl⟩ := Nat.exists_eq_add_one_of_ne_zero (n := fuel) (by omega)
    have hrest : 64 * (q + 1) + r - 64 = 64 * q + r := by omega
    rw [copyBytesLoop_of_le off fuel (by omega), hrest, ih (by omega), List.replicate_succ, List.flatMap_cons,
      List.append_assoc]

/-- Settles O41: the length is `64 * (len / 64) + len % 64`, which the loop of R220 cuts up (`copyBytesLoop_eq_chunks`). -/
theorem emitCopySplitsIntoChunks : Obligations.EmitCopySplitsIntoChunks := by
  intro off len _
  have h := copyBytesLoop_eq_chunks off (Nat.div_add_mod len 64).le (Nat.mod_lt len (by decide))
  rwa [Nat.div_add_mod] at h

/-! ## The forms of EMIT_LITERAL (R225) -/

/-- Settles O42: the head is the code of `literalChunk` (`literalHead_eq_chunkBytes`), whose limits on `count - 1` are R225's on
`count`. -/
theorem emitLiteralPicksShortestForm : Obligations.EmitLiteralPicksShortestForm := by
  intro count h1 _
  have limit (m : Nat) : count - 1 < m ↔ count ≤ m := by omega
  rw [literalHead_eq_chunkBytes]
  simp only [literalChunk, limit, Nat.reducePow]

end Sys2Proof.Machine
end

section
/-! Every error is a `raise` (R247, R250): where a meaning that began with `STATUS` and `VSTAT` OK leaves another status, and
what `VSTAT` it leaves then (R134, R151). -/

namespace Sys2Proof.Machine

/-- The instruction `i` has raised an error from `s`, which leaves `t`; a `VSTAT` other than OK is the varint decoder's, in a
`UVARINT` or a block header. -/
def RaisedBy (i : Instr) (s t : State) : Prop :=
  ∃ k u, t = raise k u ∧
    (u.VSTAT ≠ .ok → k = .corrupt ∧ (i = .uvarint ∨ (i = .decompress ∧ s.stage ≠ .chunks)))

theorem raisedBy_of_vstat {i : Instr} {s u : State} (k : ErrKind) (h : u.VSTAT = .ok) : RaisedBy i s (raise k u) :=
  ⟨k, u, rfl, absurd h⟩

/-- A chunk that leaves another status has raised, and does not touch `VSTAT`. -/
theorem chunk_raises {i : Instr} {s t : State} (hi : isChunk i = true) (hs : s.STATUS = .ok) (he : exec i s = .next t)
    (ht : t.STATUS ≠ .ok) : ∃ k u, t = raise k u ∧ u.VSTAT = s.VSTAT := by
  rcases chunk_cases i hi s with ⟨k, x, h, -⟩ | ⟨k, len, off, h, -⟩ | ⟨e, x, len, off, c, h, -⟩ <;> rw [h] at he <;> cases he
  · exact absurd hs ht
  · rw [copyLoop_frame] at ht; exact absurd hs ht
  · exact ⟨e, _, rfl, rfl⟩

theorem uvarint_raisedBy {s t : State} (he : exec .uvarint s = .next t) (ht : t.STATUS ≠ .ok) : RaisedBy .uvarint s t := by
  rcases execUvarint_cases s with ⟨v, n, -, h⟩ | ⟨-, h⟩ | ⟨-, h⟩ <;> rw [h] at he <;> cases he
  · exact absurd rfl ht
  · exact ⟨_, _, rfl, fun _ => ⟨rfl, .inl rfl⟩⟩
  · exact ⟨_, _, rfl, fun _ => ⟨rfl, .inl rfl⟩⟩

section
variable {s t : State} (hs : s.STATUS = .ok) (hv : s.VSTAT = .ok)
include hs hv

theorem chunk_raisedBy {i : Instr} (hi : isChunk i = true) (he : exec i s = .next t) (ht : t.STATUS ≠ .ok) :
    RaisedBy i s t := by
  obtain ⟨k, u, rfl, hu⟩ := chunk_raises hi hs he ht
  exact raisedBy_of_vstat k (hu.trans hv)

/-- The header step is the one step of `DECOMPRESS` that can leave a `VSTAT` other than OK (R151). -/
theorem decompress_raisedBy (he : exec .decompress s = .next t) (ht : t.STATUS ≠ .ok) : RaisedBy .decompress s t := by
  rcases execDecompress_cases s with ⟨hst, h⟩ | ⟨-, -, h⟩ | ⟨-, -, h⟩ <;> rw [h] at he
  · rcases headerStep_cases s with ⟨-, h1⟩ | ⟨-, h1⟩ | ⟨v, n, hr, ⟨-, h1⟩ | ⟨-, -, h1⟩ | ⟨-, -, h1⟩⟩ <;> rw [h1] at he <;>
      cases he
    · exact ⟨_, _, rfl, fun _ => ⟨rfl, .inr ⟨rfl, hst⟩⟩⟩
    · exact ⟨_, _, rfl, fun _ => ⟨rfl, .inr ⟨rfl, hst⟩⟩⟩
    · exact raisedBy_of_vstat _ (by rw [headerRan_vstat, hr]; rfl)
    · exact absurd hs ht
  · obtain ⟨k, u, rfl, hu⟩ := chunk_raises (s := fetchChunk s) (chunkAt_isChunk s) hs he ht
    exact raisedBy_of_vstat k (hu.trans hv)
  · rcases endStep_cases s with ⟨-, h1⟩ | ⟨-, h1⟩ <;> rw [h1] at he <;> cases he
    · exact raisedBy_of_vstat _ hv
    · exact absurd rfl ht

theorem compress_raisedBy (he : exec .compress s = .next t) (ht : t.STATUS ≠ .ok) : RaisedBy .compress s t := by
  rcases execCompress_next he with ⟨u, rfl, rfl | ⟨p, rfl⟩ | rfl⟩ | rfl | rfl | rfl | ⟨p, rfl⟩ | rfl
  · exact raisedBy_of_vstat _ hv
  · exact raisedBy_of_vstat _ hv
  · exact raisedBy_of_vstat _ hv
  · exact absurd rfl ht
  · exact absurd hs ht
  · exact absurd hs ht
  · exact absurd hs ht
  · exact absurd rfl ht

/-- An instruction that leaves another status has raised. -/
theorem exec_raisedBy {i : Instr} (he : exec i s = .next t) (ht : t.STATUS ≠ .ok) : RaisedBy i s t := by
  cases i with
  | decompress => exact decompress_raisedBy hs hv he ht
  | compress => exact compress_raisedBy hs hv he ht
  | uvarint => exact uvarint_raisedBy he ht
  | putuvarint => exact absurd (putuvarint_status he) ht
  | _ => exact chunk_raisedBy hs hv rfl he ht

end

/-- Settles O30: whichever instruction it is, it has raised (`exec_raisedBy`), and none changes its inputs
(`exec_keepsInputs`). -/
theorem everyErrorLeavesNoOutput : Obligations.EveryErrorLeavesNoOutput := by
  intro i s t hs hv he ht
  obtain ⟨hin, hlen, hop, harg, -⟩ := exec_keepsInputs he
  obtain ⟨k, u, rfl, hvarint⟩ := exec_raisedBy hs hv he ht
  refine ⟨⟨k, endsWithError_raise k u⟩, hin, hlen, hop, harg, fun hne => ?_⟩
  obtain ⟨rfl, hwhere⟩ := hvarint hne
  exact ⟨rfl, hwhere⟩

end Sys2Proof.Machine
end

section
/-! `DECOMPRESS` of a block and of a proper initial part of it (E7): as long as the chunks lie in the part, both cores stand
before the same chunk with the same number of bytes produced; where the part ends the one raises Corrupt. -/

namespace Sys2Proof.Machine

/-! ## The bytes of an initial part -/

/-- A chunk decodes to the same whatever bytes follow those that hold it (R104). -/
theorem decodeChunk_append {bs rest : List Byte} {i : Instr} (h : decodeChunk bs = .ok i rest) (more : List Byte) :
    decodeChunk (bs ++ more) = .ok i (rest ++ more) := by
  obtain ⟨hi, hw, rfl⟩ := chunkBytes_of_decodeChunk h
  rw [List.append_assoc]
  exact decodeChunk_chunkBytes hi hw _

section
variable {x : List Byte} {m : Nat} {s s' : State} (h : HoldsInput s x) (h' : HoldsInput s' (x.take m)) (hm : m < x.length)
include h' hm

theorem HoldsInput.take_len : s'.IN_LEN.toNat = m := by
  rw [h'.len, List.length_take_of_le hm.le]

include h

theorem HoldsInput.take_readIn {i : Nat} (hi : i < m) : s.readIn i = s'.readIn i := by
  have hb := h'.bytes i (by rw [List.length_take_of_le hm.le]; exact hi)
  rw [List.getElem?_take_of_lt hi, ← h.bytes i (hi.trans hm), Option.some.injEq] at hb
  exact hb.symm

/-- A chunk whose fixed part lies in the initial part is the chunk there of the whole block. -/
theorem chunkAt_of_take (hS : s'.S = s.S) (hs : s.S < m) (hp : s'.S + (chunkAt s').fixedBytes ≤ s'.IN_LEN.toNat) :
    chunkAt s = chunkAt s' := by
  have hcut := decodeChunk_block (s := s') (by rw [h'.take_len hm]; omega)
  rw [if_pos hp, inBytes_eq_drop h'.bytes _ _ (by have := h'.len; have := h'.take_len hm; omega), hS] at hcut
  have hwhole := decodeChunk_block (s := s) (by rw [h.len]; omega)
  have hdrop : x.drop s.S = (x.take m).drop s.S ++ x.drop m := by
    conv_lhs => rw [← List.take_append_drop m x]
    exact List.drop_append_of_le_length (by rw [List.length_take_of_le hm.le]; exact hs.le)
  rw [inBytes_eq_drop h.bytes _ _ (by rw [h.len]; omega), hdrop, decodeChunk_append hcut] at hwhole
  split at hwhole
  · injection hwhole with hi
    exact hi.symm
  · cases hwhole

end

/-! ## A chunk on two cores -/

/-- The outcome `o` is the error Corrupt, or a next state of the running core with the cursors of `t`. -/
def FollowsOrCorrupt (o : Host.Outcome State Fault Refusal) (t : State) : Prop :=
  ∃ t', o = .next t' ∧ (EndsWithError t' .corrupt ∨ (t'.PHASE = .run ∧ t'.S = t.S ∧ t'.D = t.D))

theorem followsOrCorrupt_raise (s t : State) : FollowsOrCorrupt (.next (raise .corrupt s)) t :=
  ⟨_, rfl, .inl (endsWithError_raise _ _)⟩

/-- A literal that does not raise has a legal length (R158). -/
theorem literal_legal {i : Instr} {x : Word32} {s t : State} (hi : literalField i = some x) (he : exec i s = .next t)
    (ht : t.PHASE = .run) : ¬ ((literalLen x).toNat = 0 ∨ 2 ^ 31 ≤ (literalLen x).toNat) := by
  intro hbad
  rcases exec_literal_cases hi s with h | ⟨h2, hlt⟩
  · rw [h, literalTail_eq, if_pos hbad] at he; cases he; cases ht
  · rw [exec_truncated h2 hlt] at he; cases he; cases ht

/-- A copy that does not raise has its offset and its length inside the output (R162). -/
theorem copy_inside {i : Instr} {len : Word32} {off : BitVec 16} {s t : State} (hi : copyOperands i = some (len, off))
    (he : exec i s = .next t) (ht : t.PHASE = .run) : ¬ (s.D < off.toNat ∨ s.DLEN.toNat < s.D + len.toNat) := by
  intro hbad
  by_cases hp : s.S + i.fixedBytes ≤ s.IN_LEN.toNat
  · rw [exec_copy hi hp, copyTail_eq, if_pos hbad] at he; cases he; cases ht
  · rw [exec_truncated (two_le_copy_fixedBytes hi) (Nat.lt_of_not_le hp)] at he; cases he; cases ht

section
variable {i : Instr} {s s' t : State} (he : exec i s = .next t) (ht : t.PHASE = .run) (hp : s'.PHASE = .run)
  (hS : s'.S = s.S) (hD : s'.D = s.D) (hN : s'.DLEN = s.DLEN)
include he ht hp hS hD

theorem literal_follows {x : Word32} (hi : literalField i = some x) : FollowsOrCorrupt (exec i s') t := by
  rcases exec_literal_cases hi s' with h | ⟨h2, hlt⟩
  · rw [h, literalTail_eq, if_neg (literal_legal hi he ht)]
    split
    · exact followsOrCorrupt_raise _ _
    · rw [literal_running hi he ht]
      exact ⟨_, rfl, .inr ⟨hp, by unfold literalDone; rw [hS], by unfold literalDone; rw [hD]⟩⟩
  · rw [exec_truncated h2 hlt]; exact followsOrCorrupt_raise _ _

include hN

theorem copy_follows {len : Word32} {off : BitVec 16} (hi : copyOperands i = some (len, off)) :
    FollowsOrCorrupt (exec i s') t := by
  by_cases hfix : s'.S + i.fixedBytes ≤ s'.IN_LEN.toNat
  · rw [exec_copy hi hfix, copyTail_eq, hD, hN, if_neg (copy_inside hi he ht), copy_running hi he ht]
    refine ⟨_, rfl, .inr ⟨?_, ?_, ?_⟩⟩
    · rw [copyLoop_frame]; exact hp
    · rw [copyLoop_frame, copyLoop_frame off.toNat len.toNat (copyFetched i.fixedBytes len off s)]
      exact congrArg (· + i.fixedBytes) hS
    · rw [copyLoop_D, copyLoop_D]; exact congrArg (· + len.toNat) hD
  · rw [exec_truncated (two_le_copy_fixedBytes hi) (Nat.lt_of_not_le hfix)]; exact followsOrCorrupt_raise _ _

/-- A chunk that completes on one core completes with the same cursors on another that stands at the same ones, or that core
lacks bytes of it and raises Corrupt, whatever its output holds. -/
theorem chunk_follows (hi : isChunk i = true) : FollowsOrCorrupt (exec i s') t := by
  cases i with
  | lit m | lit1 x | lit2 x | lit3 x | lit4 x => exact literal_follows he ht hp hS hD rfl
  | copy1 l off | copy2 m off => exact copy_follows he ht hp hS hD hN rfl
  | copy4 m => cases he; cases ht
  | decompress | compress | uvarint | putuvarint => cases hi

end

/-! ## The runs -/

/-- `DECOMPRESS` of the block `x` stands before the chunk at `k`, or at the block's end, with `d` of `n` bytes produced. -/
structure BeforeChunk (x : List Byte) (k d : Nat) (n : Word32) (t : State) : Prop where
  phase   : t.PHASE = .run
  host    : t.host = []
  stage   : t.stage = .chunks
  input   : HoldsInput t x
  cursor  : t.S = k
  written : t.D = d
  total   : t.DLEN = n

/-- The run from `t` ends with the error Corrupt. -/
def EndsCorrupt (t : State) : Prop := ∃ n v, steps n t = .next v ∧ EndsWithError v .corrupt

theorem endsCorrupt_of_step {t u : State} (h : step t = .next u) : EndsCorrupt u → EndsCorrupt t :=
  fun ⟨n, v, hv, hc⟩ => ⟨n + 1, v, (steps_succ_next h).trans hv, hc⟩

theorem EndsWithError.endsCorrupt {t : State} (h : EndsWithError t .corrupt) : EndsCorrupt t := ⟨0, t, rfl, h⟩

/-- A run that ends well does not pass an error (R252). -/
theorem steps_raise_ne_ok {k : ErrKind} {u v : State} {n : Nat} (hh : u.host = []) (h : steps n (raise k u) = .next v) :
    v.STATUS ≠ .ok := by
  rw [steps_rest (s := raise k u) (by rw [raise_PHASE]; decide) hh] at h
  cases h
  exact status_ne_ok k

/-- A run that ends well from before a chunk completes that chunk, which produces a byte or more (R167, R169). -/
theorem BeforeChunk.chunk_completes {x : List Byte} {k d j : Nat} {n : Word32} {t v : State} (h : BeforeChunk x k d n t)
    (hk : k < x.length) (hv : steps (j + 1) t = .next v) (hok : v.STATUS = .ok) :
    ∃ u, exec (chunkAt t) (fetchChunk t) = .next u ∧ steps j u = .next v ∧ u.PHASE = .run ∧ d < n.toNat := by
  obtain ⟨u, hu, hrest⟩ := steps_succ_eq_next hv
  rw [step_run h.phase h.host, engineStep_chunk h.stage (by rw [h.cursor, h.input.len]; exact hk)] at hu
  have hi := chunkAt_isChunk t
  have hh : u.host = [] := (chunk_keepsInputs hi hu).host.trans h.host
  refine ⟨u, hu, hrest, ?_⟩
  rcases chunk_step hi hu with ⟨e, -, hraise⟩ | ⟨hframe, hlo, hhi, -⟩
  · rw [hraise] at hrest
    exact absurd hok (steps_raise_ne_ok hh hrest)
  · rw [fetchChunk_D, h.written] at hlo
    rw [fetchChunk_DLEN, h.total] at hhi
    exact ⟨by rw [hframe]; exact h.phase, by omega⟩

/-- A chunk that does not raise leaves the core before the next one. -/
theorem BeforeChunk.next {x : List Byte} {k d : Nat} {n : Word32} {t u : State} {i : Instr} (h : BeforeChunk x k d n t)
    (hi : isChunk i = true) (hu : exec i (fetchChunk t) = .next u) (hp : u.PHASE = .run) :
    BeforeChunk x u.S u.D n u ∧ u.S ≤ x.length := by
  have hkeep := chunk_keepsInputs hi hu
  rcases chunk_step hi hu with ⟨e, hdone, -⟩ | ⟨hframe, -, -, -, hS, -⟩
  · rw [hp] at hdone; cases hdone
  · exact ⟨⟨hp, hkeep.host.trans h.host, by rw [hframe]; exact h.stage,
      h.input.congr hkeep.inLen hkeep.input hkeep.epoch, rfl, rfl, by rw [hframe]; exact h.total⟩, hS.trans_eq h.input.len⟩

section
variable {x : List Byte} {m : Nat} (hm : m < x.length)
include hm

/-- At the end of the initial part bytes of the output are missing: the end step raises Corrupt (R165). -/
theorem BeforeChunk.corrupt_at_end {d : Nat} {n : Word32} {t' : State} (h' : BeforeChunk (x.take m) m d n t')
    (hd : d < n.toNat) : EndsCorrupt t' := by
  have hend : ¬ t'.S < t'.IN_LEN.toNat := by rw [h'.cursor, h'.input.take_len hm]; exact Nat.lt_irrefl m
  have hstep := step_run h'.phase h'.host
  rw [engineStep_end h'.stage hend] at hstep
  rcases endStep_cases t' with ⟨-, he⟩ | ⟨hD, -⟩
  · exact endsCorrupt_of_step (hstep.trans he) (endsWithError_raise _ _).endsCorrupt
  · rw [h'.written, h'.total] at hD
    exact absurd hD hd.ne

/-- A chunk of the whole block that completes and begins in the initial part: there it raises Corrupt or does the same. -/
theorem BeforeChunk.follows {k d : Nat} {n : Word32} {t t' u : State} (h : BeforeChunk x k d n t)
    (h' : BeforeChunk (x.take m) k d n t') (hk : k < m) (hu : exec (chunkAt t) (fetchChunk t) = .next u)
    (hp : u.PHASE = .run) : FollowsOrCorrupt (exec (chunkAt t') (fetchChunk t')) u := by
  have hS : t'.S = t.S := h'.cursor.trans h.cursor.symm
  by_cases hfix : t'.S + (chunkAt t').fixedBytes ≤ t'.IN_LEN.toNat
  · rw [← chunkAt_of_take h.input h'.input hm hS (h.cursor.trans_lt hk) hfix]
    exact chunk_follows (s' := fetchChunk t') hu hp h'.phase hS (h'.written.trans h.written.symm)
      (h'.total.trans h.total.symm) (chunkAt_isChunk t)
  · have hlen := h'.input.take_len hm
    have hcur := h'.cursor
    rw [exec_truncated (s := fetchChunk t') (by omega) (Nat.lt_of_not_le hfix)]
    exact followsOrCorrupt_raise _ _

/-- If the run of the whole block ends well, that of the initial part, which stands before the same chunk, ends with Corrupt:
by induction on the run's steps. -/
theorem BeforeChunk.endsCorrupt {j k d : Nat} {n : Word32} {t t' v : State} (h : BeforeChunk x k d n t)
    (h' : BeforeChunk (x.take m) k d n t') (hk : k ≤ m) (hv : steps j t = .next v) (hdone : v.PHASE = .done)
    (hok : v.STATUS = .ok) : EndsCorrupt t' := by
  induction j generalizing k d t t' with
  | zero => cases hv; rw [h.phase] at hdone; cases hdone
  | succ j ih =>
    obtain ⟨u, hu, hrest, hp, hd⟩ := h.chunk_completes (hk.trans_lt hm) hv hok
    rcases hk.eq_or_lt with rfl | hlt
    · exact h'.corrupt_at_end hm hd
    · have hstep := step_run h'.phase h'.host
      rw [engineStep_chunk h'.stage (by rw [h'.cursor, h'.input.take_len hm]; exact hlt)] at hstep
      obtain ⟨u', hu', herr | ⟨hp', hS, hD⟩⟩ := h.follows hm h' hlt hu hp
      · exact endsCorrupt_of_step (hstep.trans hu') herr.endsCorrupt
      · obtain ⟨hnext, -⟩ := h.next (chunkAt_isChunk t) hu hp
        obtain ⟨hnext', hin⟩ := h'.next (chunkAt_isChunk t') hu' hp'
        rw [hS, hD] at hnext'
        rw [hS, List.length_take_of_le hm.le] at hin
        exact endsCorrupt_of_step (hstep.trans hu') (ih hnext hnext' hin hrest)

end

/-! ## The header -/

theorem step_started_decompress {s : State} (h : AboutToStart 0 s) : step (started s) = headerStep (started s) := by
  rw [step_started_eq, h.op]
  exact execDecompress_header (by rw [(started_begun s).stage]; rintro ⟨⟩)

/-- An accepted header leaves the core before the first chunk (R151). -/
theorem beforeChunk_headerDone {s : State} {x : List Byte} (h : HoldsInput s x) (hp : s.PHASE = .run) (hh : s.host = [])
    (v : Word64) (k : Nat) : BeforeChunk x k 0 (v.setWidth 32) (headerDone v k s) where
  phase := hp
  host := hh
  stage := rfl
  input := h.congr rfl rfl rfl
  cursor := rfl
  written := rfl
  total := rfl

theorem beforeChunk_started {s : State} {x : List Byte} (h : HoldsInput s x) (v : Word64) (k : Nat) :
    BeforeChunk x k 0 (v.setWidth 32) (headerDone v k (started s)) :=
  beforeChunk_headerDone (holdsInput_started h) (started_begun s).phase (started_begun s).host v k

/-- A run of `DECOMPRESS` that ends well has an accepted header. -/
theorem header_accepted {s v : State} {n : Nat} (h : AboutToStart 0 s) (hv : steps n (started s) = .next v)
    (hdone : v.PHASE = .done) (hok : v.STATUS = .ok) :
    ∃ (w : Word64) (k j : Nat), IsVarint s.readIn k ∧ w.toNat = groupsValue s.readIn k ∧ w.toNat ≤ 0x7fffffff ∧
      steps j (headerDone w k (started s)) = .next v := by
  obtain ⟨hp, hh, -⟩ := started_begun s
  cases n with
  | zero => cases hv; rw [hp] at hdone; cases hdone
  | succ j =>
    obtain ⟨u, hu, hrest⟩ := steps_succ_eq_next hv
    rw [step_started_decompress h] at hu
    have not_raised : ∀ k, u ≠ raise k (headerRan (started s)) := by
      rintro k rfl
      exact steps_raise_ne_ok (u := headerRan (started s)) hh hrest hok
    rcases headerStep_cases (started s) with ⟨-, he⟩ | ⟨-, he⟩ | ⟨w, k, hr, ⟨-, he⟩ | ⟨hw, -, he⟩ | ⟨-, -, he⟩⟩ <;>
      rw [he] at hu <;> cases hu
    · exact absurd rfl (not_raised _)
    · exact absurd rfl (not_raised _)
    · exact absurd rfl (not_raised _)
    · obtain ⟨hvarint, -, hval⟩ := uvarintRun_ok hr
      rw [funext (started_readIn s)] at hvarint hval
      exact ⟨w, k, j, hvarint, hval, hw, hrest⟩

section
variable {x : List Byte} {m k : Nat} {w : Word64} {s s' : State} (hm : m < x.length) (hin : HoldsInput s x)
  (h' : AboutToStart 0 s') (hin' : HoldsInput s' (x.take m)) (hv : IsVarint s.readIn k)
include hm hin h' hin' hv

/-- An initial part that ends inside the header's varint is Corrupt (R132, R151). -/
theorem header_truncated (hk : m < k) : EndsCorrupt (started s') := by
  have hlen : (started s').IN_LEN.toNat = m := by rw [started_IN_LEN, hin'.take_len hm]
  have htrunc : (uvarintRun (started s')).result = .trunc := by
    refine uvarintLoop_trunc (by have := hv.short; omega) fun i hi => ?_
    rw [hlen] at hi
    rw [started_readIn, ← hin.take_readIn hin' hm hi]
    exact hv.cont i (by omega)
  exact endsCorrupt_of_step ((step_started_decompress h').trans (headerStep_of_trunc htrunc))
    (endsWithError_raise _ _).endsCorrupt

/-- An initial part that holds the header's varint has the same header (R151). -/
theorem header_same (hk : k ≤ m) (hval : w.toNat = groupsValue s.readIn k) (hw : w.toNat ≤ 0x7fffffff) :
    step (started s') = .next (headerDone w k (started s')) := by
  have hbytes : ∀ i, i < k → s.readIn i = (started s').readIn i := fun i hi => by
    rw [started_readIn]; exact hin.take_readIn hin' hm (hi.trans_le hk)
  have hlen : k ≤ (started s').IN_LEN.toNat := by rw [started_IN_LEN, hin'.take_len hm]; exact hk
  obtain ⟨w', hw', -, he⟩ := headerStep_of_varint (isVarint_congr hbytes hv) hlen
  rw [← groupsValue_congr hbytes, ← hval] at hw' he
  obtain rfl := BitVec.eq_of_toNat_eq hw'
  rw [step_started_decompress h', he, if_neg (Nat.not_lt_of_le hw), started_caps, h'.outUnbounded, fits_none, if_pos rfl]

end

/-- Settles O51: the whole block's header is accepted; the initial part ends inside it (`header_truncated`), or has the same
header (`header_same`) and then ends among the chunks (`BeforeChunk.endsCorrupt`). -/
theorem truncatedBlockIsCorrupt : Obligations.TruncatedBlockIsCorrupt := by
  intro s t s' x m n h hin hrun hdone hok hm h' hin'
  rw [steps_aboutToStart h] at hrun
  obtain ⟨w, k, j, hv, hval, hw, hrest⟩ := header_accepted h hrun hdone hok
  have hcorrupt : EndsCorrupt (started s') := by
    rcases Nat.lt_or_ge m k with hk | hk
    · exact header_truncated hm hin h' hin' hv hk
    · exact endsCorrupt_of_step (header_same hm hin h' hin' hv hk hval hw)
        ((beforeChunk_started hin w k).endsCorrupt hm (beforeChunk_started hin' w k) hk hrest hdone hok)
  obtain ⟨n', t', hrun', herr⟩ := hcorrupt
  exact ⟨n', t', (steps_aboutToStart h' n').trans hrun', herr⟩

end Sys2Proof.Machine
end

section
/-! The host's moves while the core runs: it may read `PHASE` and RESET, and the model refuses the rest (R26, R286). -/

namespace Sys2Proof.Machine

/-- A read of `PHASE` during RUN gives 1 and takes the step (R21). -/
theorem step_run_readPhase {s : State} {rest : List HostMove} (hp : s.PHASE = .run) (hh : s.host = .readPhase :: rest) :
    step s = .next { s with host := rest, rdata := 1 } := by
  rw [step_run_move hp hh]
  show hostGet s.PHASE.code { s with host := rest } = _
  rw [hp]; rfl

/-- Besides waiting, RESET, START and the read of `PHASE` every move is an access that RUN refuses (R286). -/
theorem hostMoveRun_access {m : HostMove} (rest : List HostMove) (s : State) (hwait : m ≠ .wait) (hpoll : m ≠ .awaitDone)
    (hreset : m ≠ .reset) (hread : m ≠ .readPhase) (hstart : m ≠ .start) :
    hostMoveRun m rest s = .host (.refused .hostAccessDuringRun) := by
  cases m with
  | wait => exact absurd rfl hwait
  | awaitDone => exact absurd rfl hpoll
  | reset => exact absurd rfl hreset
  | readPhase => exact absurd rfl hread
  | start => exact absurd rfl hstart
  | _ => rfl

/-- Settles O9: a read of `PHASE` is `step_run_readPhase`, RESET is `step_reset`, and what is left is START or an access
(`hostMoveRun_access`). -/
theorem hostHasNoMoveDuringRun : Obligations.HostHasNoMoveDuringRun := by
  intro s m rest hp hh
  refine ⟨?_, ?_, ?_, fun hwait hpoll hreset hread hstart => ?_⟩
  · rintro rfl
    exact step_run_readPhase hp hh
  · rintro rfl
    exact ⟨_, step_reset hh, rfl, rfl, rfl⟩
  · rintro rfl
    rw [step_run_move hp hh]; rfl
  · rw [step_run_move hp hh, hostMoveRun_access rest s hwait hpoll hreset hread hstart]

end Sys2Proof.Machine
end
